-- ==== Sys2Proof/Word.lean ====
section
/-! DEFINITION. The widths the spec names, and nothing else (rules R9, R10, R15, R22, R27, R28).
Sign extension, truncation and byte order stand in Machine/Bits.lean. -/

namespace Sys2Proof

/-- A byte of sample memory (rule R40). -/
abbrev Byte := BitVec 8

/-- A 16-bit pattern: a CRAM entry (R27) or a FilterState field (R22). -/
abbrev Half := BitVec 16

/-- A 32-bit pattern: a slave register (R35), a command word (R55) or a DLRAM slot (R28). -/
abbrev Word := BitVec 32

end Sys2Proof
end

