-- ==== Sys2Proof/Syntax.lean ====
section
/-! DEFINITION. The commands of the block: one constructor per row of the opcode map (rules R57, R58). -/

namespace Sys2Proof

/-- The sample format FMT of a PROCESS command (rule R109); FMT = 3 is reserved (rule R55). -/
inductive Format where
  | s16
  | s24
  | s32
  deriving DecidableEq, Repr

/-- The execution mode MODE of a PROCESS command (rule R55): the single-sample form or the dual-sample form. -/
inductive Mode where
  | any
  | even
  deriving DecidableEq, Repr

/-- A command (rule R57). `ch` is the channel operand, the field CH of the command word (rule R55). -/
inductive Instr where
  | fsReset (ch : Nat)
  | fsConfigure (ch : Nat)
  | fsBind (ch : Nat)
  | fsShiftplan (ch : Nat)
  | dlPush (ch : Nat)
  | dlTap (ch : Nat)
  | kSingle (ch : Nat)
  | kDual (ch : Nat)
  | processS16Any
  | processS16Even
  | processS24Any
  | processS24Even
  | processS32Any
  | processS32Even
  | fxRshift
  | fxSat16
  | fxSat24
  | fxSat32
  deriving DecidableEq, Repr

/-- The channel operand of a channel command (FS.*, DL.*, K.*: rule R62); the other commands have none. -/
def Instr.channel : Instr → Option Nat
  | .fsReset ch | .fsConfigure ch | .fsBind ch | .fsShiftplan ch | .dlPush ch | .dlTap ch | .kSingle ch | .kDual ch => some ch
  | .processS16Any | .processS16Even | .processS24Any | .processS24Even | .processS32Any | .processS32Even => none
  | .fxRshift | .fxSat16 | .fxSat24 | .fxSat32 => none

/-- The format and mode of a PROCESS command (rule R57); the other commands have none. -/
def Instr.process : Instr → Option (Format × Mode)
  | .processS16Any => some (.s16, .any)
  | .processS16Even => some (.s16, .even)
  | .processS24Any => some (.s24, .any)
  | .processS24Even => some (.s24, .even)
  | .processS32Any => some (.s32, .any)
  | .processS32Even => some (.s32, .even)
  | .fsReset _ | .fsConfigure _ | .fsBind _ | .fsShiftplan _ | .dlPush _ | .dlTap _ | .kSingle _ | .kDual _ => none
  | .fxRshift | .fxSat16 | .fxSat24 | .fxSat32 => none

end Sys2Proof
end

