-- ==== Sys2Proof/WellFormed.lean ====
section
/-! DEFINITION. Which commands a command word can hold: the channel fits the 8-bit field CH (rule R55).
A channel of NCH_MAX or more is well formed: rule R62 says what it does. -/

namespace Sys2Proof

/-- The channel operand fits CMD[15:8] (rule R55). -/
def channelFits (ch : Nat) : Bool := decide (ch < 256)

/-- A command that rule R55's word can hold. -/
def wellFormed : Instr → Bool
  | .fsReset ch => channelFits ch
  | .fsConfigure ch => channelFits ch
  | .fsBind ch => channelFits ch
  | .fsShiftplan ch => channelFits ch
  | .dlPush ch => channelFits ch
  | .dlTap ch => channelFits ch
  | .kSingle ch => channelFits ch
  | .kDual ch => channelFits ch
  | .processS16Any => true
  | .processS16Even => true
  | .processS24Any => true
  | .processS24Even => true
  | .processS32Any => true
  | .processS32Even => true
  | .fxRshift => true
  | .fxSat16 => true
  | .fxSat24 => true
  | .fxSat32 => true

end Sys2Proof
end

