-- ==== Sys2Proof/Decode.lean ====
section
/-! DEFINITION. Decoding a command word (rules R55, R58, R61) and encoding a command (rules R55, R57).
The decoder reads the match and mask table of R58; the encoder lays out the fields of R55 with the values of R57. -/

namespace Sys2Proof

/-- Why a word is no command (the cases rule R61 lists). Every one ends with ERR_ILLEGAL. -/
inductive DecodeError where
  /-- OPC is assigned to no command. -/
  | unassignedOpcode
  /-- A bit of RSV is set. -/
  | reservedBits
  /-- FMT = 3. -/
  | reservedFormat
  /-- CH, FMT or MODE is nonzero where the row requires 0. -/
  | fieldNotZero
  deriving DecidableEq, Repr

/-- One row of rule R58's table, with the command it selects. -/
structure OpRow where
  mnemonic : String
  pattern  : Word
  mask     : Word
  make     : Nat → Instr

/-- CMD[7:0], the field OPC (rule R55). -/
def fieldOPC (w : Word) : Nat := (w &&& 0x000000FF#32).toNat

/-- CMD[15:8], the field CH, `zext_8` (rule R55). -/
def fieldCH (w : Word) : Nat := ((w >>> 8) &&& 0x000000FF#32).toNat

/-- CMD[17:16], the field FMT (rule R55). -/
def fieldFMT (w : Word) : Nat := ((w >>> 16) &&& 0x00000003#32).toNat

/-- CMD[18], the field MODE (rule R55). -/
def fieldMODE (w : Word) : Nat := ((w >>> 18) &&& 0x00000001#32).toNat

/-- CMD[31:19], the field RSV (rule R55). -/
def fieldRSV (w : Word) : Nat := (w >>> 19).toNat

/-- The rows of the channel commands (rule R58). -/
def channelRows : List OpRow :=
  [ { mnemonic := "FS.RESET",     pattern := 0x00000001#32, mask := 0xFFFF00FF#32, make := fun ch => .fsReset ch },
    { mnemonic := "FS.CONFIGURE", pattern := 0x00000002#32, mask := 0xFFFF00FF#32, make := fun ch => .fsConfigure ch },
    { mnemonic := "FS.BIND",      pattern := 0x00000003#32, mask := 0xFFFF00FF#32, make := fun ch => .fsBind ch },
    { mnemonic := "FS.SHIFTPLAN", pattern := 0x00000004#32, mask := 0xFFFF00FF#32, make := fun ch => .fsShiftplan ch },
    { mnemonic := "DL.PUSH",      pattern := 0x00000008#32, mask := 0xFFFF00FF#32, make := fun ch => .dlPush ch },
    { mnemonic := "DL.TAP",       pattern := 0x00000009#32, mask := 0xFFFF00FF#32, make := fun ch => .dlTap ch },
    { mnemonic := "K.SINGLE",     pattern := 0x00000010#32, mask := 0xFFFF00FF#32, make := fun ch => .kSingle ch },
    { mnemonic := "K.DUAL",       pattern := 0x00000011#32, mask := 0xFFFF00FF#32, make := fun ch => .kDual ch } ]

/-- The rows of the PROCESS and FX commands (rule R58). -/
def exactRows : List OpRow :=
  [ { mnemonic := "PROCESS.S16.ANY",  pattern := 0x00000020#32, mask := 0xFFFFFFFF#32, make := fun _ => .processS16Any },
    { mnemonic := "PROCESS.S16.EVEN", pattern := 0x00040020#32, mask := 0xFFFFFFFF#32, make := fun _ => .processS16Even },
    { mnemonic := "PROCESS.S24.ANY",  pattern := 0x00010020#32, mask := 0xFFFFFFFF#32, make := fun _ => .processS24Any },
    { mnemonic := "PROCESS.S24.EVEN", pattern := 0x00050020#32, mask := 0xFFFFFFFF#32, make := fun _ => .processS24Even },
    { mnemonic := "PROCESS.S32.ANY",  pattern := 0x00020020#32, mask := 0xFFFFFFFF#32, make := fun _ => .processS32Any },
    { mnemonic := "PROCESS.S32.EVEN", pattern := 0x00060020#32, mask := 0xFFFFFFFF#32, make := fun _ => .processS32Even },
    { mnemonic := "FX.RSHIFT",        pattern := 0x00000030#32, mask := 0xFFFFFFFF#32, make := fun _ => .fxRshift },
    { mnemonic := "FX.SAT16",         pattern := 0x00000031#32, mask := 0xFFFFFFFF#32, make := fun _ => .fxSat16 },
    { mnemonic := "FX.SAT24",         pattern := 0x00000032#32, mask := 0xFFFFFFFF#32, make := fun _ => .fxSat24 },
    { mnemonic := "FX.SAT32",         pattern := 0x00000033#32, mask := 0xFFFFFFFF#32, make := fun _ => .fxSat32 } ]

/-- The match and mask table of rule R58, all 18 rows. -/
def opTable : List OpRow := channelRows ++ exactRows

/-- "(w & mask) = match" (rule R58). -/
def OpRow.selects (r : OpRow) (w : Word) : Bool := (w &&& r.mask) == r.pattern

/-- Which case of rule R61 a word that no row selects falls under. -/
def decodeErrorOf (w : Word) : DecodeError :=
  if fieldRSV w ≠ 0 then .reservedBits
  else if ((opTable.map fun r => fieldOPC r.pattern).contains (fieldOPC w)) = false then .unassignedOpcode
  else if fieldFMT w = 3 then .reservedFormat
  else .fieldNotZero

/-- Decode a command word (rule R58), total, rejecting by name (rule R61). -/
def decode (w : Word) : Except DecodeError Instr :=
  match opTable.find? (fun r => r.selects w) with
  | some r => .ok (r.make (fieldCH w))
  | none => .error (decodeErrorOf w)

/-- The word of rule R55 from its field values. -/
def cmdWord (opc ch fmt mode : Nat) : Word := BitVec.ofNat 32 (opc + ch * 2 ^ 8 + fmt * 2 ^ 16 + mode * 2 ^ 18)

/-- The command word of a command: rule R55's fields with the values of rule R57's map. -/
def encode : Instr → Word
  | .fsReset ch => cmdWord 0x01 ch 0 0
  | .fsConfigure ch => cmdWord 0x02 ch 0 0
  | .fsBind ch => cmdWord 0x03 ch 0 0
  | .fsShiftplan ch => cmdWord 0x04 ch 0 0
  | .dlPush ch => cmdWord 0x08 ch 0 0
  | .dlTap ch => cmdWord 0x09 ch 0 0
  | .kSingle ch => cmdWord 0x10 ch 0 0
  | .kDual ch => cmdWord 0x11 ch 0 0
  | .processS16Any => cmdWord 0x20 0 0 0
  | .processS16Even => cmdWord 0x20 0 0 1
  | .processS24Any => cmdWord 0x20 0 1 0
  | .processS24Even => cmdWord 0x20 0 1 1
  | .processS32Any => cmdWord 0x20 0 2 0
  | .processS32Even => cmdWord 0x20 0 2 1
  | .fxRshift => cmdWord 0x30 0 0 0
  | .fxSat16 => cmdWord 0x31 0 0 0
  | .fxSat24 => cmdWord 0x32 0 0 0
  | .fxSat32 => cmdWord 0x33 0 0 0

/-- The word whose low `nbits` bits are those of w and whose other bits are 0. -/
def tableWord (nbits w : Nat) : Word := BitVec.ofNat 32 (w % 2 ^ nbits)

/-- What the decoder reads from a word numbered as spec/opcode_table.json numbers it. Every command is one 32-bit word
(rule R56), and the slave port moves it whole (rule R43). -/
def decodeTableWord (nbits w : Nat) : Option Instr :=
  match decode (tableWord nbits w) with
  | .ok i => some i
  | .error _ => none

end Sys2Proof
end

