-- ==== Sys2Proof/Config.lean ====
section
/-! DEFINITION. What an implementation fixes (the parameters of rule R8) and the free values (rules R34, R140, R145). -/

namespace Sys2Proof

/-- The four OPEN parameters of rule R8. The other rows of R8 are fixed numbers. The model holds them in State
(PARAM0 and PARAM1, rule R20), so every statement is about every choice of them. -/
structure Params where
  maxLength    : Nat
  nchMax       : Nat
  coefRamWords : Nat
  dlRamSlots   : Nat
  deriving DecidableEq, Repr

/-- The constraints rule R8 puts on the four parameters. -/
abbrev Params.Valid (p : Params) : Prop :=
  4 ≤ p.maxLength ∧ p.maxLength % 4 = 0 ∧ p.maxLength ≤ p.coefRamWords ∧ p.maxLength + 2 ≤ p.dlRamSlots ∧
  p.maxLength ≤ 65532 ∧ 1 ≤ p.nchMax ∧ p.nchMax ≤ 256 ∧ p.coefRamWords ≤ 16384 ∧ p.dlRamSlots ≤ 16384

/-- The test configuration of rule R8. DESIGN CHOICE (log 1): the spec calls it "an example, not a normative value";
only `State.reset` uses it. -/
def Params.test : Params := { maxLength := 192, nchMax := 8, coefRamWords := 1024, dlRamSlots := 2048 }

/-- Bits of the byte address of the sample-memory master port (rule R8, SYS_ADDR_WIDTH). -/
def Config.sysAddrWidth : Nat := 32

/-- The "sample-slot size" of rule R91 (rule R8, SLOT_BYTES). -/
def Config.slotBytes : Nat := 4

/-- The fractional bits of the accumulator (rule R8, ACC_FRAC = 15 + 31). -/
def Config.accFrac : Nat := 46

/-- The fractional bits of a delay-line sample and of the kernel's result (rule R8, SAMPLE_WIDTH: Q1.31). -/
def Config.sampleFrac : Nat := 31

/-- FREE VALUE (log 2): the n-th 16-bit draw, for a CRAM entry after block reset (rules R34, R139). -/
opaque Config.freeHalf : Nat → Half

/-- FREE VALUE (log 2): the n-th 32-bit draw, for a DLRAM slot after block reset (rules R34, R139) and for a slave read
before BUSY = 0 has been read (rule R145). -/
opaque Config.freeWord : Nat → Word

/-- FREE VALUE (log 2): the n-th byte draw, for a destination element after a reset in flight (rule R140). -/
opaque Config.freeByte : Nat → Byte

end Sys2Proof
end

