-- ==== Sys2Proof/Machine/Bits.lean ====
section
/-! DEFINITION. Reading and writing patterns as integers (rule R10). -/

namespace Sys2Proof.Machine

/-- `sext_N(p)`: the low N bits of p as a two's-complement integer (rule R10). -/
def sext (N : Nat) {m : Nat} (p : BitVec m) : Int := (p.setWidth N).toInt

/-- `zext_N(p)`: the low N bits of p as an unsigned integer (rule R10). -/
def zext (N : Nat) {m : Nat} (p : BitVec m) : Nat := (p.setWidth N).toNat

/-- `trunc_N(v)`: the N-bit two's-complement pattern of v modulo 2^N (rule R10). -/
def trunc (N : Nat) (v : Int) : BitVec N := BitVec.ofInt N v

end Sys2Proof.Machine
end

