-- ==== Sys2Proof/Machine/FixedPoint.lean ====
section
/-! DEFINITION. The pure arithmetic of the datapath, over the integers: rounding and saturation (rules R68, R70), the
shift plan (R92), the kernel's output mapping (R101) and the sample formats (R109, R110). -/

namespace Sys2Proof.Machine

/-- `roundedShift(v, from, to)` (rule R68): exact when widening; when narrowing, round the magnitude with ties up and
restore the sign. -/
def roundedShift (v : Int) (fromFrac toFrac : Nat) : Int :=
  if fromFrac ≤ toFrac then v * 2 ^ (toFrac - fromFrac)
  else
    let n := fromFrac - toFrac
    let h := 2 ^ (n - 1)
    let q : Int := ((v.natAbs + h) / 2 ^ n : Nat)
    if 0 ≤ v then q else -q

/-- The least signed N-bit integer (rule R70). -/
def satLo (N : Nat) : Int := -(2 ^ (N - 1))

/-- The greatest signed N-bit integer (rule R70). -/
def satHi (N : Nat) : Int := 2 ^ (N - 1) - 1

/-- `sat_N(v)` (rule R70). -/
def sat (N : Nat) (v : Int) : Int :=
  if v < satLo N then satLo N else if satHi N < v then satHi N else v

/-- `ShiftPlan(S) = (ls, rs)` (rule R92). -/
def shiftPlan (S : Int) : Nat × Nat := ((max 0 (-S)).toNat, (max 0 S).toNat)

/-- The kernel's result from the exact accumulator (rule R101): exact left shift, one rounding, saturation to 32 bits. -/
def outputMap (S acc : Int) : Int :=
  let plan := shiftPlan S
  sat 32 (roundedShift (acc * 2 ^ plan.1) (Config.accFrac + plan.2) Config.sampleFrac)

/-- The element size ES in bytes (rules R44, R109). -/
def elemSize : Format → Nat
  | .s16 => 2
  | .s24 => 4
  | .s32 => 4

/-- `Pre(e)`: the kernel input of an element read as the pattern e (rule R109). -/
def preTransform (fmt : Format) (e : Nat) : Int :=
  match fmt with
  | .s16 => sext 16 (BitVec.ofNat 16 e) * 2 ^ 16
  | .s24 => sext 24 (BitVec.ofNat 32 e) * 2 ^ 8
  | .s32 => sext 32 (BitVec.ofNat 32 e)

/-- `Post(y)`: the value stored for the kernel's result y (rule R110). -/
def postValue (fmt : Format) (y : Int) : Int :=
  match fmt with
  | .s16 => sat 16 (roundedShift y 31 15)
  | .s24 => sat 24 (roundedShift y 31 23)
  | .s32 => y

/-- The pattern stored for the kernel's result y (rule R110): the value in ES bytes. -/
def postPattern (fmt : Format) (y : Int) : Nat :=
  match fmt with
  | .s16 => (trunc 16 (postValue .s16 y)).toNat
  | .s24 => (trunc 32 (postValue .s24 y)).toNat
  | .s32 => (trunc 32 (postValue .s32 y)).toNat

/-- `Σ_{k=0}^{n-1} f k` over the integers (rule R11). -/
def sumBelow (f : Nat → Int) : Nat → Int
  | 0 => 0
  | n + 1 => sumBelow f n + f n

end Sys2Proof.Machine
end

