-- ==== Sys2Proof/Machine/State.lean ====
section
/-! DEFINITION. Everything the spec gives the block (10_state.md), as plain data, with the surroundings that a run needs,
the reasons a step can stop, and the state after block reset (rule R34). -/

namespace Sys2Proof.Machine

/-- The contract violations of rule R130. Each is SAFE: the spec leaves the block's behaviour unspecified there, and the
model stops with the spec's name for it. -/
inductive Fault where
  /-- A slave access that is not an aligned 32-bit word (rule R43). Raised by the slave port. -/
  | slaveAccess
  /-- A slave write before BUSY = 0 has been read, an agent touching the buffers of a PROCESS in flight, or a missed
  coherence duty (rules R49, R145). Raised by the host's and other agents' accesses. -/
  | hostHazard
  /-- A PROCESS buffer whose address is no multiple of ES (rules R44, R113 P4). -/
  | misaligned
  /-- A PROCESS buffer passing 2^32 (rules R44, R113 P5). -/
  | addressWrap
  /-- DL.*, K.* or PROCESS on a channel that is not ACTIVE (rules R84, R85, R106, R107, R113 P2). -/
  | notActive
  /-- DL.TAP with k ≥ T (rule R85). -/
  | tapIndex
  /-- PROCESS over channels whose DLRAM regions overlap (rules R83, R113 P7). -/
  | sharedDelayLine
  /-- A CRAM write into the CoefficientSet of a CONFIGURED or ACTIVE channel (rule R93). Raised by the slave port. -/
  | coefMutated
  /-- PROCESS with N > NCH_MAX (rule R113 P1). -/
  | channelCount
  /-- PROCESS.*.EVEN with odd F (rule R113 P3). -/
  | oddFrames
  /-- PROCESS with partly overlapping buffers (rule R113 P6). -/
  | bufferOverlap
  /-- A sample-memory access of PROCESS that fails on the bus (rule R113 P8). -/
  | busError
  deriving DecidableEq, Repr

/-- Why a step has no meaning. No command of this block is refused. -/
inductive Refusal where
  /-- A command whose arm in Dispatch.lean has no meaning yet. SAFE. -/
  | notModelled (mnemonic : String)
  deriving DecidableEq, Repr

/-- What one step answers. -/
abbrev Result (σ : Type) : Type := Host.Outcome σ Fault Refusal

/-- The lifecycle LC of a FilterState (rules R22, R86). -/
inductive Lifecycle where
  | uninit
  | configured
  | active
  deriving DecidableEq, Repr

/-- The result codes of STATUS.ERR (rule R126). -/
inductive ErrCode where
  | ok
  | invalidConfig
  | errState
  | errRange
  | errIllegal
  deriving DecidableEq, Repr

/-- Where the command in flight stands (rules R18, R32 (a), R145). BUSY = 1 exactly in `running`. -/
inductive Phase where
  /-- No command in flight, and the host has read BUSY = 0 since the last one. -/
  | idle
  /-- The command in CMD is in flight. It completes after `left` more host accesses (log 5). -/
  | running (left : Nat)
  /-- The command is complete, and the host has not read BUSY = 0 yet (rule R145, log 6). -/
  | unseen
  deriving DecidableEq, Repr

/-- One FilterState register set (rule R22). -/
structure FilterState where
  LC       : Lifecycle
  T        : Half
  L        : Half
  S        : BitVec 8
  coefBase : Half
  dlBase   : Half
  wp       : Half
  deriving DecidableEq, Repr

/-- The register set of an UNINIT channel: every field 0 (rules R24, R34, R95). -/
def FilterState.uninit : FilterState :=
  { LC := .uninit, T := 0, L := 0, S := 0, coefBase := 0, dlBase := 0, wp := 0 }

/-- One access from outside the block. A host program is a list of these (rule R65). -/
inductive HostOp where
  /-- `W off, val`: a slave write of `size` bytes at `addr` (rules R43, R65). -/
  | write (addr : BitVec 18) (size : Nat) (val : Word)
  /-- `R off`: a slave read of `size` bytes at `addr` (rules R43, R65). -/
  | read (addr : BitVec 18) (size : Nat)
  /-- `WAIT`: read STATUS until BUSY = 0 (rule R65). -/
  | wait
  /-- The platform's block reset (rules R139, R140). -/
  | reset
  /-- An agent outside the block stores a byte to sample memory (rule R49). -/
  | memStore (addr : Word) (val : Byte)
  /-- An agent outside the block loads a byte of sample memory (rule R49). -/
  | memLoad (addr : Word)
  /-- The platform misses its coherence duty for a sample buffer (rule R49). -/
  | coherenceMissed
  deriving DecidableEq, Repr

/-- Sample memory (rules R33, R40): address and byte, in one canonical form (`Memory.wf`, Machine/Ops.lean). -/
abbrev Memory : Type := List Host.Cell

/-- The state of the block and its surroundings. -/
structure State where
  /-- PARAM0 and PARAM1 (rule R20). No step changes it. -/
  params    : Params
  /-- CMD (rule R17); while BUSY = 1, the command in flight (rule R53). -/
  cmd       : Word
  /-- STATUS.ERR (rule R18). -/
  err       : ErrCode
  /-- STATUS.BUSY and the command in flight (rules R18, R32). -/
  phase     : Phase
  /-- ARG0 (rule R15). -/
  arg0      : Word
  /-- ARG1 (rule R15). -/
  arg1      : Word
  /-- ARG2 (rule R15). -/
  arg2      : Word
  /-- ARG3 (rule R15). -/
  arg3      : Word
  /-- RES0 (rule R16). -/
  res0      : Word
  /-- RES1 (rule R16). -/
  res1      : Word
  /-- CURSOR.SLOT (rule R19). -/
  cursor    : Half
  /-- FS[0] to FS[NCH_MAX−1] (rule R22). -/
  fs        : List FilterState
  /-- CRAM (rule R27). -/
  cram      : List Half
  /-- DLRAM (rule R28). -/
  dlram     : List Word
  /-- Sample memory (rule R33). -/
  mem       : Memory
  /-- MODEL'S OWN: the host's accesses still to come, oldest first (rule R65, log 4). -/
  script    : List HostOp
  /-- MODEL'S OWN: for each command still to be started, the host accesses it stays BUSY (rule R7, log 5). -/
  latency   : List Nat
  /-- MODEL'S OWN: base and length of the sample-memory ranges whose accesses fail (rule R113 P8, log 7). -/
  badRanges : List (Nat × Nat)
  /-- MODEL'S OWN: the last word a host load returned (rule R46, log 8). -/
  rdata     : Word
  /-- MODEL'S OWN: how many free values have been drawn (log 2). -/
  draws     : Nat
  deriving DecidableEq, Repr

/-- `n` free values, drawn from number `k` on. -/
def drawList {α : Type} (draw : Nat → α) : Nat → Nat → List α
  | 0, _ => []
  | n + 1, k => draw k :: drawList draw n (k + 1)

/-- The block after a reset with parameters p, its RAM contents drawn from number k on (rules R34, R139), with nothing
outside it: no host program, nothing listed in sample memory. -/
def State.afterReset (p : Params) (k : Nat) : State :=
  { params := p
    cmd := 0
    err := .ok
    phase := .idle
    arg0 := 0
    arg1 := 0
    arg2 := 0
    arg3 := 0
    res0 := 0
    res1 := 0
    cursor := 0
    fs := List.replicate p.nchMax .uninit
    cram := drawList Config.freeHalf p.coefRamWords k
    dlram := drawList Config.freeWord p.dlRamSlots (k + p.coefRamWords)
    mem := []
    script := []
    latency := []
    badRanges := []
    rdata := 0
    draws := k + p.coefRamWords + p.dlRamSlots }

/-- The machine right after reset (rule R34), with the parameters of the test configuration (log 1). -/
def State.reset : State := State.afterReset .test 0

end Sys2Proof.Machine
end

