-- ==== Sys2Proof/Machine/Ops.lean ====
section
/-! DEFINITION. The named operations over memory and registers: sample memory (rules R40, R41), the two RAMs (R27, R28),
the FilterState bank (R22), the two ways a command ends (R125), the delay line (R77, R78) and the kernel (R99 to R103). -/

namespace Sys2Proof.Machine

/-! ### Sample memory -/

/-- What a byte that is not listed reads as. DESIGN CHOICE (log 3). -/
def unlistedByte : Byte := 0x00#8

/-- The canonical form: addresses strictly rising, no entry equal to what an unlisted address reads as. -/
abbrev Memory.wf (m : Memory) : Prop :=
  m.Pairwise (fun a b => a.1 < b.1) ∧ ∀ c ∈ m, c.2 ≠ unlistedByte

/-- The byte at an address of sample memory. -/
def memByte : Memory → Nat → Byte
  | [], _ => unlistedByte
  | c :: m, a => if c.1 = a then c.2 else memByte m a

/-- Put a byte in front of a memory whose addresses are all above a, keeping the canonical form. -/
def memCons (a : Nat) (b : Byte) (m : Memory) : Memory :=
  if b = unlistedByte then m else (a, b) :: m

/-- Write one byte of sample memory, keeping the canonical form. -/
def memSet : Memory → Nat → Byte → Memory
  | [], a, b => memCons a b []
  | c :: m, a, b =>
    if a < c.1 then memCons a b (c :: m)
    else if c.1 = a then memCons a b m
    else c :: memSet m a b

/-- `MemRead(a, n)`: n bytes, little-endian (rule R41). -/
def memReadLE (m : Memory) : Nat → Nat → Nat
  | _, 0 => 0
  | a, n + 1 => (memByte m a).toNat + 2 ^ 8 * memReadLE m (a + 1) n

/-- `MemWrite(a, n, p)`: byte i of the pattern p goes to address a + i (rule R41). -/
def memWriteLE (m : Memory) : Nat → Nat → Nat → Memory
  | _, 0, _ => m
  | a, n + 1, p => memWriteLE (memSet m a (BitVec.ofNat 8 p)) (a + 1) n (p / 2 ^ 8)

/-! ### The RAMs and the bank -/

/-- CRAM[i] (rule R27). The block reads only entries inside CRAM (rule R96). -/
def State.coef (s : State) (i : Nat) : Half := s.cram[i]?.getD 0

/-- CRAM[i] <- p (rule R38). -/
def State.setCoef (s : State) (i : Nat) (p : Half) : State := { s with cram := s.cram.set i p }

/-- DLRAM[j] (rule R28). The block reads only slots inside DLRAM (rule R97). -/
def State.slot (s : State) (j : Nat) : Word := s.dlram[j]?.getD 0

/-- DLRAM[j] <- p (rule R28). -/
def State.setSlot (s : State) (j : Nat) (p : Word) : State := { s with dlram := s.dlram.set j p }

/-- FS[c] (rule R22). Commands reach it only for c < NCH_MAX (rules R62, R113 P1). -/
def State.chan (s : State) (c : Nat) : FilterState := s.fs[c]?.getD .uninit

/-- FS[c] <- f. -/
def State.setChan (s : State) (c : Nat) (f : FilterState) : State := { s with fs := s.fs.set c f }

/-- The channel index names a FilterState of the bank (rule R62). -/
def State.hasChannel (s : State) (c : Nat) : Bool := decide (c < s.params.nchMax)

/-! ### How a command ends (rule R125) -/

/-- The command is complete with result code e: STATUS.ERR holds it and BUSY is 0 (rule R18). -/
def endCommand (e : ErrCode) (s : State) : State := { s with err := e, phase := .unseen }

/-- Completion with the code OK. -/
def complete (s : State) : Result State := .next (endCommand .ok s)

/-- `raise Error(code)`: the block's one way of reporting an error (rules R11, R127). It saves nothing, changes no mode and
takes no vector, so there is nothing to return from (rule R128). -/
def raiseError (e : ErrCode) (s : State) : Result State := .next (endCommand e s)

/-- `violate(Name)`: a broken precondition of the caller (rules R11, R130). -/
def violate (v : Fault) : Result State := .fault v

/-- A channel command whose CH is out of range ends with ERR_ILLEGAL before anything else is looked at (rules R62, R129). -/
def onChannel (ch : Nat) (s : State) (body : State → Result State) : Result State :=
  if s.hasChannel ch then body s else raiseError .errIllegal s

/-- A command whose precondition is that its channel is ACTIVE (rules R84, R85, R106, R107). -/
def onActive (ch : Nat) (s : State) (body : State → Result State) : Result State :=
  onChannel ch s fun s => if (s.chan ch).LC = .active then body s else violate .notActive

/-! ### The delay line -/

/-- `DlPush(c, p)` (rule R77): the slot at the cursor, then the cursor. -/
def dlPush (c : Nat) (p : Word) (s : State) : State :=
  let f := s.chan c
  (s.setSlot (f.dlBase.toNat + f.wp.toNat) p).setChan c
    { f with wp := BitVec.ofNat 16 ((f.wp.toNat + 1) % f.L.toNat) }

/-- The DLRAM slot of position k of the tap window (rule R78). -/
def tapSlot (f : FilterState) (k : Nat) : Nat :=
  f.dlBase.toNat + (((f.wp.toNat : Int) - 1 - k) % (f.L.toNat : Int)).toNat

/-- `tap(c, k)` (rule R78). -/
def tap (s : State) (c k : Nat) : Int := sext 32 (s.slot (tapSlot (s.chan c) k))

/-- `coef_c[k]` (rule R29). -/
def coefOf (s : State) (c k : Nat) : Int := sext 16 (s.coef ((s.chan c).coefBase.toNat + k))

/-! ### The kernel -/

/-- `acc(c)`, exact over the integers (rules R99, R100). -/
def accumulate (s : State) (c : Nat) : Int := sumBelow (fun k => coefOf s c k * tap s c k) (s.chan c).T.toNat

/-- The kernel's result from the delay line as it stands (rules R99, R101). -/
def kernelOutput (s : State) (c : Nat) : Int := outputMap (sext 8 (s.chan c).S) (accumulate s c)

/-- `KernelStep(c, x)` (rule R102): push, then the sum. -/
def kernelStep (c : Nat) (x : Int) (s : State) : Int × State :=
  let t := dlPush c (trunc 32 x) s
  (kernelOutput t c, t)

/-- `KernelDual(c, x0, x1)` (rule R103). -/
def kernelDual (c : Nat) (x0 x1 : Int) (s : State) : Int × Int × State :=
  let r0 := kernelStep c x0 s
  let r1 := kernelStep c x1 r0.2
  (r0.1, r1.1, r1.2)

/-- Do `body 0`, then `body 1`, up to `body (n-1)`. -/
def forUp (body : Nat → State → State) : Nat → State → State
  | 0, s => s
  | n + 1, s => body n (forUp body n s)

/-- The half-open ranges `[a, a+m)` and `[b, b+n)` have no number in common (rules R83, R113). -/
def rangesDisjoint (a m b n : Nat) : Bool := decide (m = 0 ∨ n = 0 ∨ a + m ≤ b ∨ b + n ≤ a)

end Sys2Proof.Machine
end

