-- ==== Sys2Proof/Machine/Operands.lean ====
section
/-! DEFINITION. Every operand form: how each command assembles its operands from ARG0 to ARG3 and CURSOR (rule R59), and
how results are placed in RES0 and RES1 (rule R60). -/

namespace Sys2Proof.Machine

/-- FS.CONFIGURE's T = `zext_32(ARG0)`. -/
def opT (s : State) : Nat := zext 32 s.arg0

/-- FS.CONFIGURE's S, the pattern `ARG1[7:0]`; ARG1[31:8] is ignored. -/
def opS (s : State) : BitVec 8 := s.arg1.setWidth 8

/-- FS.CONFIGURE's coefBase = `zext_32(ARG2)`. -/
def opCoefBase (s : State) : Nat := zext 32 s.arg2

/-- FS.BIND's `cur = CURSOR.SLOT` (rule R97). -/
def opCursor (s : State) : Nat := zext 16 s.cursor

/-- DL.PUSH's sample, the pattern ARG0. -/
def opSample (s : State) : Word := s.arg0

/-- DL.TAP's k = `zext_32(ARG0)`. -/
def opTapIndex (s : State) : Nat := zext 32 s.arg0

/-- K.SINGLE's x and K.DUAL's x0 = `sext_32(ARG0)`. -/
def opX0 (s : State) : Int := sext 32 s.arg0

/-- K.DUAL's x1 = `sext_32(ARG1)`. -/
def opX1 (s : State) : Int := sext 32 s.arg1

/-- PROCESS's src = `zext_32(ARG0)`, a byte address. -/
def opSrc (s : State) : Nat := zext 32 s.arg0

/-- PROCESS's dst = `zext_32(ARG1)`, a byte address. -/
def opDst (s : State) : Nat := zext 32 s.arg1

/-- PROCESS's F = `zext_32(ARG2)`. -/
def opFrames (s : State) : Nat := zext 32 s.arg2

/-- PROCESS's N = `zext_32(ARG3)`. -/
def opChannels (s : State) : Nat := zext 32 s.arg3

/-- The FX commands' value = `sext_64({ARG1, ARG0})`. -/
def opValue64 (s : State) : Int := sext 64 (s.arg1 ++ s.arg0)

/-- FX.RSHIFT's from = `zext_6(ARG2[5:0])`. -/
def opFromFrac (s : State) : Nat := zext 6 s.arg2

/-- FX.RSHIFT's to = `zext_6(ARG3[5:0])`. -/
def opToFrac (s : State) : Nat := zext 6 s.arg3

/-- A 32-bit result (rule R60): RES0 only. -/
def setRes0 (r : Word) (s : State) : State := { s with res0 := r }

/-- Two 32-bit results (rule R60): RES0 and RES1. -/
def setResults (r0 r1 : Word) (s : State) : State := { s with res0 := r0, res1 := r1 }

/-- A 64-bit result (rule R60): `RES0 <- r[31:0]`, `RES1 <- r[63:32]`. -/
def setRes64 (r : Int) (s : State) : State :=
  setResults ((trunc 64 r).extractLsb' 0 32) ((trunc 64 r).extractLsb' 32 32) s

end Sys2Proof.Machine
end

