-- ==== Sys2Proof/Machine/Dl.lean ====
section
/-! DEFINITION. The DL family: the delay line at the slave port (41_delay_line.md). -/

namespace Sys2Proof.Machine

/-- DL.PUSH (rule R84). -/
def execDlPush (ch : Nat) (s : State) : Result State :=
  onActive ch s fun s => complete (dlPush ch (opSample s) s)

/-- DL.TAP (rule R85). -/
def execDlTap (ch : Nat) (s : State) : Result State :=
  onActive ch s fun s =>
    if (s.chan ch).T.toNat ≤ opTapIndex s then violate .tapIndex
    else complete (setRes0 (trunc 32 (tap s ch (opTapIndex s))) s)

end Sys2Proof.Machine
end

