-- ==== Sys2Proof/Machine/Fs.lean ====
section
/-! DEFINITION. The FS family: the FilterState lifecycle (42_filter_state.md). -/

namespace Sys2Proof.Machine

/-- `ValidT(T)` (rule R89). -/
def validT (p : Params) (T : Nat) : Bool := decide (4 ≤ T ∧ T ≤ p.maxLength ∧ T % 4 = 0)

/-- FS.RESET (rule R95). -/
def execFsReset (ch : Nat) (s : State) : Result State :=
  onChannel ch s fun s => complete (s.setChan ch .uninit)

/-- The FilterState FS.CONFIGURE leaves on success (rule R96). -/
def configuredChan (f : FilterState) (T base : Nat) (S : BitVec 8) : FilterState :=
  { f with LC := .configured, T := BitVec.ofNat 16 T, L := BitVec.ofNat 16 (T + 2), S := S, coefBase := BitVec.ofNat 16 base }

/-- FS.CONFIGURE (rule R96), with the priority of rule R129. -/
def execFsConfigure (ch : Nat) (s : State) : Result State :=
  onChannel ch s fun s =>
    if (s.chan ch).LC ≠ .uninit then raiseError .errState s
    else if validT s.params (opT s) = false then raiseError .invalidConfig s
    else if s.params.coefRamWords < opCoefBase s + opT s then raiseError .errRange s
    else
      complete (setRes0 (BitVec.ofNat 32 ((opT s + 2) * Config.slotBytes))
        (s.setChan ch (configuredChan (s.chan ch) (opT s) (opCoefBase s) (opS s))))

/-- FS.BIND (rule R97), with the priority of rule R129. -/
def execFsBind (ch : Nat) (s : State) : Result State :=
  onChannel ch s fun s =>
    let f := s.chan ch
    if f.LC ≠ .configured then raiseError .errState s
    else if s.params.dlRamSlots < opCursor s + f.L.toNat then raiseError .errRange s
    else
      complete { s.setChan ch { f with dlBase := BitVec.ofNat 16 (opCursor s), wp := 0, LC := .active } with
        cursor := BitVec.ofNat 16 (opCursor s + f.L.toNat) }

/-- FS.SHIFTPLAN (rule R98): RES0[7:0] = ls, RES0[15:8] = rs. -/
def execFsShiftplan (ch : Nat) (s : State) : Result State :=
  onChannel ch s fun s =>
    let plan := shiftPlan (sext 8 (s.chan ch).S)
    complete (setRes0 ((BitVec.ofNat 32 plan.2 <<< 8) ||| BitVec.ofNat 32 plan.1) s)

end Sys2Proof.Machine
end

