-- ==== Sys2Proof/Machine/Fx.lean ====
section
/-! DEFINITION. The FX family: rounding and saturation at the slave port (40_fixed_point.md). -/

namespace Sys2Proof.Machine

/-- FX.RSHIFT (rule R72). A widening result wraps modulo 2^64 in RES1:RES0. -/
def execFxRshift (s : State) : Result State :=
  complete (setRes64 (roundedShift (opValue64 s) (opFromFrac s) (opToFrac s)) s)

/-- FX.SAT16 (rule R73). -/
def execFxSat16 (s : State) : Result State := complete (setRes64 (sat 16 (opValue64 s)) s)

/-- FX.SAT24 (rule R74). -/
def execFxSat24 (s : State) : Result State := complete (setRes64 (sat 24 (opValue64 s)) s)

/-- FX.SAT32 (rule R75). -/
def execFxSat32 (s : State) : Result State := complete (setRes64 (sat 32 (opValue64 s)) s)

end Sys2Proof.Machine
end

