-- ==== Sys2Proof/Machine/K.lean ====
section
/-! DEFINITION. The K family: the convolution kernel at the slave port (43_convolution.md). -/

namespace Sys2Proof.Machine

/-- K.SINGLE (rule R106). -/
def execKSingle (ch : Nat) (s : State) : Result State :=
  onActive ch s fun s =>
    let r := kernelStep ch (opX0 s) s
    complete (setRes0 (trunc 32 r.1) r.2)

/-- K.DUAL (rule R107): x0 is the earlier sample. -/
def execKDual (ch : Nat) (s : State) : Result State :=
  onActive ch s fun s =>
    let r := kernelDual ch (opX0 s) (opX1 s) s
    complete (setResults (trunc 32 r.1) (trunc 32 r.2.1) r.2.2)

end Sys2Proof.Machine
end

