-- ==== Sys2Proof/Machine/Process.lean ====
section
/-! DEFINITION. The PROCESS family: the channel bank over an interleaved sample buffer (44_channel_bank.md). -/

namespace Sys2Proof.Machine

/-- `base + ES·(f·N + c)`: the byte address of the element of frame f, channel c (rule R111). -/
def elemAddr (fmt : Format) (base N f c : Nat) : Nat := base + elemSize fmt * (f * N + c)

/-- `F·N·ES`: the bytes of a buffer (rule R44). -/
def bufferBytes (fmt : Format) (s : State) : Nat := opFrames s * opChannels s * elemSize fmt

/-! ### The caller preconditions of rule R113 -/

/-- P2: every channel of the buffer is ACTIVE. -/
def allActive (s : State) (N : Nat) : Bool := (List.range N).all fun c => decide ((s.chan c).LC = .active)

/-- P7: the DLRAM regions of channels 0 to N−1 are pairwise disjoint (rule R83). -/
def regionsDisjoint (s : State) (N : Nat) : Bool :=
  (List.range N).all fun c => (List.range c).all fun d =>
    rangesDisjoint (s.chan c).dlBase.toNat (s.chan c).L.toNat (s.chan d).dlBase.toNat (s.chan d).L.toNat

/-- P8: no access to `[a, a+n)` fails on the bus (log 7). -/
def busAnswers (s : State) (a n : Nat) : Bool := s.badRanges.all fun r => rangesDisjoint a n r.1 r.2

/-- The first broken precondition of rule R113 in the order of its table (log 9), or none. -/
def processViolation (fmt : Format) (mode : Mode) (s : State) : Option Fault :=
  let F := opFrames s
  let N := opChannels s
  let src := opSrc s
  let dst := opDst s
  let n := bufferBytes fmt s
  if s.params.nchMax < N then some .channelCount
  else if allActive s N = false then some .notActive
  else if mode = .even ∧ F % 2 ≠ 0 then some .oddFrames
  else if src % elemSize fmt ≠ 0 ∨ dst % elemSize fmt ≠ 0 then some .misaligned
  else if 2 ^ Config.sysAddrWidth < src + n ∨ 2 ^ Config.sysAddrWidth < dst + n then some .addressWrap
  else if src ≠ dst ∧ rangesDisjoint src n dst n = false then some .bufferOverlap
  else if regionsDisjoint s N = false then some .sharedDelayLine
  else if (busAnswers s src n && busAnswers s dst n) = false then some .busError
  else none

/-! ### The walk over the buffer -/

/-- The kernel input of the source element of frame f, channel c (rules R109, R112). -/
def readElem (fmt : Format) (src N f c : Nat) (s : State) : Int :=
  preTransform fmt (memReadLE s.mem (elemAddr fmt src N f c) (elemSize fmt))

/-- Store the kernel result y as the destination element of frame f, channel c (rules R110, R112). -/
def writeElem (fmt : Format) (dst N f c : Nat) (y : Int) (s : State) : State :=
  { s with mem := memWriteLE s.mem (elemAddr fmt dst N f c) (elemSize fmt) (postPattern fmt y) }

/-- One element in the single-sample form (rule R112). -/
def processOne (fmt : Format) (src dst N c f : Nat) (s : State) : State :=
  let r := kernelStep c (readElem fmt src N f c s) s
  writeElem fmt dst N f c r.1 r.2

/-- Two consecutive frames in the dual-sample form (rules R112, R116): frames 2p and 2p+1. -/
def processTwo (fmt : Format) (src dst N c p : Nat) (s : State) : State :=
  let r := kernelDual c (readElem fmt src N (2 * p) c s) (readElem fmt src N (2 * p + 1) c s) s
  writeElem fmt dst N (2 * p + 1) c r.2.1 (writeElem fmt dst N (2 * p) c r.1 r.2.2)

/-- All F frames of one channel, in increasing order, in the form of the mode (rules R112, R116). -/
def processChannel (fmt : Format) (mode : Mode) (src dst F N c : Nat) (s : State) : State :=
  match mode with
  | .any => forUp (processOne fmt src dst N c) F s
  | .even => forUp (processTwo fmt src dst N c) (F / 2) s

/-- All N channels, one after another (rule R112). The order is free (rule R115); the model takes this one (log 11). -/
def processBank (fmt : Format) (mode : Mode) (src dst F N : Nat) (s : State) : State :=
  forUp (processChannel fmt mode src dst F N) N s

/-- `ProcessCore` and the result code (rules R112, R114, R118). -/
def processCore (fmt : Format) (mode : Mode) (s : State) : Result State :=
  if opFrames s = 0 ∨ opChannels s = 0 then complete s
  else
    match processViolation fmt mode s with
    | some v => violate v
    | none => complete (processBank fmt mode (opSrc s) (opDst s) (opFrames s) (opChannels s) s)

/-! ### The commands -/

/-- PROCESS.S16.ANY (rule R119). -/
def execProcessS16Any (s : State) : Result State := processCore .s16 .any s

/-- PROCESS.S16.EVEN (rule R120). -/
def execProcessS16Even (s : State) : Result State := processCore .s16 .even s

/-- PROCESS.S24.ANY (rule R121). -/
def execProcessS24Any (s : State) : Result State := processCore .s24 .any s

/-- PROCESS.S24.EVEN (rule R122). -/
def execProcessS24Even (s : State) : Result State := processCore .s24 .even s

/-- PROCESS.S32.ANY (rule R123). -/
def execProcessS32Any (s : State) : Result State := processCore .s32 .any s

/-- PROCESS.S32.EVEN (rule R124). -/
def execProcessS32Even (s : State) : Result State := processCore .s32 .even s

end Sys2Proof.Machine
end

