-- ==== Sys2Proof/Machine/Dispatch.lean ====
section
/-! DEFINITION. The command a decoded word runs: one arm per row of the opcode map (rule R57). -/

namespace Sys2Proof.Machine

/-- Run one command on the state in which it was started, to its completion (rules R7, R49). -/
def exec (i : Instr) (s : State) : Host.Outcome State Fault Refusal :=
  match i with
  | .fsReset ch => Sys2Proof.Machine.execFsReset ch s
  | .fsConfigure ch => Sys2Proof.Machine.execFsConfigure ch s
  | .fsBind ch => Sys2Proof.Machine.execFsBind ch s
  | .fsShiftplan ch => Sys2Proof.Machine.execFsShiftplan ch s
  | .dlPush ch => Sys2Proof.Machine.execDlPush ch s
  | .dlTap ch => Sys2Proof.Machine.execDlTap ch s
  | .kSingle ch => Sys2Proof.Machine.execKSingle ch s
  | .kDual ch => Sys2Proof.Machine.execKDual ch s
  | .processS16Any => Sys2Proof.Machine.execProcessS16Any s
  | .processS16Even => Sys2Proof.Machine.execProcessS16Even s
  | .processS24Any => Sys2Proof.Machine.execProcessS24Any s
  | .processS24Even => Sys2Proof.Machine.execProcessS24Even s
  | .processS32Any => Sys2Proof.Machine.execProcessS32Any s
  | .processS32Even => Sys2Proof.Machine.execProcessS32Even s
  | .fxRshift => Sys2Proof.Machine.execFxRshift s
  | .fxSat16 => Sys2Proof.Machine.execFxSat16 s
  | .fxSat24 => Sys2Proof.Machine.execFxSat24 s
  | .fxSat32 => Sys2Proof.Machine.execFxSat32 s

end Sys2Proof.Machine
end

