-- ==== Sys2Proof/Machine/Flags.lean ====
section
/-! DEFINITION. The block's only flags: STATUS.BUSY and STATUS.ERR (rules R18, R31, R126), and the code of LC (R22). -/

namespace Sys2Proof.Machine

/-- The number of a result code (rule R126). -/
def ErrCode.code : ErrCode → Nat
  | .ok => 0
  | .invalidConfig => 1
  | .errState => 2
  | .errRange => 3
  | .errIllegal => 4

/-- The number of a lifecycle state (rule R22). -/
def Lifecycle.code : Lifecycle → Nat
  | .uninit => 0
  | .configured => 1
  | .active => 2

/-- STATUS.BUSY (rule R18). -/
def State.busy (s : State) : Bool :=
  match s.phase with
  | .running _ => true
  | .idle => false
  | .unseen => false

/-- The word STATUS reads as (rule R18): BUSY in bit 0, ERR in bits [11:8], every other bit 0. -/
def statusWord (s : State) : Word := BitVec.ofNat 32 (s.err.code * 2 ^ 8 + s.busy.toNat)

end Sys2Proof.Machine
end

