-- ==== Sys2Proof/Machine/SlavePort.lean ====
section
/-! DEFINITION. The slave register space: its map (rules R36, R63, R64), and what reading and writing each place does when
no command is in flight (rules R15 to R20, R23, R37 to R39, R46, R93). -/

namespace Sys2Proof.Machine

/-- What an aligned slave address names (rules R36, R63, R64). -/
inductive SlavePlace where
  | cmd
  | status
  | arg0
  | arg1
  | arg2
  | arg3
  | res0
  | res1
  | cursor
  | param0
  | param1
  /-- The word at byte `off` of the channel window of FilterState `c` (rule R64). -/
  | channel (c off : Nat)
  /-- CRAM[i] (rule R38). -/
  | cram (i : Nat)
  /-- DLRAM[j] (rule R39). -/
  | dlram (j : Nat)
  /-- No register, channel window or RAM entry (rule R37). -/
  | nothing
  deriving DecidableEq, Repr

/-- A control register by its offset (rule R63). -/
def controlPlace (a : Nat) : SlavePlace :=
  if a = 0x000 then .cmd
  else if a = 0x004 then .status
  else if a = 0x008 then .arg0
  else if a = 0x00C then .arg1
  else if a = 0x010 then .arg2
  else if a = 0x014 then .arg3
  else if a = 0x018 then .res0
  else if a = 0x01C then .res1
  else if a = 0x020 then .cursor
  else if a = 0x024 then .param0
  else if a = 0x028 then .param1
  else .nothing

/-- The place a slave byte address names (rules R36 to R39, R63, R64). -/
def slavePlace (p : Params) (a : Nat) : SlavePlace :=
  if a < 0x100 then controlPlace a
  else if a < 0x10000 then
    if a < 0x100 + 0x20 * p.nchMax then .channel ((a - 0x100) / 0x20) ((a - 0x100) % 0x20) else .nothing
  else if a < 0x20000 then
    if (a - 0x10000) / 4 < p.coefRamWords then .cram ((a - 0x10000) / 4) else .nothing
  else if a < 0x30000 then
    if (a - 0x20000) / 4 < p.dlRamSlots then .dlram ((a - 0x20000) / 4) else .nothing
  else .nothing

/-- PARAM0 (rule R20): bits [15:0] MAX_LENGTH, bits [31:16] NCH_MAX. -/
def param0Word (p : Params) : Word := BitVec.ofNat 16 p.nchMax ++ BitVec.ofNat 16 p.maxLength

/-- PARAM1 (rule R20): bits [15:0] COEF_RAM_WORDS, bits [31:16] DL_RAM_SLOTS. -/
def param1Word (p : Params) : Word := BitVec.ofNat 16 p.dlRamSlots ++ BitVec.ofNat 16 p.coefRamWords

/-- The word at byte `off` of a channel window (rule R64). -/
def channelWord (f : FilterState) (off : Nat) : Word :=
  if off = 0x00 then BitVec.ofNat 32 f.LC.code
  else if off = 0x04 then f.L ++ f.T
  else if off = 0x08 then trunc 32 (sext 8 f.S)
  else if off = 0x0C then f.coefBase.setWidth 32
  else if off = 0x10 then f.dlBase.setWidth 32
  else if off = 0x14 then f.wp.setWidth 32
  else 0

/-- What a slave read returns (rules R15 to R20, R37 to R39, R64). It changes nothing (rule R46). -/
def slaveRead (s : State) : SlavePlace → Word
  | .cmd => s.cmd
  | .status => statusWord s
  | .arg0 => s.arg0
  | .arg1 => s.arg1
  | .arg2 => s.arg2
  | .arg3 => s.arg3
  | .res0 => s.res0
  | .res1 => s.res1
  | .cursor => s.cursor.setWidth 32
  | .param0 => param0Word s.params
  | .param1 => param1Word s.params
  | .channel c off => channelWord (s.chan c) off
  | .cram i => trunc 32 (sext 16 (s.coef i))
  | .dlram j => s.slot j
  | .nothing => 0

/-- Entry i of CRAM belongs to the CoefficientSet of a CONFIGURED or ACTIVE channel (rule R93). -/
def coefReferenced (s : State) (i : Nat) : Bool :=
  (List.range s.params.nchMax).any fun c =>
    let f := s.chan c
    decide (f.LC ≠ .uninit ∧ f.coefBase.toNat ≤ i ∧ i < f.coefBase.toNat + f.T.toNat)

/-- The write of CMD (rules R17, R18, R53): the word is stored, ERR is 0, and the command is in flight (log 5). -/
def startCommand (w : Word) (s : State) : State :=
  { s with cmd := w, err := .ok, phase := .running (s.latency.headD 0), latency := s.latency.tail }

/-- What a slave write does when no command is in flight (rules R15 to R20, R23, R37 to R39, R93). -/
def slaveWrite (w : Word) (s : State) : SlavePlace → Result State
  | .cmd => .next (startCommand w s)
  | .status => .next s
  | .arg0 => .next { s with arg0 := w }
  | .arg1 => .next { s with arg1 := w }
  | .arg2 => .next { s with arg2 := w }
  | .arg3 => .next { s with arg3 := w }
  | .res0 => .next s
  | .res1 => .next s
  | .cursor => .next { s with cursor := w.setWidth 16 }
  | .param0 => .next s
  | .param1 => .next s
  | .channel _ _ => .next s
  | .cram i => if coefReferenced s i then violate .coefMutated else .next (s.setCoef i (w.setWidth 16))
  | .dlram j => .next (s.setSlot j w)
  | .nothing => .next s

/-- A slave access the port accepts: 4 bytes at a multiple of 4 (rule R43). -/
def slaveAligned (addr : BitVec 18) (size : Nat) : Bool := decide (addr.toNat % 4 = 0 ∧ size = 4)

end Sys2Proof.Machine
end

