-- ==== Sys2Proof/Machine/HostPort.lean ====
section
/-! DEFINITION. The command in flight and the accesses from outside the block: completion (rules R7, R49, R61), the BUSY
rule (R145), the agents of sample memory (R49) and block reset (R139, R140). -/

namespace Sys2Proof.Machine

/-- Complete the command in flight: the decoded command runs, an illegal word ends with ERR_ILLEGAL (rules R58, R61). -/
def runCommand (s : State) : Result State :=
  match decode s.cmd with
  | .ok i => exec i s
  | .error _ => raiseError .errIllegal s

/-- One host access fewer until the command in flight completes (log 5); the access that starts a command does not count. -/
def countDown (s : State) : State :=
  match s.phase with
  | .running (n + 1) => { s with phase := .running n }
  | .running 0 => s
  | .idle => s
  | .unseen => s

/-- The host has read BUSY = 0 (rule R145). -/
def seen (s : State) : State :=
  match s.phase with
  | .unseen => { s with phase := .idle }
  | .running _ => s
  | .idle => s

/-- A slave read returns w. -/
def returnWord (w : Word) (s : State) : State := { s with rdata := w }

/-- A slave read returns an unspecified value (rule R145): a free value (log 2). -/
def returnFree (s : State) : State := { s with rdata := Config.freeWord s.draws, draws := s.draws + 1 }

/-- A read of STATUS (rules R18, R145): it is defined in every phase, and one that returns BUSY = 0 ends the interval. -/
def readStatus (s : State) : State := seen (returnWord (statusWord s) s)

/-- The host may use a place of the slave space as rules R15 to R39 say: every place of an idle block, and, once the command is
complete, an address that names nothing (rule R37), because rule R145 keeps only registers and windows closed until BUSY = 0
has been read (DEDUCED, log 19). While BUSY = 1 nothing is open but STATUS: rule R130 for writes; for reads of an address that
names nothing, DESIGN CHOICE (log 19). -/
def portOpen (s : State) (place : SlavePlace) : Bool :=
  match s.phase with
  | .idle => true
  | .unseen => decide (place = .nothing)
  | .running _ => false

/-- A slave read of 4 bytes at a multiple of 4 (rules R37, R46, R145). -/
def hostRead (addr : BitVec 18) (s : State) : State :=
  let place := slavePlace s.params addr.toNat
  if place = .status then readStatus s
  else if portOpen s place then returnWord (slaveRead s place) s
  else returnFree s

/-- A slave write of 4 bytes at a multiple of 4 (rules R17, R37, R145). DESIGN CHOICE (log 18): a write to a closed place
is named HostHazard, also where it goes to a CoefficientSet in use and so breaks rule R93 (CoefMutated) as well. -/
def hostWrite (addr : BitVec 18) (w : Word) (s : State) : Result State :=
  let place := slavePlace s.params addr.toNat
  if portOpen s place then slaveWrite w s place else violate .hostHazard

/-- The destination of the PROCESS in flight: its address and its length in bytes (rule R140); nothing for another word. -/
def destInFlight (s : State) : Nat × Nat :=
  match decode s.cmd with
  | .ok i =>
    match i.process with
    | some (fmt, _) => (opDst s, bufferBytes fmt s)
    | none => (0, 0)
  | .error _ => (0, 0)

/-- The source of the PROCESS in flight: its address and its length in bytes (rule R49). -/
def srcInFlight (s : State) : Nat × Nat :=
  match decode s.cmd with
  | .ok i =>
    match i.process with
    | some (fmt, _) => (opSrc s, bufferBytes fmt s)
    | none => (0, 0)
  | .error _ => (0, 0)

/-- BUSY = 1 and address a lies in a buffer of the command in flight (rules R49, R147 (e)). -/
def inBufferInFlight (s : State) (a : Nat) : Bool :=
  s.busy && (!rangesDisjoint a 1 (srcInFlight s).1 (srcInFlight s).2 || !rangesDisjoint a 1 (destInFlight s).1 (destInFlight s).2)

/-- Block reset (rules R34, R139): every piece of the block's state takes its reset value, the RAM contents are drawn.
What lies outside the block stays. -/
def blockReset (s : State) : State :=
  { State.afterReset s.params s.draws with
    mem := s.mem, script := s.script, latency := s.latency, badRanges := s.badRanges, rdata := s.rdata }

/-- n free bytes, drawn from number k on, at address a (rule R140). -/
def drawBytes (a k : Nat) (n : Nat) (m : Memory) : Memory :=
  match n with
  | 0 => m
  | n + 1 => memSet (drawBytes a k n m) (a + n) (Config.freeByte (k + n))

/-- Block reset while BUSY = 1 (rule R140): the command is abandoned, and the destination elements it could write hold
free values (every DLRAM slot does after any reset). A command in flight that breaks a precondition is still that
violation (rule R130, log 10). -/
def resetInFlight (s : State) : Result State :=
  match runCommand s with
  | .fault v => violate v
  | .refused r => .refused r
  | .next _ =>
    let t := blockReset s
    let dest := destInFlight s
    .next { t with mem := drawBytes dest.1 t.draws dest.2 t.mem, draws := t.draws + dest.2 }

/-- Perform one access from outside the block, on the state from whose script it has been taken. A misplaced slave access is
named SlaveAccess before anything else is looked at: DESIGN CHOICE (log 14). -/
def performOp (op : HostOp) (s : State) : Result State :=
  match op with
  | .write addr size w => if slaveAligned addr size then hostWrite addr w s else violate .slaveAccess
  | .read addr size => if slaveAligned addr size then .next (hostRead addr s) else violate .slaveAccess
  | .wait => .next (if s.busy then { readStatus s with script := .wait :: s.script } else readStatus s)
  | .reset => if s.busy then resetInFlight s else .next (blockReset s)
  | .memStore addr b =>
    if inBufferInFlight s addr.toNat then violate .hostHazard else .next { s with mem := memSet s.mem addr.toNat b }
  | .memLoad addr =>
    if inBufferInFlight s addr.toNat then violate .hostHazard
    else .next (returnWord ((memByte s.mem addr.toNat).setWidth 32) s)
  | .coherenceMissed => violate .hostHazard

/-- An access that was performed while BUSY = 1 brings the completion one access nearer. -/
def endTurn (wasBusy : Bool) (r : Result State) : Result State :=
  match r with
  | .next t => .next (if wasBusy then countDown t else t)
  | .fault v => .fault v
  | .refused r => .refused r

/-- The next access of the host program, if there is one. While BUSY = 1 it brings the completion one access nearer; with no
access left the block stays as it is (rules R138, R149). -/
def hostTurn (s : State) : Result State :=
  match s.script with
  | [] => .next (countDown s)
  | op :: rest => endTurn s.busy (performOp op { s with script := rest })

/-- One step: a command in flight whose time has come completes; otherwise the host has its turn. -/
def stepBlock (s : State) : Result State :=
  if s.phase = .running 0 then runCommand s else hostTurn s

/-- The state in which the word w has just been written to CMD and completes at the next step. -/
def withCommand (w : Word) (s : State) : State := { s with cmd := w, err := .ok, phase := .running 0 }

end Sys2Proof.Machine
end

