-- ==== Sys2Proof/Machine/Step.lean ====
section
/-! DEFINITION. One step of the machine, and the state in which a given command is the next to run. -/

namespace Sys2Proof.Machine

/-- One step (rules R7, R21, R49, R138): see `stepBlock`. -/
def step (s : State) : Host.Outcome State Fault Refusal := stepBlock s

/-- s with the given command word in CMD, in flight and completing at the very next step (log 12). -/
def State.withFetchWord (s : State) (nbits w : Nat) : State := withCommand (tableWord nbits w) s

end Sys2Proof.Machine
end

