-- ==== Sys2Proof/Safety.lean ====
section
/-! DEFINITION. What a good state is (the invariants of rule R24, with those of rules R8, R18, R22, R27, R28, R40), and what
a safe run is (rule R130). -/

namespace Sys2Proof.Machine

/-- What rule R24 asks of T, L and coefBase in CONFIGURED and ACTIVE. -/
abbrev FilterState.Sized (p : Params) (f : FilterState) : Prop :=
  4 ≤ f.T.toNat ∧ f.T.toNat ≤ p.maxLength ∧ f.T.toNat % 4 = 0 ∧ f.L.toNat = f.T.toNat + 2 ∧
  f.coefBase.toNat + f.T.toNat ≤ p.coefRamWords

/-- Rule R24 for one FilterState. -/
abbrev FilterState.Inv (p : Params) (f : FilterState) : Prop :=
  (f.LC = .uninit → f = .uninit) ∧
  (f.LC = .configured → f.Sized p ∧ f.dlBase = 0 ∧ f.wp = 0) ∧
  (f.LC = .active → f.Sized p ∧ f.dlBase.toNat + f.L.toNat ≤ p.dlRamSlots ∧ f.wp.toNat < f.L.toNat)

/-- The invariant of the machine. -/
structure State.Inv (s : State) : Prop where
  /-- Rule R8. -/
  params : s.params.Valid
  /-- Rule R22: NCH_MAX register sets. -/
  bank : s.fs.length = s.params.nchMax
  /-- Rule R24. -/
  channels : ∀ f ∈ s.fs, f.Inv s.params
  /-- Rule R27: COEF_RAM_WORDS entries. -/
  cram : s.cram.length = s.params.coefRamWords
  /-- Rule R28: DL_RAM_SLOTS slots. -/
  dlram : s.dlram.length = s.params.dlRamSlots
  /-- Sample memory is in canonical form. -/
  mem : Memory.wf s.mem
  /-- Rule R40: no byte lies outside the address space. -/
  space : ∀ c ∈ s.mem, c.1 < 2 ^ Config.sysAddrWidth
  /-- Rule R18: while BUSY = 1, ERR reads 0. -/
  status : s.busy = true → s.err = .ok

/-- An aligned slave address names no register, channel window or RAM entry (rules R36 to R39, R63, R64). -/
abbrev NamesNothing (p : Params) (a : Nat) : Prop :=
  (0x2C ≤ a ∧ a < 0x100) ∨ (0x100 + 0x20 * p.nchMax ≤ a ∧ a < 0x10000) ∨
  (0x10000 + 4 * p.coefRamWords ≤ a ∧ a < 0x20000) ∨ (0x20000 + 4 * p.dlRamSlots ≤ a ∧ a < 0x30000) ∨ 0x30000 ≤ a

/-- No contract violation at the next step (rule R130). -/
def Safe (s : State) : Prop := ∀ v, step s ≠ .fault v

/-- The registers and FilterStates hold the values of rule R34's table. The RAM contents are unspecified there. -/
structure State.AtReset (s : State) : Prop where
  cmd : s.cmd = 0
  args : s.arg0 = 0 ∧ s.arg1 = 0 ∧ s.arg2 = 0 ∧ s.arg3 = 0
  results : s.res0 = 0 ∧ s.res1 = 0
  status : statusWord s = 0
  cursor : s.cursor = 0
  channels : ∀ c, c < s.params.nchMax → s.chan c = .uninit
  noCommand : s.phase = .idle

/-- The caller preconditions P1 to P8 of rule R113, for the buffers ARG0 to ARG3 give (rule R59). -/
structure ProcessReady (fmt : Format) (mode : Mode) (s : State) : Prop where
  p1 : s.arg3.toNat ≤ s.params.nchMax
  p2 : ∀ c, c < s.arg3.toNat → (s.chan c).LC = .active
  p3 : mode = .even → s.arg2.toNat % 2 = 0
  p4 : s.arg0.toNat % elemSize fmt = 0 ∧ s.arg1.toNat % elemSize fmt = 0
  p5 : s.arg0.toNat + s.arg2.toNat * s.arg3.toNat * elemSize fmt ≤ 2 ^ 32 ∧
    s.arg1.toNat + s.arg2.toNat * s.arg3.toNat * elemSize fmt ≤ 2 ^ 32
  p6 : s.arg0 = s.arg1 ∨ s.arg0.toNat + s.arg2.toNat * s.arg3.toNat * elemSize fmt ≤ s.arg1.toNat ∨
    s.arg1.toNat + s.arg2.toNat * s.arg3.toNat * elemSize fmt ≤ s.arg0.toNat
  p7 : ∀ c d j, c < s.arg3.toNat → d < c →
    (s.chan c).dlBase.toNat ≤ j → j < (s.chan c).dlBase.toNat + (s.chan c).L.toNat →
    ¬((s.chan d).dlBase.toNat ≤ j ∧ j < (s.chan d).dlBase.toNat + (s.chan d).L.toNat)
  p8 : ∀ r ∈ s.badRanges, ∀ a, r.1 ≤ a → a < r.1 + r.2 →
    ¬(s.arg0.toNat ≤ a ∧ a < s.arg0.toNat + s.arg2.toNat * s.arg3.toNat * elemSize fmt) ∧
    ¬(s.arg1.toNat ≤ a ∧ a < s.arg1.toNat + s.arg2.toNat * s.arg3.toNat * elemSize fmt)

/-- The precondition of rule R113 that a violation names is broken. -/
def ProcessBroken (fmt : Format) (mode : Mode) (s : State) : Fault → Prop
  | .channelCount => s.params.nchMax < s.arg3.toNat
  | .notActive => ∃ c, c < s.arg3.toNat ∧ (s.chan c).LC ≠ .active
  | .oddFrames => mode = .even ∧ s.arg2.toNat % 2 = 1
  | .misaligned => s.arg0.toNat % elemSize fmt ≠ 0 ∨ s.arg1.toNat % elemSize fmt ≠ 0
  | .addressWrap => 2 ^ 32 < s.arg0.toNat + s.arg2.toNat * s.arg3.toNat * elemSize fmt ∨
      2 ^ 32 < s.arg1.toNat + s.arg2.toNat * s.arg3.toNat * elemSize fmt
  | .bufferOverlap => s.arg0 ≠ s.arg1 ∧
      ∃ a, (s.arg0.toNat ≤ a ∧ a < s.arg0.toNat + s.arg2.toNat * s.arg3.toNat * elemSize fmt) ∧
        (s.arg1.toNat ≤ a ∧ a < s.arg1.toNat + s.arg2.toNat * s.arg3.toNat * elemSize fmt)
  | .sharedDelayLine => ∃ c d j, c < s.arg3.toNat ∧ d < c ∧
      ((s.chan c).dlBase.toNat ≤ j ∧ j < (s.chan c).dlBase.toNat + (s.chan c).L.toNat) ∧
      ((s.chan d).dlBase.toNat ≤ j ∧ j < (s.chan d).dlBase.toNat + (s.chan d).L.toNat)
  | .busError => ∃ r ∈ s.badRanges, ∃ a, (r.1 ≤ a ∧ a < r.1 + r.2) ∧
      ((s.arg0.toNat ≤ a ∧ a < s.arg0.toNat + s.arg2.toNat * s.arg3.toNat * elemSize fmt) ∨
        (s.arg1.toNat ≤ a ∧ a < s.arg1.toNat + s.arg2.toNat * s.arg3.toNat * elemSize fmt))
  | .slaveAccess => False
  | .hostHazard => False
  | .tapIndex => False
  | .coefMutated => False

/-- The kernel input of the source element of frame f, channel c, read from the state in which the command starts
(rules R109, R111). -/
def sourceSample (fmt : Format) (s : State) (f c : Nat) : Int :=
  preTransform fmt (memReadLE s.mem (s.arg0.toNat + elemSize fmt * (f * s.arg3.toNat + c)) (elemSize fmt))

/-- The sample k places before frame f of channel c: a source element, or history from before the command (rule R78). -/
def pastSample (fmt : Format) (s : State) (c f k : Nat) : Int :=
  if k ≤ f then sourceSample fmt s (f - k) c else tap s c (k - f - 1)

end Sys2Proof.Machine
end

