-- ==== Sys2Proof/Certificates/Slice0/Obligations.lean ====
section
/-! DEFINITION. What is claimed of the machine, for the provers. The rules are those of spec/; "log <n>" is an assumption
of the model. In every statement the spec's own formulas stand in place of the model's where the spec gives one. -/

open Sys2Proof Sys2Proof.Machine

/-! ### Reset and the invariant -/

/-- The state after reset, and the state a block reset leaves when no command is in flight, hold the values of rule R34's
table; PARAM0, PARAM1 and sample memory stay. The RAM contents are unspecified, so only their sizes are stated. -/
def Obligations.BlockResetRestoresTableValues : Prop :=
  State.reset.AtReset ∧
  ∀ (s : State) (rest : List HostOp), s.phase = .idle ∨ s.phase = .unseen → s.script = .reset :: rest →
    ∃ t, step s = .next t ∧ t.AtReset ∧ t.params = s.params ∧ t.mem = s.mem ∧ t.script = rest ∧
      t.fs.length = s.params.nchMax ∧ t.cram.length = s.params.coefRamWords ∧ t.dlram.length = s.params.dlRamSlots

/-- The reset state meets the invariant. -/
def Obligations.ResetMeetsInvariant : Prop := State.reset.Inv

/-- Every step from every good state leads to a good state: rule R24's invariants for every channel, the sizes of the bank
and the RAMs, canonical sample memory inside the address space, and ERR = 0 while BUSY = 1 (rule R18). -/
def Obligations.StepKeepsInvariant : Prop :=
  ∀ s t : State, s.Inv → step s = .next t → t.Inv

/-- In CONFIGURED and ACTIVE, L is even and at least 6 (rule R25). -/
def Obligations.DelayLengthIsEven : Prop :=
  ∀ (s : State) (c : Nat), s.Inv → c < s.params.nchMax → (s.chan c).LC ≠ .uninit →
    (s.chan c).L.toNat % 2 = 0 ∧ 6 ≤ (s.chan c).L.toNat

/-- No step is refused: every command of the block has a meaning. -/
def Obligations.StepIsNeverRefused : Prop :=
  ∀ (s : State) (r : Refusal), step s ≠ .refused r

/-! ### Decoding -/

/-- Decoding the word of a command gives the command back, with every channel CMD[15:8] can hold. -/
def Obligations.DecodeOfEncode : Prop :=
  ∀ i : Instr, wellFormed i = true → decode (encode i) = .ok i

/-- A word that decodes is the word of the command it decodes to: no bit of a legal word is ignored. -/
def Obligations.EncodeOfDecode : Prop :=
  ∀ (w : Word) (i : Instr), decode w = .ok i → wellFormed i = true ∧ encode i = w

/-- Rule R58: a word is legal exactly when some row of the table matches it under its mask, no two rows match one word, and
the matching row with CMD[15:8] gives the command. -/
def Obligations.LegalWordsSelectOneRow : Prop :=
  ∀ w : Word,
    ((∃ i, decode w = .ok i) ↔ ∃ r ∈ opTable, w &&& r.mask = r.pattern) ∧
    (∀ r ∈ opTable, w &&& r.mask = r.pattern →
      decode w = .ok (r.make (w.extractLsb' 8 8).toNat) ∧
      ∀ r' ∈ opTable, w &&& r'.mask = r'.pattern → r'.mnemonic = r.mnemonic)

/-- Rule R61: a word that matches no row ends with ERR_ILLEGAL and changes no state except STATUS; and the words rule R61
lists match no row. -/
def Obligations.IllegalWordsEndWithErrIllegal : Prop :=
  (∀ s : State, s.phase = .running 0 → (∀ r ∈ opTable, s.cmd &&& r.mask ≠ r.pattern) →
    step s = .next { s with err := .errIllegal, phase := .unseen }) ∧
  (∀ w : Word,
    (w.extractLsb' 0 8).toNat ∉ [0x01, 0x02, 0x03, 0x04, 0x08, 0x09, 0x10, 0x11, 0x20, 0x30, 0x31, 0x32, 0x33] ∨
    w.extractLsb' 19 13 ≠ 0 ∨ w.extractLsb' 16 2 = 3 ∨
    (w.extractLsb' 8 8 ≠ 0 ∧ 0x20 ≤ (w.extractLsb' 0 8).toNat) ∨
    (w.extractLsb' 16 3 ≠ 0 ∧ (w.extractLsb' 0 8).toNat ≠ 0x20) →
    ∀ r ∈ opTable, w &&& r.mask ≠ r.pattern)

/-- Rule R67: the example words decode to the commands they stand for, and the illegal examples to none. -/
def Obligations.ExampleWordsDecode : Prop :=
  decode 0x00000001 = .ok (.fsReset 0) ∧ decode 0x00000302 = .ok (.fsConfigure 3) ∧ decode 0x00000703 = .ok (.fsBind 7) ∧
  decode 0x00000004 = .ok (.fsShiftplan 0) ∧ decode 0x00000208 = .ok (.dlPush 2) ∧ decode 0x00000209 = .ok (.dlTap 2) ∧
  decode 0x00000110 = .ok (.kSingle 1) ∧ decode 0x00000111 = .ok (.kDual 1) ∧
  decode 0x00000020 = .ok .processS16Any ∧ decode 0x00040020 = .ok .processS16Even ∧
  decode 0x00010020 = .ok .processS24Any ∧ decode 0x00050020 = .ok .processS24Even ∧
  decode 0x00020020 = .ok .processS32Any ∧ decode 0x00060020 = .ok .processS32Even ∧
  decode 0x00000030 = .ok .fxRshift ∧ decode 0x00000031 = .ok .fxSat16 ∧ decode 0x00000032 = .ok .fxSat24 ∧
  decode 0x00000033 = .ok .fxSat32 ∧
  ∀ w ∈ [0x00000000#32, 0x00030020#32, 0x00000120#32, 0x00080001#32, 0x00040010#32], ∃ e, decode w = .error e

/-! ### Starting and completing a command -/

/-- Rule R17, rule R18: writing CMD stores the word, sets ERR to 0 and BUSY to 1, and changes no other register, FilterState,
RAM or byte of sample memory. How long BUSY stays 1 is the head of `latency` (the model's choice, log 5). -/
def Obligations.CmdWriteStartsCommand : Prop :=
  ∀ (s : State) (w : Word) (rest : List HostOp), s.phase = .idle → s.script = .write 0 4 w :: rest →
    ∃ t, step s = .next t ∧ statusWord t = 1 ∧ t.phase = .running (s.latency.headD 0) ∧
      t = { s with script := rest, cmd := w, err := .ok, phase := t.phase, latency := s.latency.tail }

/-- A step runs the decoded command: the command in flight, when its time has come, is executed on the state as it is. The
second part says the same of the state `withFetchWord` prepares. That a command takes effect at the step that completes it is
the model's choice (log 12), which rule R49 allows. -/
def Obligations.StepRunsDecodedCommand : Prop :=
  (∀ (s : State) (i : Instr), s.phase = .running 0 → decode s.cmd = .ok i → step s = exec i s) ∧
  (∀ (s : State) (w : Word) (i : Instr), decode w = .ok i →
    step (s.withFetchWord 32 w.toNat) = exec i { s with cmd := w, err := .ok, phase := .running 0 })

/-- Rule R144 at the host: a host that waits sees BUSY = 0 after finitely many steps, unless the command is a contract
violation; then its next access is performed on an idle block. -/
def Obligations.WaitEndsUnlessViolation : Prop :=
  ∀ (s : State) (n : Nat) (rest : List HostOp), s.phase = .running n → s.script = .wait :: rest →
    (∀ v, core.run (n + 1) s ≠ .fault v) →
    ∃ t : State, core.run (n + 2) s = .next t ∧ t.phase = .idle ∧ t.busy = false ∧ t.script = rest

/-- Rules R138, R141: with no command in flight and no access from outside, the block keeps all its state. -/
def Obligations.IdleBlockKeepsState : Prop :=
  ∀ s : State, s.busy = false → s.script = [] → step s = .next s

/-- Rule R62: a channel command with CH ≥ NCH_MAX ends with ERR_ILLEGAL and no other change. -/
def Obligations.ChannelOutOfRangeIsIllegal : Prop :=
  ∀ (s : State) (i : Instr) (ch : Nat), i.channel = some ch → s.params.nchMax ≤ ch →
    exec i s = .next { s with err := .errIllegal, phase := .unseen }

/-- Rule R127: a command that ends with an error changes STATUS and nothing else. -/
def Obligations.ErrorChangesOnlyStatus : Prop :=
  ∀ (s t : State) (i : Instr), exec i s = .next t → t.err ≠ .ok →
    t = { s with err := t.err, phase := .unseen }

/-! ### Rounding and saturation -/

/-- Rule R68: widening is exact; narrowing gives the integer nearest to v / 2^n, and of two equally near the one of larger
magnitude. -/
def Obligations.RoundedShiftIsNearest : Prop :=
  ∀ (v : Int) (f t : Nat),
    (f ≤ t → roundedShift v f t = v * 2 ^ (t - f)) ∧
    (t < f →
      2 * |v - roundedShift v f t * 2 ^ (f - t)| ≤ 2 ^ (f - t) ∧
      (2 * |v - roundedShift v f t * 2 ^ (f - t)| = 2 ^ (f - t) → |v| < |roundedShift v f t * 2 ^ (f - t)|))

/-- Rule R69: rounding is symmetric about zero, and the two examples. -/
def Obligations.RoundedShiftIsSymmetric : Prop :=
  (∀ (v : Int) (f t : Nat), roundedShift (-v) f t = -roundedShift v f t) ∧
  roundedShift 0x40 7 0 = 1 ∧ roundedShift (-0x40) 7 0 = -1

/-- Rule R70: sat_N clamps to the signed N-bit range, for N = 16, 24, 32. -/
def Obligations.SaturationClampsToRange : Prop :=
  ∀ v : Int,
    sat 16 v = max (-32768) (min 32767 v) ∧
    sat 24 v = max (-8388608) (min 8388607 v) ∧
    sat 32 v = max (-2147483648) (min 2147483647 v)

/-- Rule R72: the word 0x00000030 is FX.RSHIFT, and it completes, with the rounded shift of {ARG1, ARG0} by the 6-bit from
and to in RES1:RES0 modulo 2^64, exact when it does not widen, ERR = 0, and nothing else changed. -/
def Obligations.FxRshiftResult : Prop :=
  decode 0x00000030 = .ok .fxRshift ∧ ∀ s : State, ∃ t, exec .fxRshift s = .next t ∧
    t.res1 ++ t.res0 =
      BitVec.ofInt 64 (roundedShift (s.arg1 ++ s.arg0).toInt (s.arg2.extractLsb' 0 6).toNat (s.arg3.extractLsb' 0 6).toNat) ∧
    ((s.arg3.extractLsb' 0 6).toNat ≤ (s.arg2.extractLsb' 0 6).toNat →
      (t.res1 ++ t.res0).toInt =
        roundedShift (s.arg1 ++ s.arg0).toInt (s.arg2.extractLsb' 0 6).toNat (s.arg3.extractLsb' 0 6).toNat) ∧
    t = { s with res0 := t.res0, res1 := t.res1, err := .ok, phase := .unseen }

/-- Rules R73, R74, R75: FX.SAT16, FX.SAT24 and FX.SAT32, by their words, complete, with the clamped value sign-extended to
64 bits in RES1:RES0, ERR = 0, and nothing else changed. -/
def Obligations.FxSaturateResults : Prop :=
  decode 0x00000031 = .ok .fxSat16 ∧ decode 0x00000032 = .ok .fxSat24 ∧ decode 0x00000033 = .ok .fxSat32 ∧ ∀ s : State,
    (∃ t, exec .fxSat16 s = .next t ∧
      (t.res1 ++ t.res0).toInt = max (-32768) (min 32767 (s.arg1 ++ s.arg0).toInt) ∧
      t = { s with res0 := t.res0, res1 := t.res1, err := .ok, phase := .unseen }) ∧
    (∃ t, exec .fxSat24 s = .next t ∧
      (t.res1 ++ t.res0).toInt = max (-8388608) (min 8388607 (s.arg1 ++ s.arg0).toInt) ∧
      t = { s with res0 := t.res0, res1 := t.res1, err := .ok, phase := .unseen }) ∧
    (∃ t, exec .fxSat32 s = .next t ∧
      (t.res1 ++ t.res0).toInt = max (-2147483648) (min 2147483647 (s.arg1 ++ s.arg0).toInt) ∧
      t = { s with res0 := t.res0, res1 := t.res1, err := .ok, phase := .unseen })

/-! ### The FilterState lifecycle -/

/-- Rule R95: FS.RESET completes from every state of the channel and leaves it UNINIT with every field 0; every other
channel, CRAM, DLRAM, CURSOR, RES0, RES1 and sample memory stay. -/
def Obligations.FsResetClearsChannel : Prop :=
  ∀ (s : State) (ch : Nat), s.Inv → ch < s.params.nchMax →
    ∃ t, exec (.fsReset ch) s = .next t ∧
      t.chan ch = { LC := .uninit, T := 0, L := 0, S := 0, coefBase := 0, dlBase := 0, wp := 0 } ∧
      (∀ d, d ≠ ch → t.chan d = s.chan d) ∧
      t = { s with fs := t.fs, err := .ok, phase := .unseen }

/-- Rules R89, R91, R96: FS.CONFIGURE on an UNINIT channel with a valid T and a CoefficientSet inside CRAM completes, with the
fields and RES0 the rule gives; every other channel and register stays. -/
def Obligations.FsConfigureSucceeds : Prop :=
  ∀ (s : State) (ch : Nat), s.Inv → ch < s.params.nchMax → (s.chan ch).LC = .uninit →
    4 ≤ s.arg0.toNat → s.arg0.toNat ≤ s.params.maxLength → s.arg0.toNat % 4 = 0 →
    s.arg2.toNat + s.arg0.toNat ≤ s.params.coefRamWords →
    ∃ t, exec (.fsConfigure ch) s = .next t ∧
      (t.chan ch).LC = .configured ∧ (t.chan ch).T.toNat = s.arg0.toNat ∧ (t.chan ch).L.toNat = s.arg0.toNat + 2 ∧
      (t.chan ch).S = s.arg1.extractLsb' 0 8 ∧ (t.chan ch).coefBase.toNat = s.arg2.toNat ∧
      (t.chan ch).dlBase = 0 ∧ (t.chan ch).wp = 0 ∧
      t.res0.toNat = (s.arg0.toNat + 2) * 4 ∧
      (∀ d, d ≠ ch → t.chan d = s.chan d) ∧
      t = { s with fs := t.fs, res0 := t.res0, err := .ok, phase := .unseen }

/-- Rules R96, R129: the errors of FS.CONFIGURE, in their order, each changing nothing but STATUS. -/
def Obligations.FsConfigureErrorsInOrder : Prop :=
  ∀ (s : State) (ch : Nat), ch < s.params.nchMax →
    ((s.chan ch).LC ≠ .uninit → exec (.fsConfigure ch) s = .next { s with err := .errState, phase := .unseen }) ∧
    ((s.chan ch).LC = .uninit → (s.arg0.toNat < 4 ∨ s.params.maxLength < s.arg0.toNat ∨ s.arg0.toNat % 4 ≠ 0) →
      exec (.fsConfigure ch) s = .next { s with err := .invalidConfig, phase := .unseen }) ∧
    ((s.chan ch).LC = .uninit → 4 ≤ s.arg0.toNat → s.arg0.toNat ≤ s.params.maxLength → s.arg0.toNat % 4 = 0 →
      s.params.coefRamWords < s.arg2.toNat + s.arg0.toNat →
      exec (.fsConfigure ch) s = .next { s with err := .errRange, phase := .unseen })

/-- Rule R97: FS.BIND on a CONFIGURED channel whose region fits completes: the region is taken at CURSOR, CURSOR moves past it,
and the channel is ACTIVE with wp 0; DLRAM and every other channel and register stay. -/
def Obligations.FsBindAttachesRegion : Prop :=
  ∀ (s : State) (ch : Nat), s.Inv → ch < s.params.nchMax → (s.chan ch).LC = .configured →
    s.cursor.toNat + (s.chan ch).L.toNat ≤ s.params.dlRamSlots →
    ∃ t, exec (.fsBind ch) s = .next t ∧
      t.chan ch = { s.chan ch with LC := .active, dlBase := s.cursor, wp := 0 } ∧
      t.cursor.toNat = s.cursor.toNat + (s.chan ch).L.toNat ∧
      (∀ d, d ≠ ch → t.chan d = s.chan d) ∧
      t = { s with fs := t.fs, cursor := t.cursor, err := .ok, phase := .unseen }

/-- Rules R97, R129: the errors of FS.BIND, in their order, each changing nothing but STATUS. -/
def Obligations.FsBindErrorsInOrder : Prop :=
  ∀ (s : State) (ch : Nat), ch < s.params.nchMax →
    ((s.chan ch).LC ≠ .configured → exec (.fsBind ch) s = .next { s with err := .errState, phase := .unseen }) ∧
    ((s.chan ch).LC = .configured → s.params.dlRamSlots < s.cursor.toNat + (s.chan ch).L.toNat →
      exec (.fsBind ch) s = .next { s with err := .errRange, phase := .unseen })

/-- Rules R92, R98: FS.SHIFTPLAN completes in every lifecycle state, with ls = max(0, −S) in RES0[7:0], rs = max(0, S) in
RES0[15:8] and 0 above, and nothing else changed. -/
def Obligations.FsShiftplanReportsPlan : Prop :=
  ∀ (s : State) (ch : Nat), ch < s.params.nchMax →
    ∃ t, exec (.fsShiftplan ch) s = .next t ∧
      ((t.res0.extractLsb' 0 8).toNat : Int) = max 0 (-(s.chan ch).S.toInt) ∧
      ((t.res0.extractLsb' 8 8).toNat : Int) = max 0 (s.chan ch).S.toInt ∧
      t.res0.extractLsb' 16 16 = 0 ∧
      t = { s with res0 := t.res0, err := .ok, phase := .unseen }

/-- Rules R86, R87: the lifecycle moves only forward, or back to UNINIT by FS.RESET of that channel; and only FS.CONFIGURE and
FS.BIND of that channel move it forward. -/
def Obligations.LifecycleTransitions : Prop :=
  ∀ (s t : State) (i : Instr) (c : Nat), exec i s = .next t →
    (t.chan c).LC = (s.chan c).LC ∨
    ((t.chan c).LC = .uninit ∧ i = .fsReset c) ∨
    ((s.chan c).LC = .uninit ∧ (t.chan c).LC = .configured ∧ i = .fsConfigure c) ∨
    ((s.chan c).LC = .configured ∧ (t.chan c).LC = .active ∧ i = .fsBind c)

/-! ### The delay line -/

/-- Rules R77, R84: DL.PUSH on an ACTIVE channel completes: the slot at the cursor takes ARG0, the cursor advances modulo L,
every other slot, channel and register stays. -/
def Obligations.DlPushStoresAtCursor : Prop :=
  ∀ (s : State) (ch : Nat), s.Inv → ch < s.params.nchMax → (s.chan ch).LC = .active →
    ∃ t, exec (.dlPush ch) s = .next t ∧
      t.slot ((s.chan ch).dlBase.toNat + (s.chan ch).wp.toNat) = s.arg0 ∧
      (∀ j, j ≠ (s.chan ch).dlBase.toNat + (s.chan ch).wp.toNat → t.slot j = s.slot j) ∧
      t.chan ch = { s.chan ch with wp := (t.chan ch).wp } ∧
      (t.chan ch).wp.toNat = ((s.chan ch).wp.toNat + 1) % (s.chan ch).L.toNat ∧
      (∀ d, d ≠ ch → t.chan d = s.chan d) ∧
      t = { s with fs := t.fs, dlram := t.dlram, err := .ok, phase := .unseen }

/-- Rules R78, R85: DL.TAP on an ACTIVE channel with k < T completes, with the slot k places behind the newest in RES0, and
nothing else changed. -/
def Obligations.DlTapReadsWindow : Prop :=
  ∀ (s : State) (ch : Nat), ch < s.params.nchMax → (s.chan ch).LC = .active → s.arg0.toNat < (s.chan ch).T.toNat →
    ∃ t, exec (.dlTap ch) s = .next t ∧
      t.res0 = s.slot ((s.chan ch).dlBase.toNat +
        ((((s.chan ch).wp.toNat : Int) - 1 - s.arg0.toNat) % (s.chan ch).L.toNat).toNat) ∧
      t = { s with res0 := t.res0, err := .ok, phase := .unseen }

/-- Rule R78's convention over rule R77's push: after DL.PUSH, position 0 of the window is the pushed sample, and every other
position is what stood one place nearer before. -/
def Obligations.PushMovesTapWindow : Prop :=
  ∀ (s t : State) (ch : Nat), s.Inv → (s.chan ch).LC = .active → exec (.dlPush ch) s = .next t → ch < s.params.nchMax →
    tap t ch 0 = s.arg0.toInt ∧
    ∀ k, k + 1 < (s.chan ch).T.toNat → tap t ch (k + 1) = tap s ch k

/-- Rules R84, R85, R104, R106, R107: DL.PUSH, DL.TAP, K.SINGLE and K.DUAL on a channel that is not ACTIVE stop with the
violation NotActive, and DL.TAP beyond the window with TapIndex. -/
def Obligations.ChannelPreconditionsFault : Prop :=
  ∀ (s : State) (ch : Nat), ch < s.params.nchMax →
    ((s.chan ch).LC ≠ .active →
      exec (.dlPush ch) s = .fault .notActive ∧ exec (.dlTap ch) s = .fault .notActive ∧
      exec (.kSingle ch) s = .fault .notActive ∧ exec (.kDual ch) s = .fault .notActive) ∧
    ((s.chan ch).LC = .active → (s.chan ch).T.toNat ≤ s.arg0.toNat → exec (.dlTap ch) s = .fault .tapIndex)

/-! ### The kernel -/

/-- Rules R99, R101, R102, R106: K.SINGLE on an ACTIVE channel completes, and RES0 is the direct-form sum over the new sample
and the window before it, shifted left exactly, rounded once and saturated; the new sample is pushed; every other slot,
channel and register stays. -/
def Obligations.KSingleComputesTapSum : Prop :=
  ∀ (s : State) (ch : Nat), s.Inv → ch < s.params.nchMax → (s.chan ch).LC = .active →
    ∃ t, exec (.kSingle ch) s = .next t ∧
      t.res0 = BitVec.ofInt 32 (sat 32 (roundedShift
        ((∑ k ∈ Finset.range (s.chan ch).T.toNat,
            (s.coef ((s.chan ch).coefBase.toNat + k)).toInt * (if k = 0 then s.arg0.toInt else tap s ch (k - 1))) *
          2 ^ (-(s.chan ch).S.toInt).toNat)
        (46 + (s.chan ch).S.toInt.toNat) 31)) ∧
      t.slot ((s.chan ch).dlBase.toNat + (s.chan ch).wp.toNat) = s.arg0 ∧
      (∀ j, j ≠ (s.chan ch).dlBase.toNat + (s.chan ch).wp.toNat → t.slot j = s.slot j) ∧
      t.chan ch = { s.chan ch with wp := (t.chan ch).wp } ∧
      (t.chan ch).wp.toNat = ((s.chan ch).wp.toNat + 1) % (s.chan ch).L.toNat ∧
      (∀ d, d ≠ ch → t.chan d = s.chan d) ∧
      t = { s with fs := t.fs, dlram := t.dlram, res0 := t.res0, err := .ok, phase := .unseen }

/-- Rules R103, R107: K.DUAL on an ACTIVE channel completes, and gives the results, DLRAM contents and cursors of two K.SINGLE
commands, the first on ARG0 and the second on ARG1; nothing else changes. -/
def Obligations.KDualIsTwoSingles : Prop :=
  ∀ (s : State) (ch : Nat), ch < s.params.nchMax → (s.chan ch).LC = .active →
    ∃ t t0 t1, exec (.kDual ch) s = .next t ∧
      exec (.kSingle ch) s = .next t0 ∧ exec (.kSingle ch) { t0 with arg0 := s.arg1 } = .next t1 ∧
      t.res0 = t0.res0 ∧ t.res1 = t1.res0 ∧ t.dlram = t1.dlram ∧ t.fs = t1.fs ∧
      t = { s with fs := t.fs, dlram := t.dlram, res0 := t.res0, res1 := t.res1, err := .ok, phase := .unseen }

/-- Rule R100: the accumulator of every ACTIVE channel is the exact sum, has magnitude at most T·2^46, and fits a signed
64-bit register. -/
def Obligations.AccumulatorFitsSixtyFourBits : Prop :=
  ∀ (s : State) (c : Nat), s.Inv → (s.chan c).LC = .active →
    accumulate s c =
      ∑ k ∈ Finset.range (s.chan c).T.toNat, (s.coef ((s.chan c).coefBase.toNat + k)).toInt * tap s c k ∧
    |accumulate s c| ≤ (s.chan c).T.toNat * 2 ^ 46 ∧ |accumulate s c| < 2 ^ 63

/-- Rule R105 (a): all-zero coefficients give 0 for every input and every S. -/
def Obligations.ZeroCoefficientsGiveZero : Prop :=
  ∀ (s : State) (ch : Nat), ch < s.params.nchMax → (s.chan ch).LC = .active →
    (∀ k, k < (s.chan ch).T.toNat → s.coef ((s.chan ch).coefBase.toNat + k) = 0) →
    ∃ t, exec (.kSingle ch) s = .next t ∧ t.res0 = 0

/-- Rule R105 (b): coefficient 0x4000 with S = −1 and every other coefficient 0 gives y = x for every x. -/
def Obligations.HalfCoefficientIsUnity : Prop :=
  ∀ (s : State) (ch : Nat), s.Inv → ch < s.params.nchMax → (s.chan ch).LC = .active → (s.chan ch).S = 0xFF#8 →
    s.coef (s.chan ch).coefBase.toNat = 0x4000#16 →
    (∀ k, 0 < k → k < (s.chan ch).T.toNat → s.coef ((s.chan ch).coefBase.toNat + k) = 0) →
    ∃ t, exec (.kSingle ch) s = .next t ∧ t.res0 = s.arg0

/-! ### PROCESS -/

/-- Rule R114: F = 0 or N = 0 is a no-op for each of the six PROCESS commands, and no precondition is checked. -/
def Obligations.EmptyProcessIsNoop : Prop :=
  ∀ (s : State) (i : Instr) (fmt : Format) (mode : Mode), i.process = some (fmt, mode) → s.arg2 = 0 ∨ s.arg3 = 0 →
    exec i s = .next { s with err := .ok, phase := .unseen }

/-- Rules R77, R111, R112, R118, R119 to R124: each of the six PROCESS commands completes when its preconditions hold. No byte outside
the destination changes, no register but STATUS, no slot but those the F pushes of channels 0 to N−1 reach (rule R77), no channel
from N on, and of the channels below N only wp, which advances by F modulo L. -/
def Obligations.ProcessCompletes : Prop :=
  ∀ (s : State) (i : Instr) (fmt : Format) (mode : Mode), i.process = some (fmt, mode) → s.Inv →
    s.arg2 ≠ 0 → s.arg3 ≠ 0 → ProcessReady fmt mode s →
    ∃ t, exec i s = .next t ∧
      (∀ a, a < s.arg1.toNat ∨ s.arg1.toNat + s.arg2.toNat * s.arg3.toNat * elemSize fmt ≤ a →
        memByte t.mem a = memByte s.mem a) ∧
      (∀ c, s.arg3.toNat ≤ c → t.chan c = s.chan c) ∧
      (∀ c, c < s.arg3.toNat → t.chan c = { s.chan c with wp := (t.chan c).wp } ∧
        (t.chan c).wp.toNat = ((s.chan c).wp.toNat + s.arg2.toNat) % (s.chan c).L.toNat) ∧
      (∀ j, (∀ c f, c < s.arg3.toNat → f < s.arg2.toNat →
          j ≠ (s.chan c).dlBase.toNat + ((s.chan c).wp.toNat + f) % (s.chan c).L.toNat) →
        t.slot j = s.slot j) ∧
      t = { s with fs := t.fs, dlram := t.dlram, mem := t.mem, err := .ok, phase := .unseen }

/-- Rules R77, R78, R80, R99, R101, R109 to R112: each of the six PROCESS commands computes the FIR equation. The destination element of frame f,
channel c is the sum of coefficient k times the sample k frames earlier (from the source buffer as it stood, or the channel's
history before the command), shifted, rounded and saturated by rule R101 and then by rule R110; and afterwards all L slots of
the channel's region, the two outside the window included, hold its last L samples, newest first: position k is the slot k
places behind the newest. It holds for in-place buffers too. -/
def Obligations.ProcessComputesFirEquation : Prop :=
  ∀ (s t : State) (i : Instr) (fmt : Format) (mode : Mode), i.process = some (fmt, mode) → s.Inv →
    s.arg2 ≠ 0 → s.arg3 ≠ 0 → ProcessReady fmt mode s → exec i s = .next t →
    ∀ c, c < s.arg3.toNat →
      (∀ f, f < s.arg2.toNat →
        memReadLE t.mem (s.arg1.toNat + elemSize fmt * (f * s.arg3.toNat + c)) (elemSize fmt) =
          postPattern fmt (sat 32 (roundedShift
            ((∑ k ∈ Finset.range (s.chan c).T.toNat,
                (s.coef ((s.chan c).coefBase.toNat + k)).toInt * pastSample fmt s c f k) *
              2 ^ (-(s.chan c).S.toInt).toNat)
            (46 + (s.chan c).S.toInt.toNat) 31))) ∧
      (∀ k, k < (s.chan c).L.toNat → tap t c k = pastSample fmt s c (s.arg2.toNat - 1) k)

/-- Rule R116: for every even F, each EVEN command does exactly what the ANY command of its format does. -/
def Obligations.EvenModeEqualsAnyMode : Prop :=
  ∀ s : State, Memory.wf s.mem → s.arg2.toNat % 2 = 0 →
    exec .processS16Even s = exec .processS16Any s ∧ exec .processS24Even s = exec .processS24Any s ∧
    exec .processS32Even s = exec .processS32Any s

/-- Rule R115: whatever order the channels are taken in, the bank leaves the same state. -/
def Obligations.ChannelOrderIsFree : Prop :=
  ∀ (s : State) (fmt : Format) (mode : Mode) (order : List Nat), s.Inv → ProcessReady fmt mode s →
    order.Perm (List.range s.arg3.toNat) →
    order.foldl (fun u c => processChannel fmt mode s.arg0.toNat s.arg1.toNat s.arg2.toNat s.arg3.toNat c u) s =
      processBank fmt mode s.arg0.toNat s.arg1.toNat s.arg2.toNat s.arg3.toNat s

/-- Rule R113: with F and N not 0, a PROCESS command stops exactly when some precondition is broken, and the violation it names
is a broken one. Which of several broken ones is named is the model's choice (log 9), and not stated. -/
def Obligations.ProcessFaultsNameBrokenPrecondition : Prop :=
  ∀ (s : State) (i : Instr) (fmt : Format) (mode : Mode), i.process = some (fmt, mode) → s.arg2 ≠ 0 → s.arg3 ≠ 0 →
    (∀ v, exec i s = .fault v → ProcessBroken fmt mode s v) ∧
    ((∃ v, ProcessBroken fmt mode s v) → ∃ v, exec i s = .fault v)

/-- Rules R109, R110: the sample formats. Every input lands in the signed 32-bit range; the stored pattern, read back as a
signed number of its width, is the value rounded to 15 or 23 fractional bits and clamped (S16, S24), or y itself (S32). -/
def Obligations.SampleFormatsRoundAndClamp : Prop :=
  (∀ (fmt : Format) (e : Nat), -2 ^ 31 ≤ preTransform fmt e ∧ preTransform fmt e ≤ 2 ^ 31 - 1) ∧
  (∀ e : Nat, preTransform .s16 e = (BitVec.ofNat 16 e).toInt * 2 ^ 16 ∧
    preTransform .s24 e = (BitVec.ofNat 24 e).toInt * 2 ^ 8 ∧ preTransform .s32 e = (BitVec.ofNat 32 e).toInt) ∧
  (∀ y : Int, -2 ^ 31 ≤ y → y ≤ 2 ^ 31 - 1 →
    (BitVec.ofNat 16 (postPattern .s16 y)).toInt = max (-32768) (min 32767 (roundedShift y 31 15)) ∧
    (BitVec.ofNat 32 (postPattern .s24 y)).toInt = max (-8388608) (min 8388607 (roundedShift y 31 23)) ∧
    (BitVec.ofNat 32 (postPattern .s32 y)).toInt = y)

/-! ### What commands leave alone -/

/-- Rules R15, R16, R19, R20, R23, R27, R40, over all commands: which registers, FilterState fields and memories a completed
command can have changed. -/
def Obligations.CommandsWriteOnlyTheirState : Prop :=
  ∀ (s t : State) (i : Instr), exec i s = .next t →
    t.params = s.params ∧ t.cmd = s.cmd ∧ t.arg0 = s.arg0 ∧ t.arg1 = s.arg1 ∧ t.arg2 = s.arg2 ∧ t.arg3 = s.arg3 ∧
    t.cram = s.cram ∧ t.phase = .unseen ∧ t.script = s.script ∧ t.latency = s.latency ∧ t.badRanges = s.badRanges ∧
    t.rdata = s.rdata ∧ t.draws = s.draws ∧
    ((∀ ch, i ≠ .fsBind ch) → t.cursor = s.cursor) ∧
    (i.process = none → t.mem = s.mem) ∧
    ((i.process ≠ none ∨ ∃ ch, i = .fsReset ch ∨ i = .fsBind ch ∨ i = .dlPush ch) → t.res0 = s.res0 ∧ t.res1 = s.res1) ∧
    ((∀ ch, i ≠ .fsReset ch ∧ i ≠ .fsConfigure ch ∧ i ≠ .fsBind ch) →
      ∀ c, t.chan c = { s.chan c with wp := (t.chan c).wp }) ∧
    ((i.process = none ∧ ∀ ch, i ≠ .fsReset ch ∧ i ≠ .fsBind ch ∧ i ≠ .dlPush ch ∧ i ≠ .kSingle ch ∧ i ≠ .kDual ch) →
      ∀ c, (t.chan c).wp = (s.chan c).wp) ∧
    ((i.process = none ∧ ∀ ch, i ≠ .dlPush ch ∧ i ≠ .kSingle ch ∧ i ≠ .kDual ch) → t.dlram = s.dlram)

/-- Rule R26: a channel command changes no FilterState but its own. -/
def Obligations.ChannelsShareNoFilterState : Prop :=
  ∀ (s t : State) (i : Instr) (ch d : Nat), i.channel = some ch → d ≠ ch → exec i s = .next t → t.chan d = s.chan d

/-- Rule R148: when a command completes depends on no sample value, coefficient, S, wp or DLRAM content: two states that
differ only there, or in the results, move alike between idle, BUSY and complete, and leave the same accesses outstanding.
Rule R148 lets the time depend on the T of the channels; that it depends on nothing in the FilterStates is the model's own
choice, whose durations are the list `latency` (log 5). -/
def Obligations.CompletionIgnoresData : Prop :=
  ∀ (s s' t t' : State),
    s' = { s with cram := s'.cram, dlram := s'.dlram, mem := s'.mem, fs := s'.fs, res0 := s'.res0, res1 := s'.res1 } →
    step s = .next t → step s' = .next t' →
    t.phase = t'.phase ∧ t.script = t'.script ∧ t.latency = t'.latency

/-! ### The slave port -/

/-- Rules R15 to R20, R63: what an idle block answers to a read of each control register; the read changes nothing else. ERR
reads as the number rule R126 gives the result code. -/
def Obligations.ControlRegisterReads : Prop :=
  ∀ (s : State) (a : BitVec 18) (w : Word) (n : Nat) (rest : List HostOp), s.phase = .idle → s.script = .read a 4 :: rest →
    (s.err, n) ∈ [(.ok, 0), (.invalidConfig, 1), (.errState, 2), (.errRange, 3), (.errIllegal, 4)] →
    (a, w) ∈ [(0x000#18, s.cmd), (0x008#18, s.arg0), (0x00C#18, s.arg1), (0x010#18, s.arg2), (0x014#18, s.arg3),
      (0x018#18, s.res0), (0x01C#18, s.res1), (0x020#18, 0#16 ++ s.cursor),
      (0x004#18, BitVec.ofNat 32 (2 ^ 8 * n)),
      (0x024#18, BitVec.ofNat 16 s.params.nchMax ++ BitVec.ofNat 16 s.params.maxLength),
      (0x028#18, BitVec.ofNat 16 s.params.dlRamSlots ++ BitVec.ofNat 16 s.params.coefRamWords)] →
    step s = .next { s with script := rest, rdata := w }

/-- Rules R15, R19: an idle block takes a write of ARG0 to ARG3 and of CURSOR[15:0], and nothing else changes; rules R16, R18,
R20: writes of STATUS, RES0, RES1, PARAM0 and PARAM1 are ignored. -/
def Obligations.ControlRegisterWrites : Prop :=
  ∀ (s : State) (a : BitVec 18) (w : Word) (rest : List HostOp), s.phase = .idle → s.script = .write a 4 w :: rest →
    (a = 0x008 → step s = .next { s with script := rest, arg0 := w }) ∧
    (a = 0x00C → step s = .next { s with script := rest, arg1 := w }) ∧
    (a = 0x010 → step s = .next { s with script := rest, arg2 := w }) ∧
    (a = 0x014 → step s = .next { s with script := rest, arg3 := w }) ∧
    (a = 0x020 → step s = .next { s with script := rest, cursor := w.extractLsb' 0 16 }) ∧
    (a = 0x004 ∨ a = 0x018 ∨ a = 0x01C ∨ a = 0x024 ∨ a = 0x028 → step s = .next { s with script := rest })

/-- Rules R23, R64: the channel window of FilterState c reads as its fields, and ignores writes. LC reads as the number rule
R22 gives the lifecycle state. -/
def Obligations.ChannelWindowReadsFields : Prop :=
  ∀ (s : State) (a : BitVec 18) (c off n : Nat) (w : Word) (rest : List HostOp), s.params.Valid → s.phase = .idle →
    c < s.params.nchMax → a.toNat = 0x100 + 0x20 * c + off →
    ((s.chan c).LC, n) ∈ [(.uninit, 0), (.configured, 1), (.active, 2)] →
    (s.script = .read a 4 :: rest →
      (off, w) ∈ [(0x00, BitVec.ofNat 32 n), (0x04, (s.chan c).L ++ (s.chan c).T),
        (0x08, (s.chan c).S.signExtend 32), (0x0C, 0#16 ++ (s.chan c).coefBase), (0x10, 0#16 ++ (s.chan c).dlBase),
        (0x14, 0#16 ++ (s.chan c).wp), (0x18, 0#32), (0x1C, 0#32)] →
      step s = .next { s with script := rest, rdata := w }) ∧
    (s.script = .write a 4 w :: rest → off < 0x20 → off % 4 = 0 → step s = .next { s with script := rest })

/-- Rules R38, R93: the CRAM window. A read returns the entry sign-extended; a write stores its low half, unless the entry
belongs to the CoefficientSet of a CONFIGURED or ACTIVE channel, which is the violation CoefMutated. -/
def Obligations.CramWindowAccess : Prop :=
  ∀ (s : State) (a : BitVec 18) (i : Nat) (w : Word) (rest : List HostOp), s.Inv → s.phase = .idle →
    i < s.params.coefRamWords → a.toNat = 0x10000 + 4 * i →
    (s.script = .read a 4 :: rest → step s = .next { s with script := rest, rdata := (s.coef i).signExtend 32 }) ∧
    (s.script = .write a 4 w :: rest →
      ((∃ c, c < s.params.nchMax ∧ (s.chan c).LC ≠ .uninit ∧ (s.chan c).coefBase.toNat ≤ i ∧
          i < (s.chan c).coefBase.toNat + (s.chan c).T.toNat) → step s = .fault .coefMutated) ∧
      ((∀ c, c < s.params.nchMax → (s.chan c).LC ≠ .uninit → i < (s.chan c).coefBase.toNat ∨
          (s.chan c).coefBase.toNat + (s.chan c).T.toNat ≤ i) →
        ∃ t, step s = .next t ∧ t.coef i = w.extractLsb' 0 16 ∧ (∀ k, k ≠ i → t.coef k = s.coef k) ∧
          t = { s with script := rest, cram := t.cram }))

/-- Rules R39, R82: the DLRAM window. A read returns the slot, a write stores the word, whoever the slot is bound to, and
changes no cursor. -/
def Obligations.DlramWindowAccess : Prop :=
  ∀ (s : State) (a : BitVec 18) (j : Nat) (w : Word) (rest : List HostOp), s.Inv → s.phase = .idle →
    j < s.params.dlRamSlots → a.toNat = 0x20000 + 4 * j →
    (s.script = .read a 4 :: rest → step s = .next { s with script := rest, rdata := s.slot j }) ∧
    (s.script = .write a 4 w :: rest →
      ∃ t, step s = .next t ∧ t.slot j = w ∧ (∀ k, k ≠ j → t.slot k = s.slot k) ∧
        t = { s with script := rest, dlram := t.dlram })

/-- Rule R37: an aligned address that names no register, channel window or RAM entry reads 0 and ignores writes, with no other
effect, whenever no command is in flight: on an idle block, and, by log 19 (DEDUCED), on one whose BUSY = 0 has not
been read yet. -/
def Obligations.UnnamedAddressReadsZero : Prop :=
  ∀ (s : State) (a : BitVec 18) (w : Word) (rest : List HostOp), s.phase = .idle ∨ s.phase = .unseen → a.toNat % 4 = 0 →
    NamesNothing s.params a.toNat →
    (s.script = .read a 4 :: rest → step s = .next { s with script := rest, rdata := 0 }) ∧
    (s.script = .write a 4 w :: rest → step s = .next { s with script := rest })

/-- Rule R43: a slave access that does not move 4 bytes at a multiple of 4 stops with the violation SlaveAccess, whatever the
block is doing (unless a command completes in this very step). That a write of this kind before BUSY = 0 has been read, which
rule R145 calls HostHazard, is named SlaveAccess is the model's choice (log 14). -/
def Obligations.UnalignedSlaveAccessFaults : Prop :=
  ∀ (s : State) (a : BitVec 18) (size : Nat) (w : Word) (rest : List HostOp), s.phase ≠ .running 0 →
    a.toNat % 4 ≠ 0 ∨ size ≠ 4 → s.script = .write a size w :: rest ∨ s.script = .read a size :: rest →
    step s = .fault .slaveAccess

/-- Rule R145: between a CMD write and the STATUS read that returns BUSY = 0, a write of a register or window is the violation
HostHazard, and so is any slave write while BUSY = 1 (rule R130); a read of STATUS is answered; a read of any other register or
window returns some value and changes nothing else but the count of free values (the model's own, log 2), and so does any other
read while BUSY = 1 (for an address that names nothing the model's choice, log 19). While BUSY = 1 each access brings the
completion nearer (the model's own, log 5). ERR reads as the number rule R126 gives the result code. That the interval lasts
after BUSY = 1 is rule R145 over rules R15, R49 and R130 (DEDUCED, log 6), and that an address that names nothing is not closed
then is rule R37 (DEDUCED, log 19; UnnamedAddressReadsZero says what happens there). A write to a CoefficientSet in use is
named HostHazard, not CoefMutated (the model's choice, log 18). -/
def Obligations.BusyRule : Prop :=
  ∀ (s : State) (a : BitVec 18) (w : Word) (rest : List HostOp), a.toNat % 4 = 0 →
    (∀ n, s.phase = .running (n + 1) → s.script = .write a 4 w :: rest → step s = .fault .hostHazard) ∧
    (s.phase = .unseen → ¬NamesNothing s.params a.toNat → s.script = .write a 4 w :: rest → step s = .fault .hostHazard) ∧
    (∀ n, s.phase = .running (n + 1) → s.err = .ok → s.script = .read 0x004 4 :: rest →
      step s = .next { s with script := rest, rdata := 1, phase := .running n }) ∧
    (∀ n, s.phase = .unseen → s.script = .read 0x004 4 :: rest →
      (s.err, n) ∈ [(.ok, 0), (.invalidConfig, 1), (.errState, 2), (.errRange, 3), (.errIllegal, 4)] →
      step s = .next { s with script := rest, rdata := BitVec.ofNat 32 (2 ^ 8 * n), phase := .idle }) ∧
    (∀ n, s.phase = .running (n + 1) → a ≠ 0x004 → s.script = .read a 4 :: rest →
      ∃ v, step s = .next { s with script := rest, rdata := v, draws := s.draws + 1, phase := .running n }) ∧
    (s.phase = .unseen → a ≠ 0x004 → ¬NamesNothing s.params a.toNat → s.script = .read a 4 :: rest →
      ∃ v, step s = .next { s with script := rest, rdata := v, draws := s.draws + 1 })

/-! ### Sample memory and reset in flight -/

/-- Rule R41: sample memory is little-endian. Byte i of a pattern goes to address a + i and no other byte changes, and reading
the bytes back gives the pattern. -/
def Obligations.SampleMemoryIsLittleEndian : Prop :=
  ∀ (m : Memory) (a n p : Nat), Memory.wf m →
    (∀ i, i < n → memByte (memWriteLE m a n p) (a + i) = BitVec.ofNat 8 (p / 2 ^ (8 * i))) ∧
    (∀ x, x < a ∨ a + n ≤ x → memByte (memWriteLE m a n p) x = memByte m x) ∧
    memReadLE m a n = ∑ i ∈ Finset.range n, (memByte m (a + i)).toNat * 2 ^ (8 * i) ∧
    memReadLE (memWriteLE m a n p) a n = p % 2 ^ (8 * n)

/-- Rule R49: another agent's store or load in a buffer of the PROCESS in flight is the violation HostHazard. Elsewhere (no
command in flight, another command or an illegal word in flight, or an address outside both buffers) the store writes that byte
alone, and the load gives the byte and changes no state of the block. The form of these events and the place of the loaded byte
are the model's (logs 8 and 16), and so is that an access while BUSY = 1 brings the completion nearer (log 5). -/
def Obligations.AgentsMustNotTouchBuffers : Prop :=
  ∀ (s : State) (x : Word) (b : Byte) (rest : List HostOp), Memory.wf s.mem →
    (∀ n i fmt mode, s.phase = .running (n + 1) → decode s.cmd = .ok i → i.process = some (fmt, mode) →
      (s.arg0.toNat ≤ x.toNat ∧ x.toNat < s.arg0.toNat + s.arg2.toNat * s.arg3.toNat * elemSize fmt) ∨
        (s.arg1.toNat ≤ x.toNat ∧ x.toNat < s.arg1.toNat + s.arg2.toNat * s.arg3.toNat * elemSize fmt) →
      s.script = .memStore x b :: rest ∨ s.script = .memLoad x :: rest → step s = .fault .hostHazard) ∧
    (∀ n, s.phase = .running (n + 1) →
      (∀ i fmt mode, decode s.cmd = .ok i → i.process = some (fmt, mode) →
        (x.toNat < s.arg0.toNat ∨ s.arg0.toNat + s.arg2.toNat * s.arg3.toNat * elemSize fmt ≤ x.toNat) ∧
        (x.toNat < s.arg1.toNat ∨ s.arg1.toNat + s.arg2.toNat * s.arg3.toNat * elemSize fmt ≤ x.toNat)) →
      (s.script = .memStore x b :: rest →
        ∃ t, step s = .next t ∧ memByte t.mem x.toNat = b ∧ (∀ y, y ≠ x.toNat → memByte t.mem y = memByte s.mem y) ∧
          t = { s with script := rest, mem := t.mem, phase := .running n }) ∧
      (s.script = .memLoad x :: rest →
        step s = .next { s with script := rest, rdata := 0#24 ++ memByte s.mem x.toNat, phase := .running n })) ∧
    (s.busy = false →
      (s.script = .memStore x b :: rest →
        ∃ t, step s = .next t ∧ memByte t.mem x.toNat = b ∧ (∀ y, y ≠ x.toNat → memByte t.mem y = memByte s.mem y) ∧
          t = { s with script := rest, mem := t.mem }) ∧
      (s.script = .memLoad x :: rest → step s = .next { s with script := rest, rdata := 0#24 ++ memByte s.mem x.toNat }))

/-- Rule R140: a block reset while BUSY = 1 abandons the command: the registers and FilterStates take their reset values, and
no byte of sample memory changes but the destination elements of a PROCESS in flight, whose values are free. A command in flight
that breaks a precondition is still that violation (the model's choice, log 10), so the statement is about the others. -/
def Obligations.ResetInFlightAbandonsCommand : Prop :=
  ∀ (s : State) (n : Nat) (rest : List HostOp), Memory.wf s.mem → s.phase = .running (n + 1) → s.script = .reset :: rest →
    (∀ v, runCommand { s with script := rest } ≠ .fault v) →
    ∃ t, step s = .next t ∧ t.AtReset ∧ t.params = s.params ∧ t.script = rest ∧
      ∀ x, (∀ i fmt mode, decode s.cmd = .ok i → i.process = some (fmt, mode) →
          x < s.arg1.toNat ∨ s.arg1.toNat + s.arg2.toNat * s.arg3.toNat * elemSize fmt ≤ x) →
        memByte t.mem x = memByte s.mem x
end

