-- ==== Sys2Proof/Laws/FixedPoint.lean ====
section
/-! SUPPORT. Rounding, saturation, the shift plan and the exact sum: what each can give. -/

namespace Sys2Proof.Machine

/-! ### roundedShift -/

theorem roundedShift_widen {v : Int} {f t : Nat} (h : f ≤ t) : roundedShift v f t = v * 2 ^ (t - f) := by
  simp [roundedShift, h]

/-- Narrowing, by the sign of the value. -/
theorem roundedShift_narrow {v : Int} {f t : Nat} (h : t < f) :
    roundedShift v f t =
      if 0 ≤ v then (((v.natAbs + 2 ^ (f - t - 1)) / 2 ^ (f - t) : Nat) : Int)
      else -(((v.natAbs + 2 ^ (f - t - 1)) / 2 ^ (f - t) : Nat) : Int) := by
  simp [roundedShift, Nat.not_le.2 h]

@[simp] theorem roundedShift_zero (f t : Nat) : roundedShift 0 f t = 0 := by
  rcases Nat.lt_or_ge t f with h | h
  · rw [roundedShift_narrow h]
    have h1 : 2 ^ (f - t - 1) < 2 ^ (f - t) := Nat.pow_lt_pow_right (by omega) (by omega)
    simp [Nat.div_eq_of_lt h1]
  · simp [roundedShift_widen h]

/-- The magnitude of a narrowed value is the magnitude rounded with ties up. -/
theorem natAbs_roundedShift_narrow {v : Int} {f t : Nat} (h : t < f) :
    (roundedShift v f t).natAbs = (v.natAbs + 2 ^ (f - t - 1)) / 2 ^ (f - t) := by
  rw [roundedShift_narrow h]
  split
  · rw [Int.natAbs_natCast]
  · rw [Int.natAbs_neg, Int.natAbs_natCast]

theorem roundedShift_nonneg {v : Int} (f t : Nat) (h : 0 ≤ v) : 0 ≤ roundedShift v f t := by
  rcases Nat.lt_or_ge t f with hn | hw
  · rw [roundedShift_narrow hn, if_pos h]
    exact Int.natCast_nonneg _
  · rw [roundedShift_widen hw]
    positivity

theorem roundedShift_nonpos {v : Int} (f t : Nat) (h : v ≤ 0) : roundedShift v f t ≤ 0 := by
  rcases Nat.lt_or_ge t f with hn | hw
  · rw [roundedShift_narrow hn]
    split
    · next h0 =>
      have : v = 0 := by omega
      subst this
      have h1 : 2 ^ (f - t - 1) < 2 ^ (f - t) := Nat.pow_lt_pow_right (by omega) (by omega)
      simp [Nat.div_eq_of_lt h1]
    · exact neg_nonpos.2 (Int.natCast_nonneg _)
  · rw [roundedShift_widen hw]
    exact mul_nonpos_of_nonpos_of_nonneg h (by positivity)

/-- A multiple of the step is shifted exactly. -/
theorem roundedShift_exact (v : Int) {f t : Nat} (h : t < f) : roundedShift (v * 2 ^ (f - t)) f t = v := by
  have hlt : 2 ^ (f - t - 1) < 2 ^ (f - t) := Nat.pow_lt_pow_right (by omega) (by omega)
  have hpos : 0 < 2 ^ (f - t) := Nat.two_pow_pos _
  have habs : (v * 2 ^ (f - t)).natAbs = v.natAbs * 2 ^ (f - t) := by
    rw [Int.natAbs_mul, Int.natAbs_pow]
    rfl
  have hq : (v.natAbs * 2 ^ (f - t) + 2 ^ (f - t - 1)) / 2 ^ (f - t) = v.natAbs := by
    rw [Nat.mul_comm, Nat.mul_add_div hpos, Nat.div_eq_of_lt hlt, Nat.add_zero]
  have hp : (0 : Int) < 2 ^ (f - t) := by positivity
  rw [roundedShift_narrow h, habs, hq]
  rcases le_or_gt 0 v with h0 | h0
  · rw [if_pos (mul_nonneg h0 hp.le)]
    omega
  · rw [if_neg (not_le.2 (mul_neg_of_neg_of_pos h0 hp))]
    omega

/-! ### Saturation -/

theorem sat_of_mem {N : Nat} {v : Int} (h : satLo N ≤ v) (h' : v ≤ satHi N) : sat N v = v := by
  unfold sat
  rw [if_neg (by omega), if_neg (by omega)]

theorem satLo_le_satHi (N : Nat) : satLo N ≤ satHi N := by
  have : (0 : Int) < 2 ^ (N - 1) := by positivity
  unfold satLo satHi
  omega

theorem satLo_le_sat (N : Nat) (v : Int) : satLo N ≤ sat N v := by
  have := satLo_le_satHi N
  unfold sat
  split
  · exact le_refl _
  · split <;> omega

theorem sat_le_satHi (N : Nat) (v : Int) : sat N v ≤ satHi N := by
  have := satLo_le_satHi N
  unfold sat
  split
  · exact this
  · split <;> omega

@[simp] theorem sat_zero (N : Nat) : sat N 0 = 0 := by
  have : (0 : Int) < 2 ^ (N - 1) := by positivity
  exact sat_of_mem (by unfold satLo; omega) (by unfold satHi; omega)

/-! ### The shift plan and the output mapping -/

theorem shiftPlan_of_nonneg {S : Int} (h : 0 ≤ S) : shiftPlan S = (0, S.toNat) := by
  simp [shiftPlan, h]

theorem shiftPlan_of_nonpos {S : Int} (h : S ≤ 0) : shiftPlan S = ((-S).toNat, 0) := by
  simp [shiftPlan, h]

@[simp] theorem outputMap_zero (S : Int) : outputMap S 0 = 0 := by
  simp [outputMap]

/-- The kernel's result is a signed 32-bit number. -/
theorem outputMap_range (S acc : Int) : -2 ^ 31 ≤ outputMap S acc ∧ outputMap S acc ≤ 2 ^ 31 - 1 :=
  ⟨satLo_le_sat 32 _, sat_le_satHi 32 _⟩

/-! ### Patterns and integers -/

theorem sext_trunc_of_range {N : Nat} {v : Int} (hN : 0 < N) (h : -2 ^ (N - 1) ≤ v) (h' : v < 2 ^ (N - 1)) :
    sext N (trunc N v) = v := by
  unfold sext trunc
  rw [BitVec.setWidth_eq, BitVec.toInt_ofInt_eq_self hN h h']

/-- A word read as a signed number and written back (rule R10). -/
@[simp] theorem trunc_toInt (w : Word) : trunc 32 w.toInt = w := by simp [trunc]

theorem sext_range (N : Nat) {m : Nat} (p : BitVec m) : -2 ^ (N - 1) ≤ sext N p ∧ sext N p < 2 ^ (N - 1) := by
  unfold sext
  exact ⟨BitVec.le_toInt _, BitVec.toInt_lt⟩

/-! ### The exact sum -/

theorem sumBelow_eq_sum (f : Nat → Int) (n : Nat) : sumBelow f n = ∑ k ∈ Finset.range n, f k := by
  induction n with
  | zero => rfl
  | succ n ih => rw [sumBelow, ih, Finset.sum_range_succ]

theorem sumBelow_congr {f g : Nat → Int} {n : Nat} (h : ∀ k, k < n → f k = g k) : sumBelow f n = sumBelow g n := by
  induction n with
  | zero => rfl
  | succ n ih => rw [sumBelow, sumBelow, ih fun k hk => h k (by omega), h n (by omega)]

theorem sumBelow_zero {f : Nat → Int} {n : Nat} (h : ∀ k, k < n → f k = 0) : sumBelow f n = 0 := by
  induction n with
  | zero => rfl
  | succ n ih => rw [sumBelow, ih fun k hk => h k (by omega), h n (by omega), add_zero]

/-- Terms of magnitude at most B give a sum of magnitude at most n·B. -/
theorem abs_sumBelow_le {f : Nat → Int} {B : Int} {n : Nat} (h : ∀ k, k < n → |f k| ≤ B) : |sumBelow f n| ≤ n * B := by
  induction n with
  | zero => simp [sumBelow]
  | succ n ih =>
    have h1 := ih fun k hk => h k (by omega)
    have h2 := h n (by omega)
    have h3 := abs_add_le (sumBelow f n) (f n)
    rw [sumBelow]
    push_cast
    linarith

end Sys2Proof.Machine
end

