-- ==== Sys2Proof/Laws/State.lean ====
section
/-! SUPPORT. One lemma per field and update of State, and what reading a RAM entry or a FilterState gives after writing one. -/

namespace Sys2Proof.Machine

/-! ### setCoef -/

@[simp] theorem setCoef_params (s : State) (i : Nat) (p : Half) : (s.setCoef i p).params = s.params := rfl
@[simp] theorem setCoef_cmd (s : State) (i : Nat) (p : Half) : (s.setCoef i p).cmd = s.cmd := rfl
@[simp] theorem setCoef_err (s : State) (i : Nat) (p : Half) : (s.setCoef i p).err = s.err := rfl
@[simp] theorem setCoef_phase (s : State) (i : Nat) (p : Half) : (s.setCoef i p).phase = s.phase := rfl
@[simp] theorem setCoef_arg0 (s : State) (i : Nat) (p : Half) : (s.setCoef i p).arg0 = s.arg0 := rfl
@[simp] theorem setCoef_arg1 (s : State) (i : Nat) (p : Half) : (s.setCoef i p).arg1 = s.arg1 := rfl
@[simp] theorem setCoef_arg2 (s : State) (i : Nat) (p : Half) : (s.setCoef i p).arg2 = s.arg2 := rfl
@[simp] theorem setCoef_arg3 (s : State) (i : Nat) (p : Half) : (s.setCoef i p).arg3 = s.arg3 := rfl
@[simp] theorem setCoef_res0 (s : State) (i : Nat) (p : Half) : (s.setCoef i p).res0 = s.res0 := rfl
@[simp] theorem setCoef_res1 (s : State) (i : Nat) (p : Half) : (s.setCoef i p).res1 = s.res1 := rfl
@[simp] theorem setCoef_cursor (s : State) (i : Nat) (p : Half) : (s.setCoef i p).cursor = s.cursor := rfl
@[simp] theorem setCoef_fs (s : State) (i : Nat) (p : Half) : (s.setCoef i p).fs = s.fs := rfl
@[simp] theorem setCoef_cram (s : State) (i : Nat) (p : Half) : (s.setCoef i p).cram = s.cram.set i p := rfl
@[simp] theorem setCoef_dlram (s : State) (i : Nat) (p : Half) : (s.setCoef i p).dlram = s.dlram := rfl
@[simp] theorem setCoef_mem (s : State) (i : Nat) (p : Half) : (s.setCoef i p).mem = s.mem := rfl
@[simp] theorem setCoef_script (s : State) (i : Nat) (p : Half) : (s.setCoef i p).script = s.script := rfl
@[simp] theorem setCoef_latency (s : State) (i : Nat) (p : Half) : (s.setCoef i p).latency = s.latency := rfl
@[simp] theorem setCoef_badRanges (s : State) (i : Nat) (p : Half) : (s.setCoef i p).badRanges = s.badRanges := rfl
@[simp] theorem setCoef_rdata (s : State) (i : Nat) (p : Half) : (s.setCoef i p).rdata = s.rdata := rfl
@[simp] theorem setCoef_draws (s : State) (i : Nat) (p : Half) : (s.setCoef i p).draws = s.draws := rfl

/-! ### setSlot -/

@[simp] theorem setSlot_params (s : State) (j : Nat) (p : Word) : (s.setSlot j p).params = s.params := rfl
@[simp] theorem setSlot_cmd (s : State) (j : Nat) (p : Word) : (s.setSlot j p).cmd = s.cmd := rfl
@[simp] theorem setSlot_err (s : State) (j : Nat) (p : Word) : (s.setSlot j p).err = s.err := rfl
@[simp] theorem setSlot_phase (s : State) (j : Nat) (p : Word) : (s.setSlot j p).phase = s.phase := rfl
@[simp] theorem setSlot_arg0 (s : State) (j : Nat) (p : Word) : (s.setSlot j p).arg0 = s.arg0 := rfl
@[simp] theorem setSlot_arg1 (s : State) (j : Nat) (p : Word) : (s.setSlot j p).arg1 = s.arg1 := rfl
@[simp] theorem setSlot_arg2 (s : State) (j : Nat) (p : Word) : (s.setSlot j p).arg2 = s.arg2 := rfl
@[simp] theorem setSlot_arg3 (s : State) (j : Nat) (p : Word) : (s.setSlot j p).arg3 = s.arg3 := rfl
@[simp] theorem setSlot_res0 (s : State) (j : Nat) (p : Word) : (s.setSlot j p).res0 = s.res0 := rfl
@[simp] theorem setSlot_res1 (s : State) (j : Nat) (p : Word) : (s.setSlot j p).res1 = s.res1 := rfl
@[simp] theorem setSlot_cursor (s : State) (j : Nat) (p : Word) : (s.setSlot j p).cursor = s.cursor := rfl
@[simp] theorem setSlot_fs (s : State) (j : Nat) (p : Word) : (s.setSlot j p).fs = s.fs := rfl
@[simp] theorem setSlot_cram (s : State) (j : Nat) (p : Word) : (s.setSlot j p).cram = s.cram := rfl
@[simp] theorem setSlot_dlram (s : State) (j : Nat) (p : Word) : (s.setSlot j p).dlram = s.dlram.set j p := rfl
@[simp] theorem setSlot_mem (s : State) (j : Nat) (p : Word) : (s.setSlot j p).mem = s.mem := rfl
@[simp] theorem setSlot_script (s : State) (j : Nat) (p : Word) : (s.setSlot j p).script = s.script := rfl
@[simp] theorem setSlot_latency (s : State) (j : Nat) (p : Word) : (s.setSlot j p).latency = s.latency := rfl
@[simp] theorem setSlot_badRanges (s : State) (j : Nat) (p : Word) : (s.setSlot j p).badRanges = s.badRanges := rfl
@[simp] theorem setSlot_rdata (s : State) (j : Nat) (p : Word) : (s.setSlot j p).rdata = s.rdata := rfl
@[simp] theorem setSlot_draws (s : State) (j : Nat) (p : Word) : (s.setSlot j p).draws = s.draws := rfl

/-! ### setChan -/

@[simp] theorem setChan_params (s : State) (c : Nat) (f : FilterState) : (s.setChan c f).params = s.params := rfl
@[simp] theorem setChan_cmd (s : State) (c : Nat) (f : FilterState) : (s.setChan c f).cmd = s.cmd := rfl
@[simp] theorem setChan_err (s : State) (c : Nat) (f : FilterState) : (s.setChan c f).err = s.err := rfl
@[simp] theorem setChan_phase (s : State) (c : Nat) (f : FilterState) : (s.setChan c f).phase = s.phase := rfl
@[simp] theorem setChan_arg0 (s : State) (c : Nat) (f : FilterState) : (s.setChan c f).arg0 = s.arg0 := rfl
@[simp] theorem setChan_arg1 (s : State) (c : Nat) (f : FilterState) : (s.setChan c f).arg1 = s.arg1 := rfl
@[simp] theorem setChan_arg2 (s : State) (c : Nat) (f : FilterState) : (s.setChan c f).arg2 = s.arg2 := rfl
@[simp] theorem setChan_arg3 (s : State) (c : Nat) (f : FilterState) : (s.setChan c f).arg3 = s.arg3 := rfl
@[simp] theorem setChan_res0 (s : State) (c : Nat) (f : FilterState) : (s.setChan c f).res0 = s.res0 := rfl
@[simp] theorem setChan_res1 (s : State) (c : Nat) (f : FilterState) : (s.setChan c f).res1 = s.res1 := rfl
@[simp] theorem setChan_cursor (s : State) (c : Nat) (f : FilterState) : (s.setChan c f).cursor = s.cursor := rfl
@[simp] theorem setChan_fs (s : State) (c : Nat) (f : FilterState) : (s.setChan c f).fs = s.fs.set c f := rfl
@[simp] theorem setChan_cram (s : State) (c : Nat) (f : FilterState) : (s.setChan c f).cram = s.cram := rfl
@[simp] theorem setChan_dlram (s : State) (c : Nat) (f : FilterState) : (s.setChan c f).dlram = s.dlram := rfl
@[simp] theorem setChan_mem (s : State) (c : Nat) (f : FilterState) : (s.setChan c f).mem = s.mem := rfl
@[simp] theorem setChan_script (s : State) (c : Nat) (f : FilterState) : (s.setChan c f).script = s.script := rfl
@[simp] theorem setChan_latency (s : State) (c : Nat) (f : FilterState) : (s.setChan c f).latency = s.latency := rfl
@[simp] theorem setChan_badRanges (s : State) (c : Nat) (f : FilterState) : (s.setChan c f).badRanges = s.badRanges := rfl
@[simp] theorem setChan_rdata (s : State) (c : Nat) (f : FilterState) : (s.setChan c f).rdata = s.rdata := rfl
@[simp] theorem setChan_draws (s : State) (c : Nat) (f : FilterState) : (s.setChan c f).draws = s.draws := rfl

/-! ### endCommand -/

@[simp] theorem endCommand_params (e : ErrCode) (s : State) : (endCommand e s).params = s.params := rfl
@[simp] theorem endCommand_cmd (e : ErrCode) (s : State) : (endCommand e s).cmd = s.cmd := rfl
@[simp] theorem endCommand_err (e : ErrCode) (s : State) : (endCommand e s).err = e := rfl
@[simp] theorem endCommand_phase (e : ErrCode) (s : State) : (endCommand e s).phase = .unseen := rfl
@[simp] theorem endCommand_arg0 (e : ErrCode) (s : State) : (endCommand e s).arg0 = s.arg0 := rfl
@[simp] theorem endCommand_arg1 (e : ErrCode) (s : State) : (endCommand e s).arg1 = s.arg1 := rfl
@[simp] theorem endCommand_arg2 (e : ErrCode) (s : State) : (endCommand e s).arg2 = s.arg2 := rfl
@[simp] theorem endCommand_arg3 (e : ErrCode) (s : State) : (endCommand e s).arg3 = s.arg3 := rfl
@[simp] theorem endCommand_res0 (e : ErrCode) (s : State) : (endCommand e s).res0 = s.res0 := rfl
@[simp] theorem endCommand_res1 (e : ErrCode) (s : State) : (endCommand e s).res1 = s.res1 := rfl
@[simp] theorem endCommand_cursor (e : ErrCode) (s : State) : (endCommand e s).cursor = s.cursor := rfl
@[simp] theorem endCommand_fs (e : ErrCode) (s : State) : (endCommand e s).fs = s.fs := rfl
@[simp] theorem endCommand_cram (e : ErrCode) (s : State) : (endCommand e s).cram = s.cram := rfl
@[simp] theorem endCommand_dlram (e : ErrCode) (s : State) : (endCommand e s).dlram = s.dlram := rfl
@[simp] theorem endCommand_mem (e : ErrCode) (s : State) : (endCommand e s).mem = s.mem := rfl
@[simp] theorem endCommand_script (e : ErrCode) (s : State) : (endCommand e s).script = s.script := rfl
@[simp] theorem endCommand_latency (e : ErrCode) (s : State) : (endCommand e s).latency = s.latency := rfl
@[simp] theorem endCommand_badRanges (e : ErrCode) (s : State) : (endCommand e s).badRanges = s.badRanges := rfl
@[simp] theorem endCommand_rdata (e : ErrCode) (s : State) : (endCommand e s).rdata = s.rdata := rfl
@[simp] theorem endCommand_draws (e : ErrCode) (s : State) : (endCommand e s).draws = s.draws := rfl

/-! ### setRes0 -/

@[simp] theorem setRes0_params (r : Word) (s : State) : (setRes0 r s).params = s.params := rfl
@[simp] theorem setRes0_cmd (r : Word) (s : State) : (setRes0 r s).cmd = s.cmd := rfl
@[simp] theorem setRes0_err (r : Word) (s : State) : (setRes0 r s).err = s.err := rfl
@[simp] theorem setRes0_phase (r : Word) (s : State) : (setRes0 r s).phase = s.phase := rfl
@[simp] theorem setRes0_arg0 (r : Word) (s : State) : (setRes0 r s).arg0 = s.arg0 := rfl
@[simp] theorem setRes0_arg1 (r : Word) (s : State) : (setRes0 r s).arg1 = s.arg1 := rfl
@[simp] theorem setRes0_arg2 (r : Word) (s : State) : (setRes0 r s).arg2 = s.arg2 := rfl
@[simp] theorem setRes0_arg3 (r : Word) (s : State) : (setRes0 r s).arg3 = s.arg3 := rfl
@[simp] theorem setRes0_res0 (r : Word) (s : State) : (setRes0 r s).res0 = r := rfl
@[simp] theorem setRes0_res1 (r : Word) (s : State) : (setRes0 r s).res1 = s.res1 := rfl
@[simp] theorem setRes0_cursor (r : Word) (s : State) : (setRes0 r s).cursor = s.cursor := rfl
@[simp] theorem setRes0_fs (r : Word) (s : State) : (setRes0 r s).fs = s.fs := rfl
@[simp] theorem setRes0_cram (r : Word) (s : State) : (setRes0 r s).cram = s.cram := rfl
@[simp] theorem setRes0_dlram (r : Word) (s : State) : (setRes0 r s).dlram = s.dlram := rfl
@[simp] theorem setRes0_mem (r : Word) (s : State) : (setRes0 r s).mem = s.mem := rfl
@[simp] theorem setRes0_script (r : Word) (s : State) : (setRes0 r s).script = s.script := rfl
@[simp] theorem setRes0_latency (r : Word) (s : State) : (setRes0 r s).latency = s.latency := rfl
@[simp] theorem setRes0_badRanges (r : Word) (s : State) : (setRes0 r s).badRanges = s.badRanges := rfl
@[simp] theorem setRes0_rdata (r : Word) (s : State) : (setRes0 r s).rdata = s.rdata := rfl
@[simp] theorem setRes0_draws (r : Word) (s : State) : (setRes0 r s).draws = s.draws := rfl

/-! ### setResults -/

@[simp] theorem setResults_params (r0 r1 : Word) (s : State) : (setResults r0 r1 s).params = s.params := rfl
@[simp] theorem setResults_cmd (r0 r1 : Word) (s : State) : (setResults r0 r1 s).cmd = s.cmd := rfl
@[simp] theorem setResults_err (r0 r1 : Word) (s : State) : (setResults r0 r1 s).err = s.err := rfl
@[simp] theorem setResults_phase (r0 r1 : Word) (s : State) : (setResults r0 r1 s).phase = s.phase := rfl
@[simp] theorem setResults_arg0 (r0 r1 : Word) (s : State) : (setResults r0 r1 s).arg0 = s.arg0 := rfl
@[simp] theorem setResults_arg1 (r0 r1 : Word) (s : State) : (setResults r0 r1 s).arg1 = s.arg1 := rfl
@[simp] theorem setResults_arg2 (r0 r1 : Word) (s : State) : (setResults r0 r1 s).arg2 = s.arg2 := rfl
@[simp] theorem setResults_arg3 (r0 r1 : Word) (s : State) : (setResults r0 r1 s).arg3 = s.arg3 := rfl
@[simp] theorem setResults_res0 (r0 r1 : Word) (s : State) : (setResults r0 r1 s).res0 = r0 := rfl
@[simp] theorem setResults_res1 (r0 r1 : Word) (s : State) : (setResults r0 r1 s).res1 = r1 := rfl
@[simp] theorem setResults_cursor (r0 r1 : Word) (s : State) : (setResults r0 r1 s).cursor = s.cursor := rfl
@[simp] theorem setResults_fs (r0 r1 : Word) (s : State) : (setResults r0 r1 s).fs = s.fs := rfl
@[simp] theorem setResults_cram (r0 r1 : Word) (s : State) : (setResults r0 r1 s).cram = s.cram := rfl
@[simp] theorem setResults_dlram (r0 r1 : Word) (s : State) : (setResults r0 r1 s).dlram = s.dlram := rfl
@[simp] theorem setResults_mem (r0 r1 : Word) (s : State) : (setResults r0 r1 s).mem = s.mem := rfl
@[simp] theorem setResults_script (r0 r1 : Word) (s : State) : (setResults r0 r1 s).script = s.script := rfl
@[simp] theorem setResults_latency (r0 r1 : Word) (s : State) : (setResults r0 r1 s).latency = s.latency := rfl
@[simp] theorem setResults_badRanges (r0 r1 : Word) (s : State) : (setResults r0 r1 s).badRanges = s.badRanges := rfl
@[simp] theorem setResults_rdata (r0 r1 : Word) (s : State) : (setResults r0 r1 s).rdata = s.rdata := rfl
@[simp] theorem setResults_draws (r0 r1 : Word) (s : State) : (setResults r0 r1 s).draws = s.draws := rfl

/-! ### startCommand -/

@[simp] theorem startCommand_params (w : Word) (s : State) : (startCommand w s).params = s.params := rfl
@[simp] theorem startCommand_cmd (w : Word) (s : State) : (startCommand w s).cmd = w := rfl
@[simp] theorem startCommand_err (w : Word) (s : State) : (startCommand w s).err = .ok := rfl
@[simp] theorem startCommand_phase (w : Word) (s : State) : (startCommand w s).phase = .running (s.latency.headD 0) := rfl
@[simp] theorem startCommand_arg0 (w : Word) (s : State) : (startCommand w s).arg0 = s.arg0 := rfl
@[simp] theorem startCommand_arg1 (w : Word) (s : State) : (startCommand w s).arg1 = s.arg1 := rfl
@[simp] theorem startCommand_arg2 (w : Word) (s : State) : (startCommand w s).arg2 = s.arg2 := rfl
@[simp] theorem startCommand_arg3 (w : Word) (s : State) : (startCommand w s).arg3 = s.arg3 := rfl
@[simp] theorem startCommand_res0 (w : Word) (s : State) : (startCommand w s).res0 = s.res0 := rfl
@[simp] theorem startCommand_res1 (w : Word) (s : State) : (startCommand w s).res1 = s.res1 := rfl
@[simp] theorem startCommand_cursor (w : Word) (s : State) : (startCommand w s).cursor = s.cursor := rfl
@[simp] theorem startCommand_fs (w : Word) (s : State) : (startCommand w s).fs = s.fs := rfl
@[simp] theorem startCommand_cram (w : Word) (s : State) : (startCommand w s).cram = s.cram := rfl
@[simp] theorem startCommand_dlram (w : Word) (s : State) : (startCommand w s).dlram = s.dlram := rfl
@[simp] theorem startCommand_mem (w : Word) (s : State) : (startCommand w s).mem = s.mem := rfl
@[simp] theorem startCommand_script (w : Word) (s : State) : (startCommand w s).script = s.script := rfl
@[simp] theorem startCommand_latency (w : Word) (s : State) : (startCommand w s).latency = s.latency.tail := rfl
@[simp] theorem startCommand_badRanges (w : Word) (s : State) : (startCommand w s).badRanges = s.badRanges := rfl
@[simp] theorem startCommand_rdata (w : Word) (s : State) : (startCommand w s).rdata = s.rdata := rfl
@[simp] theorem startCommand_draws (w : Word) (s : State) : (startCommand w s).draws = s.draws := rfl

/-! ### withCommand -/

@[simp] theorem withCommand_params (w : Word) (s : State) : (withCommand w s).params = s.params := rfl
@[simp] theorem withCommand_cmd (w : Word) (s : State) : (withCommand w s).cmd = w := rfl
@[simp] theorem withCommand_err (w : Word) (s : State) : (withCommand w s).err = .ok := rfl
@[simp] theorem withCommand_phase (w : Word) (s : State) : (withCommand w s).phase = .running 0 := rfl
@[simp] theorem withCommand_arg0 (w : Word) (s : State) : (withCommand w s).arg0 = s.arg0 := rfl
@[simp] theorem withCommand_arg1 (w : Word) (s : State) : (withCommand w s).arg1 = s.arg1 := rfl
@[simp] theorem withCommand_arg2 (w : Word) (s : State) : (withCommand w s).arg2 = s.arg2 := rfl
@[simp] theorem withCommand_arg3 (w : Word) (s : State) : (withCommand w s).arg3 = s.arg3 := rfl
@[simp] theorem withCommand_res0 (w : Word) (s : State) : (withCommand w s).res0 = s.res0 := rfl
@[simp] theorem withCommand_res1 (w : Word) (s : State) : (withCommand w s).res1 = s.res1 := rfl
@[simp] theorem withCommand_cursor (w : Word) (s : State) : (withCommand w s).cursor = s.cursor := rfl
@[simp] theorem withCommand_fs (w : Word) (s : State) : (withCommand w s).fs = s.fs := rfl
@[simp] theorem withCommand_cram (w : Word) (s : State) : (withCommand w s).cram = s.cram := rfl
@[simp] theorem withCommand_dlram (w : Word) (s : State) : (withCommand w s).dlram = s.dlram := rfl
@[simp] theorem withCommand_mem (w : Word) (s : State) : (withCommand w s).mem = s.mem := rfl
@[simp] theorem withCommand_script (w : Word) (s : State) : (withCommand w s).script = s.script := rfl
@[simp] theorem withCommand_latency (w : Word) (s : State) : (withCommand w s).latency = s.latency := rfl
@[simp] theorem withCommand_badRanges (w : Word) (s : State) : (withCommand w s).badRanges = s.badRanges := rfl
@[simp] theorem withCommand_rdata (w : Word) (s : State) : (withCommand w s).rdata = s.rdata := rfl
@[simp] theorem withCommand_draws (w : Word) (s : State) : (withCommand w s).draws = s.draws := rfl

/-! ### returnWord -/

@[simp] theorem returnWord_params (w : Word) (s : State) : (returnWord w s).params = s.params := rfl
@[simp] theorem returnWord_cmd (w : Word) (s : State) : (returnWord w s).cmd = s.cmd := rfl
@[simp] theorem returnWord_err (w : Word) (s : State) : (returnWord w s).err = s.err := rfl
@[simp] theorem returnWord_phase (w : Word) (s : State) : (returnWord w s).phase = s.phase := rfl
@[simp] theorem returnWord_arg0 (w : Word) (s : State) : (returnWord w s).arg0 = s.arg0 := rfl
@[simp] theorem returnWord_arg1 (w : Word) (s : State) : (returnWord w s).arg1 = s.arg1 := rfl
@[simp] theorem returnWord_arg2 (w : Word) (s : State) : (returnWord w s).arg2 = s.arg2 := rfl
@[simp] theorem returnWord_arg3 (w : Word) (s : State) : (returnWord w s).arg3 = s.arg3 := rfl
@[simp] theorem returnWord_res0 (w : Word) (s : State) : (returnWord w s).res0 = s.res0 := rfl
@[simp] theorem returnWord_res1 (w : Word) (s : State) : (returnWord w s).res1 = s.res1 := rfl
@[simp] theorem returnWord_cursor (w : Word) (s : State) : (returnWord w s).cursor = s.cursor := rfl
@[simp] theorem returnWord_fs (w : Word) (s : State) : (returnWord w s).fs = s.fs := rfl
@[simp] theorem returnWord_cram (w : Word) (s : State) : (returnWord w s).cram = s.cram := rfl
@[simp] theorem returnWord_dlram (w : Word) (s : State) : (returnWord w s).dlram = s.dlram := rfl
@[simp] theorem returnWord_mem (w : Word) (s : State) : (returnWord w s).mem = s.mem := rfl
@[simp] theorem returnWord_script (w : Word) (s : State) : (returnWord w s).script = s.script := rfl
@[simp] theorem returnWord_latency (w : Word) (s : State) : (returnWord w s).latency = s.latency := rfl
@[simp] theorem returnWord_badRanges (w : Word) (s : State) : (returnWord w s).badRanges = s.badRanges := rfl
@[simp] theorem returnWord_rdata (w : Word) (s : State) : (returnWord w s).rdata = w := rfl
@[simp] theorem returnWord_draws (w : Word) (s : State) : (returnWord w s).draws = s.draws := rfl

/-! ### returnFree -/

@[simp] theorem returnFree_params (s : State) : (returnFree s).params = s.params := rfl
@[simp] theorem returnFree_cmd (s : State) : (returnFree s).cmd = s.cmd := rfl
@[simp] theorem returnFree_err (s : State) : (returnFree s).err = s.err := rfl
@[simp] theorem returnFree_phase (s : State) : (returnFree s).phase = s.phase := rfl
@[simp] theorem returnFree_arg0 (s : State) : (returnFree s).arg0 = s.arg0 := rfl
@[simp] theorem returnFree_arg1 (s : State) : (returnFree s).arg1 = s.arg1 := rfl
@[simp] theorem returnFree_arg2 (s : State) : (returnFree s).arg2 = s.arg2 := rfl
@[simp] theorem returnFree_arg3 (s : State) : (returnFree s).arg3 = s.arg3 := rfl
@[simp] theorem returnFree_res0 (s : State) : (returnFree s).res0 = s.res0 := rfl
@[simp] theorem returnFree_res1 (s : State) : (returnFree s).res1 = s.res1 := rfl
@[simp] theorem returnFree_cursor (s : State) : (returnFree s).cursor = s.cursor := rfl
@[simp] theorem returnFree_fs (s : State) : (returnFree s).fs = s.fs := rfl
@[simp] theorem returnFree_cram (s : State) : (returnFree s).cram = s.cram := rfl
@[simp] theorem returnFree_dlram (s : State) : (returnFree s).dlram = s.dlram := rfl
@[simp] theorem returnFree_mem (s : State) : (returnFree s).mem = s.mem := rfl
@[simp] theorem returnFree_script (s : State) : (returnFree s).script = s.script := rfl
@[simp] theorem returnFree_latency (s : State) : (returnFree s).latency = s.latency := rfl
@[simp] theorem returnFree_badRanges (s : State) : (returnFree s).badRanges = s.badRanges := rfl
@[simp] theorem returnFree_rdata (s : State) : (returnFree s).rdata = Config.freeWord s.draws := rfl
@[simp] theorem returnFree_draws (s : State) : (returnFree s).draws = s.draws + 1 := rfl

/-! ### writeElem -/

@[simp] theorem writeElem_params (fmt : Format) (dst N f c : Nat) (y : Int) (s : State) : (writeElem fmt dst N f c y s).params = s.params := rfl
@[simp] theorem writeElem_cmd (fmt : Format) (dst N f c : Nat) (y : Int) (s : State) : (writeElem fmt dst N f c y s).cmd = s.cmd := rfl
@[simp] theorem writeElem_err (fmt : Format) (dst N f c : Nat) (y : Int) (s : State) : (writeElem fmt dst N f c y s).err = s.err := rfl
@[simp] theorem writeElem_phase (fmt : Format) (dst N f c : Nat) (y : Int) (s : State) : (writeElem fmt dst N f c y s).phase = s.phase := rfl
@[simp] theorem writeElem_arg0 (fmt : Format) (dst N f c : Nat) (y : Int) (s : State) : (writeElem fmt dst N f c y s).arg0 = s.arg0 := rfl
@[simp] theorem writeElem_arg1 (fmt : Format) (dst N f c : Nat) (y : Int) (s : State) : (writeElem fmt dst N f c y s).arg1 = s.arg1 := rfl
@[simp] theorem writeElem_arg2 (fmt : Format) (dst N f c : Nat) (y : Int) (s : State) : (writeElem fmt dst N f c y s).arg2 = s.arg2 := rfl
@[simp] theorem writeElem_arg3 (fmt : Format) (dst N f c : Nat) (y : Int) (s : State) : (writeElem fmt dst N f c y s).arg3 = s.arg3 := rfl
@[simp] theorem writeElem_res0 (fmt : Format) (dst N f c : Nat) (y : Int) (s : State) : (writeElem fmt dst N f c y s).res0 = s.res0 := rfl
@[simp] theorem writeElem_res1 (fmt : Format) (dst N f c : Nat) (y : Int) (s : State) : (writeElem fmt dst N f c y s).res1 = s.res1 := rfl
@[simp] theorem writeElem_cursor (fmt : Format) (dst N f c : Nat) (y : Int) (s : State) : (writeElem fmt dst N f c y s).cursor = s.cursor := rfl
@[simp] theorem writeElem_fs (fmt : Format) (dst N f c : Nat) (y : Int) (s : State) : (writeElem fmt dst N f c y s).fs = s.fs := rfl
@[simp] theorem writeElem_cram (fmt : Format) (dst N f c : Nat) (y : Int) (s : State) : (writeElem fmt dst N f c y s).cram = s.cram := rfl
@[simp] theorem writeElem_dlram (fmt : Format) (dst N f c : Nat) (y : Int) (s : State) : (writeElem fmt dst N f c y s).dlram = s.dlram := rfl
@[simp] theorem writeElem_mem (fmt : Format) (dst N f c : Nat) (y : Int) (s : State) : (writeElem fmt dst N f c y s).mem = memWriteLE s.mem (elemAddr fmt dst N f c) (elemSize fmt) (postPattern fmt y) := rfl
@[simp] theorem writeElem_script (fmt : Format) (dst N f c : Nat) (y : Int) (s : State) : (writeElem fmt dst N f c y s).script = s.script := rfl
@[simp] theorem writeElem_latency (fmt : Format) (dst N f c : Nat) (y : Int) (s : State) : (writeElem fmt dst N f c y s).latency = s.latency := rfl
@[simp] theorem writeElem_badRanges (fmt : Format) (dst N f c : Nat) (y : Int) (s : State) : (writeElem fmt dst N f c y s).badRanges = s.badRanges := rfl
@[simp] theorem writeElem_rdata (fmt : Format) (dst N f c : Nat) (y : Int) (s : State) : (writeElem fmt dst N f c y s).rdata = s.rdata := rfl
@[simp] theorem writeElem_draws (fmt : Format) (dst N f c : Nat) (y : Int) (s : State) : (writeElem fmt dst N f c y s).draws = s.draws := rfl

/-! ### The bank and the RAMs -/

@[simp] theorem chan_setSlot (s : State) (j c : Nat) (p : Word) : (s.setSlot j p).chan c = s.chan c := rfl
@[simp] theorem chan_setCoef (s : State) (i c : Nat) (p : Half) : (s.setCoef i p).chan c = s.chan c := rfl
@[simp] theorem chan_endCommand (e : ErrCode) (s : State) (c : Nat) : (endCommand e s).chan c = s.chan c := rfl
@[simp] theorem chan_setRes0 (r : Word) (s : State) (c : Nat) : (setRes0 r s).chan c = s.chan c := rfl
@[simp] theorem chan_setResults (r0 r1 : Word) (s : State) (c : Nat) : (setResults r0 r1 s).chan c = s.chan c := rfl
@[simp] theorem chan_writeElem (fmt : Format) (dst N f c : Nat) (y : Int) (s : State) (d : Nat) :
    (writeElem fmt dst N f c y s).chan d = s.chan d := rfl
@[simp] theorem slot_setChan (s : State) (c j : Nat) (f : FilterState) : (s.setChan c f).slot j = s.slot j := rfl
@[simp] theorem slot_endCommand (e : ErrCode) (s : State) (j : Nat) : (endCommand e s).slot j = s.slot j := rfl
@[simp] theorem slot_writeElem (fmt : Format) (dst N f c : Nat) (y : Int) (s : State) (j : Nat) :
    (writeElem fmt dst N f c y s).slot j = s.slot j := rfl
@[simp] theorem coef_setChan (s : State) (c i : Nat) (f : FilterState) : (s.setChan c f).coef i = s.coef i := rfl
@[simp] theorem coef_setSlot (s : State) (j i : Nat) (p : Word) : (s.setSlot j p).coef i = s.coef i := rfl

theorem chan_setChan_same (s : State) {c : Nat} (f : FilterState) (h : c < s.fs.length) : (s.setChan c f).chan c = f := by
  simp [State.chan, h]

theorem chan_setChan_other (s : State) {c d : Nat} (f : FilterState) (h : c ≠ d) : (s.setChan c f).chan d = s.chan d := by
  simp [State.chan, List.getElem?_set_ne h]

/-- A channel outside the bank reads as UNINIT, so writing it changes nothing. -/
theorem chan_uninit_of_le (s : State) {c : Nat} (h : s.fs.length ≤ c) : s.chan c = .uninit := by
  simp [State.chan, h]

/-- A channel that is not UNINIT lies in the bank. -/
theorem lt_length_of_active (s : State) {c : Nat} (h : (s.chan c).LC = .active) : c < s.fs.length := by
  by_contra hc
  rw [chan_uninit_of_le s (Nat.le_of_not_lt hc)] at h
  exact absurd h (by decide)

theorem slot_setSlot_same (s : State) {j : Nat} (p : Word) (h : j < s.dlram.length) : (s.setSlot j p).slot j = p := by
  simp [State.slot, h]

theorem slot_setSlot_other (s : State) {i j : Nat} (p : Word) (h : i ≠ j) : (s.setSlot i p).slot j = s.slot j := by
  simp [State.slot, List.getElem?_set_ne h]

theorem coef_setCoef_same (s : State) {i : Nat} (p : Half) (h : i < s.cram.length) : (s.setCoef i p).coef i = p := by
  simp [State.coef, h]

theorem coef_setCoef_other (s : State) {i j : Nat} (p : Half) (h : i ≠ j) : (s.setCoef i p).coef j = s.coef j := by
  simp [State.coef, List.getElem?_set_ne h]

/-- The bank's FilterStates are its entries. -/
theorem chan_mem (s : State) {c : Nat} (h : c < s.fs.length) : s.chan c ∈ s.fs := by
  simp [State.chan, h]

end Sys2Proof.Machine
end

