-- ==== Sys2Proof/Laws/DelayLine.lean ====
section
/-! SUPPORT. The delay line (rules R77 to R79) and the kernel over it (R99 to R103): what a push changes, how the tap window
moves, and what one kernel step can do. -/

namespace Sys2Proof.Machine

/-! ### What a push changes -/

/-- A push changes DLRAM and the bank, nothing else. -/
theorem dlPush_eq (c : Nat) (p : Word) (s : State) :
    dlPush c p s = { s with dlram := (dlPush c p s).dlram, fs := (dlPush c p s).fs } := rfl

theorem dlPush_dlram (c : Nat) (p : Word) (s : State) :
    (dlPush c p s).dlram = s.dlram.set ((s.chan c).dlBase.toNat + (s.chan c).wp.toNat) p := rfl

theorem dlPush_fs (c : Nat) (p : Word) (s : State) :
    (dlPush c p s).fs =
      s.fs.set c { s.chan c with wp := BitVec.ofNat 16 (((s.chan c).wp.toNat + 1) % (s.chan c).L.toNat) } := rfl

@[simp] theorem dlPush_params (c : Nat) (p : Word) (s : State) : (dlPush c p s).params = s.params := rfl
@[simp] theorem dlPush_cmd (c : Nat) (p : Word) (s : State) : (dlPush c p s).cmd = s.cmd := rfl
@[simp] theorem dlPush_err (c : Nat) (p : Word) (s : State) : (dlPush c p s).err = s.err := rfl
@[simp] theorem dlPush_phase (c : Nat) (p : Word) (s : State) : (dlPush c p s).phase = s.phase := rfl
@[simp] theorem dlPush_arg0 (c : Nat) (p : Word) (s : State) : (dlPush c p s).arg0 = s.arg0 := rfl
@[simp] theorem dlPush_arg1 (c : Nat) (p : Word) (s : State) : (dlPush c p s).arg1 = s.arg1 := rfl
@[simp] theorem dlPush_arg2 (c : Nat) (p : Word) (s : State) : (dlPush c p s).arg2 = s.arg2 := rfl
@[simp] theorem dlPush_arg3 (c : Nat) (p : Word) (s : State) : (dlPush c p s).arg3 = s.arg3 := rfl
@[simp] theorem dlPush_res0 (c : Nat) (p : Word) (s : State) : (dlPush c p s).res0 = s.res0 := rfl
@[simp] theorem dlPush_res1 (c : Nat) (p : Word) (s : State) : (dlPush c p s).res1 = s.res1 := rfl
@[simp] theorem dlPush_cursor (c : Nat) (p : Word) (s : State) : (dlPush c p s).cursor = s.cursor := rfl
@[simp] theorem dlPush_cram (c : Nat) (p : Word) (s : State) : (dlPush c p s).cram = s.cram := rfl
@[simp] theorem dlPush_mem (c : Nat) (p : Word) (s : State) : (dlPush c p s).mem = s.mem := rfl
@[simp] theorem dlPush_script (c : Nat) (p : Word) (s : State) : (dlPush c p s).script = s.script := rfl
@[simp] theorem dlPush_latency (c : Nat) (p : Word) (s : State) : (dlPush c p s).latency = s.latency := rfl
@[simp] theorem dlPush_badRanges (c : Nat) (p : Word) (s : State) : (dlPush c p s).badRanges = s.badRanges := rfl
@[simp] theorem dlPush_rdata (c : Nat) (p : Word) (s : State) : (dlPush c p s).rdata = s.rdata := rfl
@[simp] theorem dlPush_draws (c : Nat) (p : Word) (s : State) : (dlPush c p s).draws = s.draws := rfl
@[simp] theorem dlPush_coef (c : Nat) (p : Word) (s : State) (i : Nat) : (dlPush c p s).coef i = s.coef i := rfl
@[simp] theorem dlPush_dlram_length (c : Nat) (p : Word) (s : State) : (dlPush c p s).dlram.length = s.dlram.length := by
  simp [dlPush_dlram]
@[simp] theorem dlPush_fs_length (c : Nat) (p : Word) (s : State) : (dlPush c p s).fs.length = s.fs.length := by
  simp [dlPush_fs]

/-- The pushed channel keeps every field but wp. -/
theorem dlPush_chan_same (s : State) {c : Nat} (p : Word) (h : c < s.fs.length) :
    (dlPush c p s).chan c =
      { s.chan c with wp := BitVec.ofNat 16 (((s.chan c).wp.toNat + 1) % (s.chan c).L.toNat) } := by
  simp [State.chan, dlPush_fs, h]

theorem dlPush_chan_other (s : State) {c d : Nat} (p : Word) (h : c ≠ d) : (dlPush c p s).chan d = s.chan d := by
  simp [State.chan, dlPush_fs, List.getElem?_set_ne h]

/-- Whatever the channel, only `wp` can differ after a push. -/
theorem dlPush_chan (s : State) (c d : Nat) (p : Word) :
    (dlPush c p s).chan d = { s.chan d with wp := ((dlPush c p s).chan d).wp } := by
  by_cases h : c = d
  · subst h
    by_cases hc : c < s.fs.length
    · rw [dlPush_chan_same s p hc]
    · have hle := Nat.le_of_not_lt hc
      rw [chan_uninit_of_le s hle, chan_uninit_of_le _ (by simpa using hle)]
  · rw [dlPush_chan_other s p h]

@[simp] theorem dlPush_chan_LC (s : State) (c d : Nat) (p : Word) : ((dlPush c p s).chan d).LC = (s.chan d).LC := by
  rw [dlPush_chan]
@[simp] theorem dlPush_chan_T (s : State) (c d : Nat) (p : Word) : ((dlPush c p s).chan d).T = (s.chan d).T := by
  rw [dlPush_chan]
@[simp] theorem dlPush_chan_L (s : State) (c d : Nat) (p : Word) : ((dlPush c p s).chan d).L = (s.chan d).L := by
  rw [dlPush_chan]
@[simp] theorem dlPush_chan_S (s : State) (c d : Nat) (p : Word) : ((dlPush c p s).chan d).S = (s.chan d).S := by
  rw [dlPush_chan]
@[simp] theorem dlPush_chan_coefBase (s : State) (c d : Nat) (p : Word) :
    ((dlPush c p s).chan d).coefBase = (s.chan d).coefBase := by
  rw [dlPush_chan]
@[simp] theorem dlPush_chan_dlBase (s : State) (c d : Nat) (p : Word) :
    ((dlPush c p s).chan d).dlBase = (s.chan d).dlBase := by
  rw [dlPush_chan]

@[simp] theorem dlPush_coefOf (s : State) (c d k : Nat) (p : Word) : coefOf (dlPush c p s) d k = coefOf s d k := by
  simp [coefOf]

/-- The cursor after a push (rule R77), as a number. -/
theorem dlPush_wp_toNat (s : State) {c : Nat} (p : Word) (h : c < s.fs.length) (hL : 0 < (s.chan c).L.toNat) :
    ((dlPush c p s).chan c).wp.toNat = ((s.chan c).wp.toNat + 1) % (s.chan c).L.toNat := by
  rw [dlPush_chan_same s p h]
  have h1 := Nat.mod_lt ((s.chan c).wp.toNat + 1) hL
  have h2 := (s.chan c).L.isLt
  simp only [BitVec.toNat_ofNat]
  exact Nat.mod_eq_of_lt (by omega)

theorem dlPush_slot_same (s : State) {c : Nat} (p : Word)
    (h : (s.chan c).dlBase.toNat + (s.chan c).wp.toNat < s.dlram.length) :
    (dlPush c p s).slot ((s.chan c).dlBase.toNat + (s.chan c).wp.toNat) = p := by
  simp [State.slot, dlPush_dlram, h]

theorem dlPush_slot_other (s : State) {c j : Nat} (p : Word) (h : j ≠ (s.chan c).dlBase.toNat + (s.chan c).wp.toNat) :
    (dlPush c p s).slot j = s.slot j := by
  simp [State.slot, dlPush_dlram, List.getElem?_set_ne (Ne.symm h)]

/-! ### The tap window -/

/-- Where position k of the window lies, without integers: k places behind the newest slot. -/
theorem tapSlot_eq {f : FilterState} {k : Nat} (hw : f.wp.toNat < f.L.toNat) (hk : k < f.L.toNat) :
    tapSlot f k = f.dlBase.toNat + (if k < f.wp.toNat then f.wp.toNat - 1 - k else f.wp.toNat + f.L.toNat - 1 - k) := by
  unfold tapSlot
  congr 1
  split
  · next h =>
    rw [Int.emod_eq_of_lt (by omega) (by omega)]
    omega
  · next h =>
    have : ((f.wp.toNat : Int) - 1 - k) % (f.L.toNat : Int) = (f.wp.toNat : Int) - 1 - k + f.L.toNat := by
      rw [← Int.add_emod_right, Int.emod_eq_of_lt (by omega) (by omega)]
    rw [this]
    omega

/-- Every position of the window lies in the bound region. -/
theorem tapSlot_mem {f : FilterState} {k : Nat} (hL : 0 < f.L.toNat) :
    f.dlBase.toNat ≤ tapSlot f k ∧ tapSlot f k < f.dlBase.toNat + f.L.toNat := by
  have h1 := Int.emod_nonneg ((f.wp.toNat : Int) - 1 - k) (b := (f.L.toNat : Int)) (by omega)
  have h2 := Int.emod_lt_of_pos ((f.wp.toNat : Int) - 1 - k) (b := (f.L.toNat : Int)) (by omega)
  unfold tapSlot
  omega

/-- Where position k of the window lies after the cursor has advanced by F (rules R77, R78). -/
theorem tapSlot_advanced {f g : FilterState} {F k : Nat} (hB : g.dlBase = f.dlBase) (hL : g.L = f.L)
    (hw : g.wp.toNat = (f.wp.toNat + F) % f.L.toNat) :
    tapSlot g k = f.dlBase.toNat + (((f.wp.toNat : Int) + F - 1 - k) % (f.L.toNat : Int)).toNat := by
  rw [tapSlot, hB, hL, hw, Int.natCast_emod, Int.natCast_add, Int.sub_sub, Int.sub_sub, Int.emod_sub_emod]

/-- The first F positions lie at the slots the F pushes have reached. -/
theorem tapSlot_advanced_new {f g : FilterState} {F k : Nat} (hB : g.dlBase = f.dlBase) (hL : g.L = f.L)
    (hw : g.wp.toNat = (f.wp.toNat + F) % f.L.toNat) (hk : k < F) :
    tapSlot g k = f.dlBase.toNat + (f.wp.toNat + (F - 1 - k)) % f.L.toNat := by
  rw [tapSlot_advanced hB hL hw, show (f.wp.toNat : Int) + F - 1 - k = ((f.wp.toNat + (F - 1 - k) : Nat) : Int) by omega,
    ← Int.natCast_emod, Int.toNat_natCast]

/-- Every other position lies where it lay, F places nearer, before. -/
theorem tapSlot_advanced_old {f g : FilterState} {F k : Nat} (hB : g.dlBase = f.dlBase) (hL : g.L = f.L)
    (hw : g.wp.toNat = (f.wp.toNat + F) % f.L.toNat) (hk : F ≤ k) : tapSlot g k = tapSlot f (k - F) := by
  rw [tapSlot_advanced hB hL hw, tapSlot, show (f.wp.toNat : Int) + F - 1 - k = f.wp.toNat - 1 - ((k - F : Nat) : Int) by omega]

/-- What a push needs of its channel: the region lies in DLRAM and the cursor in the region (rule R24). -/
structure Bound (s : State) (c : Nat) : Prop where
  inBank : c < s.fs.length
  window : (s.chan c).T.toNat < (s.chan c).L.toNat
  region : (s.chan c).dlBase.toNat + (s.chan c).L.toNat ≤ s.dlram.length
  cursor : (s.chan c).wp.toNat < (s.chan c).L.toNat

/-- A bound channel stays bound after a push on any channel. -/
theorem Bound.push {s : State} {c : Nat} (hc : Bound s c) (d : Nat) (p : Word) : Bound (dlPush d p s) c := by
  refine ⟨by simpa using hc.inBank, by simpa using hc.window, by simpa using hc.region, ?_⟩
  by_cases h : d = c
  · subst h
    rw [dlPush_wp_toNat s p hc.inBank (by have := hc.window; omega), dlPush_chan_L]
    exact Nat.mod_lt _ (by have := hc.window; omega)
  · rw [dlPush_chan_other s p h]
    exact hc.cursor

/-- Position 0 of the window is the sample just pushed (rule R78). -/
theorem tap_dlPush_zero {s : State} {c : Nat} (h : Bound s c) (p : Word) : tap (dlPush c p s) c 0 = sext 32 p := by
  have hL : 0 < (s.chan c).L.toNat := by have := h.window; omega
  have hwp := dlPush_wp_toNat s p h.inBank hL
  have hslot : tapSlot ((dlPush c p s).chan c) 0 = (s.chan c).dlBase.toNat + (s.chan c).wp.toNat := by
    have hb := h.push c p
    rw [tapSlot_eq hb.cursor (by simpa using hL), hwp, dlPush_chan_dlBase, dlPush_chan_L]
    have := h.cursor
    rcases Nat.lt_or_ge ((s.chan c).wp.toNat + 1) (s.chan c).L.toNat with hlt | hge
    · rw [Nat.mod_eq_of_lt hlt]
      simp
    · have : (s.chan c).wp.toNat + 1 = (s.chan c).L.toNat := by omega
      rw [this, Nat.mod_self]
      simp
      omega
  rw [tap, hslot, dlPush_slot_same s p (by have := h.region; have := h.cursor; omega)]

/-- A push moves the window by one position (rule R78): position k + 1 is what position k was. -/
theorem tap_dlPush_succ {s : State} {c k : Nat} (h : Bound s c) (p : Word) (hk : k + 1 < (s.chan c).L.toNat) :
    tap (dlPush c p s) c (k + 1) = tap s c k := by
  have hL : 0 < (s.chan c).L.toNat := by omega
  have hwp := dlPush_wp_toNat s p h.inBank hL
  have hc := h.cursor
  have hslot : tapSlot ((dlPush c p s).chan c) (k + 1) = tapSlot (s.chan c) k := by
    have hb := h.push c p
    rw [tapSlot_eq hb.cursor (by simpa using hk), tapSlot_eq hc (by omega), hwp, dlPush_chan_dlBase, dlPush_chan_L]
    congr 1
    rcases Nat.lt_or_ge ((s.chan c).wp.toNat + 1) (s.chan c).L.toNat with hlt | hge
    · rw [Nat.mod_eq_of_lt hlt]
      split <;> split <;> omega
    · have : (s.chan c).wp.toNat + 1 = (s.chan c).L.toNat := by omega
      rw [this, Nat.mod_self]
      split <;> split <;> omega
  rw [tap, tap, hslot, dlPush_slot_other]
  rw [tapSlot_eq hc (by omega)]
  split <;> omega

/-- A push on a channel whose region does not meet that of c leaves c's window alone. -/
theorem tap_dlPush_other {s : State} {c d k : Nat} (hd : Bound s d) (hL : 0 < (s.chan c).L.toNat) (hne : d ≠ c) (p : Word)
    (hdisj : (s.chan c).dlBase.toNat + (s.chan c).L.toNat ≤ (s.chan d).dlBase.toNat ∨
      (s.chan d).dlBase.toNat + (s.chan d).L.toNat ≤ (s.chan c).dlBase.toNat) :
    tap (dlPush d p s) c k = tap s c k := by
  have hm := tapSlot_mem (f := s.chan c) (k := k) hL
  have hc := hd.cursor
  rw [tap, tap, dlPush_chan_other s p hne, dlPush_slot_other]
  omega

/-! ### The kernel -/

/-- The state a kernel step leaves is the state of its push. -/
@[simp] theorem kernelStep_snd (c : Nat) (x : Int) (s : State) : (kernelStep c x s).2 = dlPush c (trunc 32 x) s := rfl

theorem kernelStep_fst (c : Nat) (x : Int) (s : State) :
    (kernelStep c x s).1 = outputMap (sext 8 (s.chan c).S) (accumulate (dlPush c (trunc 32 x) s) c) := by
  simp [kernelStep, kernelOutput]

/-- The kernel's result is a signed 32-bit number (rule R101). -/
theorem kernelStep_range (c : Nat) (x : Int) (s : State) :
    -2 ^ 31 ≤ (kernelStep c x s).1 ∧ (kernelStep c x s).1 ≤ 2 ^ 31 - 1 :=
  outputMap_range _ _

@[simp] theorem kernelDual_eq (c : Nat) (x0 x1 : Int) (s : State) :
    kernelDual c x0 x1 s =
      ((kernelStep c x0 s).1, (kernelStep c x1 (dlPush c (trunc 32 x0) s)).1, dlPush c (trunc 32 x1) (dlPush c (trunc 32 x0) s)) :=
  rfl

/-- Each product has magnitude at most 2^46 (rule R100). -/
theorem abs_product_le (s : State) (c k : Nat) : |coefOf s c k * tap s c k| ≤ 2 ^ 46 := by
  have h1 := sext_range 16 (s.coef ((s.chan c).coefBase.toNat + k))
  have h2 := sext_range 32 (s.slot (tapSlot (s.chan c) k))
  have h3 : |coefOf s c k| ≤ 2 ^ 15 := abs_le.2 ⟨by simpa [coefOf] using h1.1, by simpa [coefOf] using h1.2.le⟩
  have h4 : |tap s c k| ≤ 2 ^ 31 := abs_le.2 ⟨by simpa [tap] using h2.1, by simpa [tap] using h2.2.le⟩
  rw [abs_mul]
  calc |coefOf s c k| * |tap s c k| ≤ 2 ^ 15 * 2 ^ 31 := mul_le_mul h3 h4 (abs_nonneg _) (by positivity)
    _ = 2 ^ 46 := by norm_num

/-- The kernel's result depends on the coefficients, the window and S of its channel alone. -/
theorem kernelOutput_congr {s t : State} {c : Nat} (hS : (t.chan c).S = (s.chan c).S) (hT : (t.chan c).T = (s.chan c).T)
    (hcoef : ∀ k, k < (s.chan c).T.toNat → coefOf t c k = coefOf s c k)
    (htap : ∀ k, k < (s.chan c).T.toNat → tap t c k = tap s c k) : kernelOutput t c = kernelOutput s c := by
  rw [kernelOutput, kernelOutput, accumulate, accumulate, hS, hT]
  congr 1
  exact sumBelow_congr fun k hk => by rw [hcoef k hk, htap k hk]

/-! ### Loops -/

/-- What every turn of a loop keeps, the loop keeps. -/
theorem forUp_induct {body : Nat → State → State} {P : Nat → State → Prop} {n : Nat} {s : State} (h0 : P 0 s)
    (hstep : ∀ i t, i < n → P i t → P (i + 1) (body i t)) : P n (forUp body n s) := by
  suffices h : ∀ m, m ≤ n → P m (forUp body m s) from h n (le_refl n)
  intro m hm
  induction m with
  | zero => exact h0
  | succ m ih => exact hstep m _ (by omega) (ih (by omega))

theorem forUp_congr {body body' : Nat → State → State} {n : Nat} {s : State}
    (h : ∀ i t, i < n → body i t = body' i t) : forUp body n s = forUp body' n s := by
  induction n with
  | zero => rfl
  | succ n ih => rw [forUp, forUp, ih fun i t hi => h i t (by omega), h n _ (by omega)]

end Sys2Proof.Machine
end

