-- ==== Sys2Proof/Laws/Memory.lean ====
section
/-! SUPPORT. Sample memory: a read after a write, the canonical form, and that canonical memories with the same bytes are
equal. -/

namespace Sys2Proof.Machine

/-! ### Reading one byte -/

@[simp] theorem memByte_nil (a : Nat) : memByte [] a = unlistedByte := rfl

theorem memByte_cons (c : Host.Cell) (m : Memory) (a : Nat) :
    memByte (c :: m) a = if c.1 = a then c.2 else memByte m a := rfl

theorem memByte_of_all_gt {m : Memory} {a : Nat} (h : ∀ c ∈ m, a < c.1) : memByte m a = unlistedByte := by
  induction m with
  | nil => rfl
  | cons c m ih =>
    have hc := h c (by simp)
    simp [memByte_cons, Nat.ne_of_gt hc, ih fun d hd => h d (by simp [hd])]

theorem memByte_memCons {m : Memory} {a : Nat} (h : ∀ c ∈ m, a < c.1) (b : Byte) (x : Nat) :
    memByte (memCons a b m) x = if x = a then b else memByte m x := by
  unfold memCons
  by_cases hb : b = unlistedByte
  · by_cases hx : x = a
    · simp [hb, hx, memByte_of_all_gt h]
    · simp [hb, hx]
  · simp [hb, memByte_cons, eq_comm]

/-! ### The canonical form -/

theorem Memory.wf_nil : Memory.wf [] := ⟨.nil, by simp⟩

theorem Memory.wf_tail {c : Host.Cell} {m : Memory} (h : Memory.wf (c :: m)) : Memory.wf m :=
  ⟨(List.pairwise_cons.1 h.1).2, fun d hd => h.2 d (by simp [hd])⟩

theorem Memory.wf_head {c : Host.Cell} {m : Memory} (h : Memory.wf (c :: m)) : ∀ d ∈ m, c.1 < d.1 :=
  (List.pairwise_cons.1 h.1).1

theorem mem_memCons {a : Nat} {b : Byte} {m : Memory} {d : Host.Cell} (h : d ∈ memCons a b m) : d = (a, b) ∨ d ∈ m := by
  unfold memCons at h
  split at h <;> simp_all

theorem mem_memSet {m : Memory} {a : Nat} {b : Byte} {d : Host.Cell} (h : d ∈ memSet m a b) : d = (a, b) ∨ d ∈ m := by
  induction m with
  | nil => simpa using mem_memCons h
  | cons c m ih =>
    simp only [memSet] at h
    split at h
    · exact mem_memCons h
    · split at h
      · rcases mem_memCons h with h | h <;> simp [h]
      · rcases List.mem_cons.1 h with h | h
        · simp [h]
        · rcases ih h with h | h <;> simp [h]

theorem memCons_wf {m : Memory} {a : Nat} (h : Memory.wf m) (hgt : ∀ c ∈ m, a < c.1) (b : Byte) :
    Memory.wf (memCons a b m) := by
  unfold memCons
  by_cases hb : b = unlistedByte
  · simpa [hb] using h
  · rw [if_neg hb]
    exact ⟨List.pairwise_cons.2 ⟨hgt, h.1⟩, by simpa [hb] using h.2⟩

/-- A write keeps the canonical form. -/
theorem memSet_wf {m : Memory} (h : Memory.wf m) (a : Nat) (b : Byte) : Memory.wf (memSet m a b) := by
  induction m with
  | nil => exact memCons_wf h (by simp) b
  | cons c m ih =>
    have hd := Memory.wf_head h
    have ht := Memory.wf_tail h
    simp only [memSet]
    split
    · next hlt => exact memCons_wf h (fun d hm => by
        rcases List.mem_cons.1 hm with rfl | hm
        · exact hlt
        · exact Nat.lt_trans hlt (hd d hm)) b
    · split
      · next he => exact memCons_wf ht (fun d hm => he ▸ hd d hm) b
      · next hlt hne =>
        refine ⟨List.pairwise_cons.2 ⟨fun d hm => ?_, (ih ht).1⟩, fun d hm => ?_⟩
        · rcases mem_memSet hm with rfl | hm
          · have : c.1 ≠ a := hne
            show c.1 < a
            omega
          · exact hd d hm
        · rcases List.mem_cons.1 hm with rfl | hm
          · exact h.2 _ (by simp)
          · exact (ih ht).2 d hm

/-- The byte read at x after a byte is written at a. -/
theorem memByte_memSet {m : Memory} (h : Memory.wf m) (a : Nat) (b : Byte) (x : Nat) :
    memByte (memSet m a b) x = if x = a then b else memByte m x := by
  induction m with
  | nil => simpa [memSet] using memByte_memCons (m := []) (by simp) b x
  | cons c m ih =>
    have hd := Memory.wf_head h
    simp only [memSet]
    split
    · next hlt => exact memByte_memCons (fun d hm => by
        rcases List.mem_cons.1 hm with rfl | hm
        · exact hlt
        · exact Nat.lt_trans hlt (hd d hm)) b x
    · split
      · next he =>
        rw [memByte_memCons (fun d hm => he ▸ hd d hm), memByte_cons]
        by_cases hx : x = a
        · simp [hx]
        · simp [hx, he, Ne.symm hx]
      · next hne =>
        rw [memByte_cons, memByte_cons, ih (Memory.wf_tail h)]
        by_cases hx : c.1 = x
        · have : x ≠ a := hx ▸ hne
          simp [hx, this]
        · simp [hx]

theorem memByte_memSet_same {m : Memory} (h : Memory.wf m) (a : Nat) (b : Byte) : memByte (memSet m a b) a = b := by
  simp [memByte_memSet h]

theorem memByte_memSet_other {m : Memory} (h : Memory.wf m) {a x : Nat} (b : Byte) (hx : x ≠ a) :
    memByte (memSet m a b) x = memByte m x := by
  simp [memByte_memSet h, hx]

/-- Canonical memories with the same bytes are the same memory. -/
theorem Memory.ext_of_wf {m m' : Memory} (h : Memory.wf m) (h' : Memory.wf m')
    (heq : ∀ a, memByte m a = memByte m' a) : m = m' := by
  induction m generalizing m' with
  | nil =>
    cases m' with
    | nil => rfl
    | cons c m' =>
      have := heq c.1
      simp only [memByte_nil, memByte_cons, if_true] at this
      exact absurd this.symm (h'.2 c (by simp))
  | cons c m ih =>
    cases m' with
    | nil =>
      have := heq c.1
      simp only [memByte_nil, memByte_cons, if_true] at this
      exact absurd this (h.2 c (by simp))
    | cons d m' =>
      have hc := Memory.wf_head h
      have hd := Memory.wf_head h'
      have hcd : c.1 = d.1 := by
        rcases Nat.lt_trichotomy c.1 d.1 with hlt | heq' | hlt
        · have := heq c.1
          rw [memByte_cons, if_pos rfl, memByte_of_all_gt (m := d :: m')] at this
          · exact absurd this (h.2 c (by simp))
          · intro e he
            rcases List.mem_cons.1 he with rfl | he
            · exact hlt
            · exact Nat.lt_trans hlt (hd e he)
        · exact heq'
        · have := heq d.1
          rw [memByte_cons d, if_pos rfl, memByte_of_all_gt (m := c :: m)] at this
          · exact absurd this.symm (h'.2 d (by simp))
          · intro e he
            rcases List.mem_cons.1 he with rfl | he
            · exact hlt
            · exact Nat.lt_trans hlt (hc e he)
      have hb : c.2 = d.2 := by
        have := heq c.1
        simpa [memByte_cons, hcd] using this
      have hrest : m = m' := ih (Memory.wf_tail h) (Memory.wf_tail h') fun a => by
        by_cases ha : c.1 = a
        · rw [memByte_of_all_gt (fun e he => ha ▸ hc e he), memByte_of_all_gt (fun e he => ha ▸ hcd ▸ hd e he)]
        · have := heq a
          rwa [memByte_cons, memByte_cons, if_neg ha, if_neg (hcd ▸ ha)] at this
      rw [hrest, Prod.ext hcd hb]

/-- Writes to different addresses commute. -/
theorem memSet_comm {m : Memory} (h : Memory.wf m) {a a' : Nat} (b b' : Byte) (hne : a ≠ a') :
    memSet (memSet m a b) a' b' = memSet (memSet m a' b') a b := by
  refine Memory.ext_of_wf (memSet_wf (memSet_wf h a b) a' b') (memSet_wf (memSet_wf h a' b') a b) fun x => ?_
  rw [memByte_memSet (memSet_wf h a b), memByte_memSet h, memByte_memSet (memSet_wf h a' b'), memByte_memSet h]
  by_cases hx : x = a
  · simp [hx, hne]
  · by_cases hx' : x = a' <;> simp [hx, hx', Ne.symm hne]

/-! ### Little-endian accesses -/

theorem memWriteLE_wf {m : Memory} (h : Memory.wf m) (a n p : Nat) : Memory.wf (memWriteLE m a n p) := by
  induction n generalizing m a p with
  | zero => exact h
  | succ n ih => exact ih (memSet_wf h _ _) _ _

/-- A write of n bytes at a leaves every byte outside `[a, a+n)` alone. -/
theorem memByte_memWriteLE_other {m : Memory} (h : Memory.wf m) {a n p x : Nat} (hx : x < a ∨ a + n ≤ x) :
    memByte (memWriteLE m a n p) x = memByte m x := by
  induction n generalizing m a p with
  | zero => rfl
  | succ n ih =>
    rw [memWriteLE, ih (memSet_wf h _ _) (by omega), memByte_memSet_other h _ (by omega)]

/-- Byte i of the pattern goes to address a + i. -/
theorem memByte_memWriteLE {m : Memory} (h : Memory.wf m) {a n p i : Nat} (hi : i < n) :
    memByte (memWriteLE m a n p) (a + i) = BitVec.ofNat 8 (p / 2 ^ (8 * i)) := by
  induction n generalizing m a p i with
  | zero => omega
  | succ n ih =>
    rw [memWriteLE]
    cases i with
    | zero =>
      rw [memByte_memWriteLE_other (memSet_wf h _ _) (by omega)]
      simpa using memByte_memSet_same h a _
    | succ i =>
      have := ih (m := memSet m a (BitVec.ofNat 8 p)) (memSet_wf h _ _) (a := a + 1) (p := p / 2 ^ 8) (i := i) (by omega)
      rw [show a + (i + 1) = a + 1 + i by omega, this, Nat.div_div_eq_div_mul, ← Nat.pow_add]
      congr 3
      omega

/-- Equal bytes give equal reads. -/
theorem memReadLE_congr {m m' : Memory} {a n : Nat} (h : ∀ x, a ≤ x → x < a + n → memByte m x = memByte m' x) :
    memReadLE m a n = memReadLE m' a n := by
  induction n generalizing a with
  | zero => rfl
  | succ n ih =>
    rw [memReadLE, memReadLE, h a (by omega) (by omega), ih fun x hx hx' => h x (by omega) (by omega)]

theorem memReadLE_lt (m : Memory) (a n : Nat) : memReadLE m a n < 2 ^ (8 * n) := by
  induction n generalizing a with
  | zero => simp [memReadLE]
  | succ n ih =>
    have h1 := (memByte m a).isLt
    have h2 := ih (a + 1)
    have h3 : 2 ^ (8 * (n + 1)) = 2 ^ 8 * 2 ^ (8 * n) := by rw [← Nat.pow_add]; congr 1; omega
    rw [memReadLE, h3]
    omega

/-- A read of what has just been written gives the pattern, modulo its width. -/
theorem memReadLE_memWriteLE {m : Memory} (h : Memory.wf m) (a n p : Nat) :
    memReadLE (memWriteLE m a n p) a n = p % 2 ^ (8 * n) := by
  induction n generalizing m a p with
  | zero => simp [memReadLE, Nat.mod_one]
  | succ n ih =>
    have hw := memSet_wf h a (BitVec.ofNat 8 p)
    rw [memReadLE, memWriteLE, ih hw, memByte_memWriteLE_other hw (by omega), memByte_memSet_same h]
    rw [show 8 * (n + 1) = 8 + 8 * n by omega, Nat.pow_add, Nat.mod_mul]
    simp

/-- No write leaves the address space if it starts and ends inside it. -/
theorem memSet_space {m : Memory} {B a : Nat} {b : Byte} (h : ∀ c ∈ m, c.1 < B) (ha : a < B) : ∀ c ∈ memSet m a b, c.1 < B := by
  intro c hc
  rcases mem_memSet hc with rfl | hc
  · exact ha
  · exact h c hc

theorem memWriteLE_space {m : Memory} {B a n p : Nat} (h : ∀ c ∈ m, c.1 < B) (ha : a + n ≤ B) :
    ∀ c ∈ memWriteLE m a n p, c.1 < B := by
  induction n generalizing m a p with
  | zero => exact h
  | succ n ih => exact ih (memSet_space h (by omega)) (by omega)

/-- Writes to ranges that do not meet commute. -/
theorem memWriteLE_comm {m : Memory} (h : Memory.wf m) {a n p a' n' p' : Nat} (hd : a + n ≤ a' ∨ a' + n' ≤ a) :
    memWriteLE (memWriteLE m a n p) a' n' p' = memWriteLE (memWriteLE m a' n' p') a n p := by
  have w1 := memWriteLE_wf h a n p
  have w2 := memWriteLE_wf h a' n' p'
  refine Memory.ext_of_wf (memWriteLE_wf w1 _ _ _) (memWriteLE_wf w2 _ _ _) fun x => ?_
  by_cases hx : a ≤ x ∧ x < a + n
  · obtain ⟨i, rfl⟩ : ∃ i, x = a + i := ⟨x - a, by omega⟩
    rw [memByte_memWriteLE_other w1 (by omega), memByte_memWriteLE h (by omega), memByte_memWriteLE w2 (by omega)]
  · by_cases hx' : a' ≤ x ∧ x < a' + n'
    · obtain ⟨i, rfl⟩ : ∃ i, x = a' + i := ⟨x - a', by omega⟩
      rw [memByte_memWriteLE w1 (by omega), memByte_memWriteLE_other w2 (by omega), memByte_memWriteLE h (by omega)]
    · rw [memByte_memWriteLE_other w1 (by omega), memByte_memWriteLE_other h (by omega),
        memByte_memWriteLE_other w2 (by omega), memByte_memWriteLE_other h (by omega)]

end Sys2Proof.Machine
end

