-- ==== Sys2Proof/Laws/Process.lean ====
section
/-! SUPPORT. PROCESS: where the elements lie, what walking channels over a buffer can do (`Walked`, said once for every order
and both modes), that this determines the state, and when the preconditions hold. -/

namespace Sys2Proof.Machine

/-! ### Where the elements lie (rule R111) -/

theorem elemSize_pos (fmt : Format) : 0 < elemSize fmt := by cases fmt <;> decide

theorem index_inj {N f c g d : Nat} (hc : c < N) (hd : d < N) (h : f * N + c = g * N + d) : f = g ∧ c = d := by
  have h1 : (f * N + c) % N = (g * N + d) % N := by rw [h]
  have hcd : c = d := by
    simpa [Nat.mul_comm f, Nat.mul_comm g, Nat.mul_add_mod, Nat.mod_eq_of_lt hc, Nat.mod_eq_of_lt hd] using h1
  have hN : 0 < N := by omega
  exact ⟨Nat.eq_of_mul_eq_mul_right hN (by omega), hcd⟩

/-- Different elements of one buffer do not meet. -/
theorem elem_disjoint (fmt : Format) (base : Nat) {N f c g d : Nat} (hc : c < N) (hd : d < N) (h : f ≠ g ∨ c ≠ d) :
    elemAddr fmt base N f c + elemSize fmt ≤ elemAddr fmt base N g d ∨
    elemAddr fmt base N g d + elemSize fmt ≤ elemAddr fmt base N f c := by
  have hne : f * N + c ≠ g * N + d := fun he => by
    have := index_inj hc hd he
    omega
  unfold elemAddr
  rcases Nat.lt_or_gt_of_ne hne with hlt | hlt
  · have := Nat.mul_le_mul_left (elemSize fmt) (Nat.succ_le_of_lt hlt)
    rw [Nat.succ_eq_add_one, Nat.mul_add, Nat.mul_one] at this
    omega
  · have := Nat.mul_le_mul_left (elemSize fmt) (Nat.succ_le_of_lt hlt)
    rw [Nat.succ_eq_add_one, Nat.mul_add, Nat.mul_one] at this
    omega

/-- Every element lies in its buffer. -/
theorem elem_in_buffer (fmt : Format) (base : Nat) {F N f c : Nat} (hf : f < F) (hc : c < N) :
    base ≤ elemAddr fmt base N f c ∧ elemAddr fmt base N f c + elemSize fmt ≤ base + F * N * elemSize fmt := by
  have h1 : f * N + c + 1 ≤ F * N := by
    have := Nat.mul_le_mul_right N (Nat.succ_le_of_lt hf)
    rw [Nat.succ_mul] at this
    omega
  have h2 := Nat.mul_le_mul_left (elemSize fmt) h1
  rw [Nat.mul_add, Nat.mul_one, Nat.mul_comm (elemSize fmt) (F * N)] at h2
  unfold elemAddr
  omega

/-- Rule R113 P6: the buffers are one, or do not meet. -/
def BuffersApart (fmt : Format) (src dst F N : Nat) : Prop :=
  src = dst ∨ src + F * N * elemSize fmt ≤ dst ∨ dst + F * N * elemSize fmt ≤ src

/-- A source element meets no destination element but its own. -/
theorem source_dest_disjoint {fmt : Format} {src dst F N f c g d : Nat} (hb : BuffersApart fmt src dst F N) (hf : f < F)
    (hg : g < F) (hc : c < N) (hd : d < N) (h : f ≠ g ∨ c ≠ d) :
    elemAddr fmt src N f c + elemSize fmt ≤ elemAddr fmt dst N g d ∨
    elemAddr fmt dst N g d + elemSize fmt ≤ elemAddr fmt src N f c := by
  rcases hb with rfl | hb | hb
  · exact elem_disjoint fmt src hc hd h
  · have := elem_in_buffer fmt src hf hc
    have := elem_in_buffer fmt dst hg hd
    omega
  · have := elem_in_buffer fmt src hf hc
    have := elem_in_buffer fmt dst hg hd
    omega

/-! ### Reads that agree have equal bytes -/

theorem memByte_eq_of_memReadLE_eq {m m' : Memory} {a n : Nat} (h : memReadLE m a n = memReadLE m' a n) {i : Nat}
    (hi : i < n) : memByte m (a + i) = memByte m' (a + i) := by
  induction n generalizing a i with
  | zero => omega
  | succ n ih =>
    rw [memReadLE, memReadLE] at h
    have h1 := (memByte m a).isLt
    have h2 := (memByte m' a).isLt
    cases i with
    | zero =>
      apply BitVec.eq_of_toNat_eq
      simp only [Nat.add_zero]
      omega
    | succ i =>
      have := ih (a := a + 1) (i := i) (by omega) (by omega)
      rwa [show a + 1 + i = a + (i + 1) by omega] at this

/-! ### Every slot of a region is a position of its ring -/

theorem exists_tapSlot_eq {f : FilterState} {j : Nat} (hw : f.wp.toNat < f.L.toNat) (h1 : f.dlBase.toNat ≤ j)
    (h2 : j < f.dlBase.toNat + f.L.toNat) : ∃ k, k < f.L.toNat ∧ tapSlot f k = j := by
  by_cases h : j - f.dlBase.toNat < f.wp.toNat
  · refine ⟨f.wp.toNat - 1 - (j - f.dlBase.toNat), by omega, ?_⟩
    rw [tapSlot_eq hw (by omega), if_pos (by omega)]
    omega
  · refine ⟨f.wp.toNat + f.L.toNat - 1 - (j - f.dlBase.toNat), by omega, ?_⟩
    rw [tapSlot_eq hw (by omega), if_neg (by omega)]
    omega

theorem sext_word_inj {p q : Word} (h : sext 32 p = sext 32 q) : p = q := by
  simpa [sext, BitVec.toInt_inj] using h

/-! ### What a walk over the buffer can do -/

/-- The sample that is k places behind frame f of channel c, seen from the state s in which the walk starts. -/
def sampleBehind (fmt : Format) (src N : Nat) (s : State) (c f k : Nat) : Int :=
  if k ≤ f then readElem fmt src N (f - k) c s else tap s c (k - f - 1)

/-- The kernel's result for frame f of channel c, seen from the state s in which the walk starts (rules R99, R101). -/
def firResult (fmt : Format) (src N : Nat) (s : State) (c f : Nat) : Int :=
  outputMap (sext 8 (s.chan c).S) (sumBelow (fun k => coefOf s c k * sampleBehind fmt src N s c f k) (s.chan c).T.toNat)

/-- t is s after the first `F` frames of exactly the channels in D have been processed. -/
structure Walked (fmt : Format) (src dst N F : Nat) (D : Nat → Prop) (s t : State) : Prop where
  frame : t = { s with fs := t.fs, dlram := t.dlram, mem := t.mem }
  bankLength : t.fs.length = s.fs.length
  slotsLength : t.dlram.length = s.dlram.length
  memWf : Memory.wf t.mem
  chanOther : ∀ c, ¬D c → t.chan c = s.chan c
  chanSelf : ∀ c, D c → t.chan c = { s.chan c with wp := (t.chan c).wp }
  cursor : ∀ c, D c → (t.chan c).wp.toNat = ((s.chan c).wp.toNat + F) % (s.chan c).L.toNat
  slotOther : ∀ j, (∀ c, D c → j < (s.chan c).dlBase.toNat ∨ (s.chan c).dlBase.toNat + (s.chan c).L.toNat ≤ j) →
    t.slot j = s.slot j
  window : ∀ c, D c → ∀ k, k < (s.chan c).L.toNat →
    tap t c k = if k < F then readElem fmt src N (F - 1 - k) c s else tap s c (k - F)
  byteOther : ∀ a, (∀ c, D c → ∀ g, g < F → a < elemAddr fmt dst N g c ∨ elemAddr fmt dst N g c + elemSize fmt ≤ a) →
    memByte t.mem a = memByte s.mem a
  result : ∀ c, D c → ∀ g, g < F →
    memReadLE t.mem (elemAddr fmt dst N g c) (elemSize fmt) = postPattern fmt (firResult fmt src N s c g)

theorem Walked.coef_eq {fmt : Format} {src dst N F : Nat} {D : Nat → Prop} {s t : State} (h : Walked fmt src dst N F D s t)
    (i : Nat) : t.coef i = s.coef i := by
  rw [h.frame]
  rfl

theorem Walked.params_eq {fmt : Format} {src dst N F : Nat} {D : Nat → Prop} {s t : State}
    (h : Walked fmt src dst N F D s t) : t.params = s.params := by
  rw [h.frame]

/-- Whatever has been walked, a FilterState can differ in `wp` only. -/
theorem Walked.chan_eq {fmt : Format} {src dst N F : Nat} {D : Nat → Prop} {s t : State} (h : Walked fmt src dst N F D s t)
    (c : Nat) : t.chan c = { s.chan c with wp := (t.chan c).wp } := by
  by_cases hc : D c
  · exact h.chanSelf c hc
  · rw [h.chanOther c hc]

theorem Walked.coefOf_eq {fmt : Format} {src dst N F : Nat} {D : Nat → Prop} {s t : State}
    (h : Walked fmt src dst N F D s t) (c k : Nat) : coefOf t c k = coefOf s c k := by
  rw [coefOf, coefOf, h.coef_eq, h.chan_eq c]

/-- A channel that could be pushed before can be pushed after. -/
theorem Walked.bound {fmt : Format} {src dst N F : Nat} {D : Nat → Prop} {s t : State} (h : Walked fmt src dst N F D s t)
    {c : Nat} (hb : Bound s c) : Bound t c := by
  have hL : 0 < (s.chan c).L.toNat := by have := hb.window; omega
  refine ⟨by rw [h.bankLength]; exact hb.inBank, ?_, ?_, ?_⟩
  · rw [h.chan_eq c]; exact hb.window
  · rw [h.chan_eq c, h.slotsLength]; exact hb.region
  · by_cases hc : D c
    · rw [h.cursor c hc, h.chan_eq c]
      exact Nat.mod_lt _ hL
    · rw [h.chanOther c hc]; exact hb.cursor

/-- Before the first frame. -/
theorem Walked.start (fmt : Format) (src dst N c : Nat) {s : State} (hb : Bound s c) (hm : Memory.wf s.mem) :
    Walked fmt src dst N 0 (· = c) s s where
  frame := rfl
  bankLength := rfl
  slotsLength := rfl
  memWf := hm
  chanOther := fun _ _ => rfl
  chanSelf := fun _ _ => rfl
  cursor := by
    rintro d rfl
    rw [Nat.add_zero, Nat.mod_eq_of_lt hb.cursor]
  slotOther := fun _ _ => rfl
  window := fun _ _ k _ => by simp
  byteOther := fun _ _ => rfl
  result := fun _ _ g hg => absurd hg (Nat.not_lt_zero g)

/-- What one element does, in terms of its push. -/
theorem processOne_eq (fmt : Format) (src dst N c f : Nat) (t : State) :
    processOne fmt src dst N c f t =
      writeElem fmt dst N f c (kernelStep c (readElem fmt src N f c t) t).1
        (dlPush c (trunc 32 (readElem fmt src N f c t)) t) := rfl

theorem tap_writeElem (fmt : Format) (dst N f c : Nat) (y : Int) (t : State) (d k : Nat) :
    tap (writeElem fmt dst N f c y t) d k = tap t d k := rfl

/-- The kernel input fits 32 bits, so pushing it loses nothing (rule R109). -/
theorem preTransform_range (fmt : Format) (e : Nat) : -2 ^ 31 ≤ preTransform fmt e ∧ preTransform fmt e ≤ 2 ^ 31 - 1 := by
  cases fmt
  · have := sext_range 16 (BitVec.ofNat 16 e)
    simp only [preTransform]
    norm_num at this ⊢
    omega
  · have := sext_range 24 (BitVec.ofNat 32 e)
    simp only [preTransform]
    norm_num at this ⊢
    omega
  · have := sext_range 32 (BitVec.ofNat 32 e)
    simp only [preTransform]
    norm_num at this ⊢
    omega

theorem sext_trunc_readElem (fmt : Format) (src N f c : Nat) (t : State) :
    sext 32 (trunc 32 (readElem fmt src N f c t)) = readElem fmt src N f c t := by
  have := preTransform_range fmt (memReadLE t.mem (elemAddr fmt src N f c) (elemSize fmt))
  exact sext_trunc_of_range (by omega) (by simpa [readElem] using this.1) (by
    have := this.2
    unfold readElem
    norm_num at this ⊢
    omega)

theorem postPattern_lt (fmt : Format) (y : Int) : postPattern fmt y < 2 ^ (8 * elemSize fmt) := by
  cases fmt <;> exact BitVec.isLt _

/-- One more frame of one channel (rule R112). -/
theorem Walked.step {fmt : Format} {src dst N F f c : Nat} {s t : State} (h : Walked fmt src dst N f (· = c) s t)
    (hb : Bound s c) (hbuf : BuffersApart fmt src dst F N) (hf : f < F) (hc : c < N) :
    Walked fmt src dst N (f + 1) (· = c) s (processOne fmt src dst N c f t) := by
  have hbt := h.bound hb
  have hL : 0 < (s.chan c).L.toNat := by have := hb.window; omega
  have hLt : (t.chan c).L = (s.chan c).L := by rw [h.chan_eq c]
  have hBt : (t.chan c).dlBase = (s.chan c).dlBase := by rw [h.chan_eq c]
  have hread : readElem fmt src N f c t = readElem fmt src N f c s := by
    unfold readElem
    congr 1
    refine memReadLE_congr fun x hx hx' => h.byteOther x ?_
    rintro d rfl g hg
    have := source_dest_disjoint hbuf hf (Nat.lt_trans hg hf) hc hc (.inl (Nat.ne_of_gt hg))
    omega
  set x := readElem fmt src N f c s with hxdef
  have hx : sext 32 (trunc 32 x) = x := sext_trunc_readElem fmt src N f c s
  have hwin : ∀ k, k < (s.chan c).L.toNat →
      tap (dlPush c (trunc 32 x) t) c k = sampleBehind fmt src N s c f k := by
    intro k hk
    unfold sampleBehind
    cases k with
    | zero => rw [tap_dlPush_zero hbt, hx, if_pos (Nat.zero_le f), Nat.sub_zero]
    | succ k =>
      rw [tap_dlPush_succ hbt _ (by rw [hLt]; exact hk), h.window c rfl k (by omega)]
      by_cases hkf : k < f
      · rw [if_pos hkf, if_pos (by omega), show f - 1 - k = f - (k + 1) by omega]
      · rw [if_neg hkf, if_neg (by omega), show k + 1 - f - 1 = k - f by omega]
  have hout : (kernelStep c x t).1 = firResult fmt src N s c f := by
    rw [kernelStep_fst, firResult, accumulate, h.chan_eq c]
    congr 1
    simp only [dlPush_chan_T]
    rw [h.chan_eq c]
    refine sumBelow_congr fun k hk => ?_
    rw [dlPush_coefOf, h.coefOf_eq, hwin k (by have := hb.window; simp only at hk; omega)]
  rw [processOne_eq, hread, hout]
  refine ⟨?_, ?_, ?_, ?_, ?_, ?_, ?_, ?_, ?_, ?_, ?_⟩
  · conv_lhs => rw [h.frame]
    rfl
  · simpa using h.bankLength
  · simpa using h.slotsLength
  · exact memWriteLE_wf h.memWf _ _ _
  · intro d hd
    rw [chan_writeElem, dlPush_chan_other t _ (Ne.symm hd), h.chanOther d hd]
  · rintro d rfl
    rw [chan_writeElem, dlPush_chan]
    simp only
    rw [h.chan_eq d]
  · rintro d rfl
    rw [chan_writeElem, dlPush_wp_toNat t _ hbt.inBank (by rw [hLt]; exact hL), hLt, h.cursor d rfl, Nat.mod_add_mod, Nat.add_assoc]
  · intro j hj
    rw [slot_writeElem, dlPush_slot_other, h.slotOther j hj]
    have := hj c rfl
    have hcur := hbt.cursor
    rw [hLt] at hcur
    rw [hBt]
    omega
  · rintro d rfl k hk
    rw [tap_writeElem, hwin k hk, sampleBehind]
    by_cases hkf : k < f + 1
    · rw [if_pos hkf, if_pos (by omega), Nat.add_sub_cancel]
    · rw [if_neg hkf, if_neg (by omega)]
      congr 1
  · intro a ha
    rw [writeElem_mem, dlPush_mem, memByte_memWriteLE_other h.memWf (ha c rfl f (by omega))]
    exact h.byteOther a fun d hd g hg => ha d hd g (by omega)
  · rintro d rfl g hg
    rw [writeElem_mem, dlPush_mem]
    by_cases hgf : g = f
    · subst hgf
      rw [memReadLE_memWriteLE h.memWf, Nat.mod_eq_of_lt (postPattern_lt _ _)]
    · rw [← h.result d rfl g (by omega)]
      refine memReadLE_congr fun y hy hy' => memByte_memWriteLE_other h.memWf ?_
      have := elem_disjoint fmt dst (f := g) (g := f) hc hc (.inl hgf)
      omega

/-- All frames of one channel in the single-sample form. -/
theorem walked_channel_any {fmt : Format} {src dst N F c : Nat} {s : State} (hb : Bound s c) (hm : Memory.wf s.mem)
    (hbuf : BuffersApart fmt src dst F N) (hc : c < N) :
    Walked fmt src dst N F (· = c) s (processChannel fmt .any src dst F N c s) :=
  forUp_induct (P := fun f t => Walked fmt src dst N f (· = c) s t) (Walked.start fmt src dst N c hb hm)
    fun _ _ hf h => h.step hb hbuf hf hc

/-! ### The dual-sample form (rules R103, R116) -/

/-- The dual-sample form on frames 2p and 2p + 1 is the single-sample form on each in turn. -/
theorem processTwo_eq {fmt : Format} {src dst N F c p : Nat} {t : State} (hm : Memory.wf t.mem)
    (hbuf : BuffersApart fmt src dst F N) (hp : 2 * p + 1 < F) (hc : c < N) :
    processTwo fmt src dst N c p t =
      processOne fmt src dst N c (2 * p + 1) (processOne fmt src dst N c (2 * p) t) := by
  have hread : ∀ y u, u.mem = t.mem →
      readElem fmt src N (2 * p + 1) c (writeElem fmt dst N (2 * p) c y u) = readElem fmt src N (2 * p + 1) c t := by
    intro y u hu
    unfold readElem
    congr 1
    rw [writeElem_mem, hu]
    refine memReadLE_congr fun x hx hx' => memByte_memWriteLE_other hm ?_
    have := source_dest_disjoint hbuf hp (g := 2 * p) (by omega) hc hc (.inl (by omega))
    omega
  rw [processOne_eq fmt src dst N c (2 * p + 1), processOne_eq fmt src dst N c (2 * p), hread _ _ (by simp)]
  rfl

theorem processOne_memWf {fmt : Format} {src dst N c f : Nat} {t : State} (hm : Memory.wf t.mem) :
    Memory.wf (processOne fmt src dst N c f t).mem := memWriteLE_wf hm _ _ _

theorem forUp_processOne_memWf {fmt : Format} {src dst N c n : Nat} {t : State} (hm : Memory.wf t.mem) :
    Memory.wf (forUp (processOne fmt src dst N c) n t).mem :=
  forUp_induct (P := fun _ u => Memory.wf u.mem) hm fun _ _ _ h => processOne_memWf h

/-- All frames of one channel: the two modes agree when F is even. -/
theorem processChannel_even_eq_any {fmt : Format} {src dst N F c : Nat} {s : State} (hm : Memory.wf s.mem)
    (hbuf : BuffersApart fmt src dst F N) (hF : F % 2 = 0) (hc : c < N) :
    processChannel fmt .even src dst F N c s = processChannel fmt .any src dst F N c s := by
  suffices h : ∀ n, 2 * n ≤ F →
      forUp (processTwo fmt src dst N c) n s = forUp (processOne fmt src dst N c) (2 * n) s by
    have := h (F / 2) (by omega)
    rw [show 2 * (F / 2) = F by omega] at this
    exact this
  intro n hn
  induction n with
  | zero => rfl
  | succ n ih =>
    rw [show 2 * (n + 1) = 2 * n + 1 + 1 by omega, forUp, forUp, forUp, ih (by omega),
      processTwo_eq (forUp_processOne_memWf hm) hbuf (by omega) hc]

/-- All frames of one channel, in either mode. -/
theorem walked_channel {fmt : Format} {mode : Mode} {src dst N F c : Nat} {s : State} (hb : Bound s c)
    (hm : Memory.wf s.mem) (hbuf : BuffersApart fmt src dst F N) (hmode : mode = .even → F % 2 = 0) (hc : c < N) :
    Walked fmt src dst N F (· = c) s (processChannel fmt mode src dst F N c s) := by
  cases mode with
  | any => exact walked_channel_any hb hm hbuf hc
  | even =>
    rw [processChannel_even_eq_any hm hbuf (hmode rfl) hc]
    exact walked_channel_any hb hm hbuf hc

/-! ### Several channels, in any order (rule R115) -/

/-- The DLRAM regions of two channels do not meet (rule R83). -/
def RegionsApart (s : State) (c d : Nat) : Prop :=
  (s.chan c).dlBase.toNat + (s.chan c).L.toNat ≤ (s.chan d).dlBase.toNat ∨
  (s.chan d).dlBase.toNat + (s.chan d).L.toNat ≤ (s.chan c).dlBase.toNat

/-- One more channel after the channels of D. -/
theorem Walked.channel {fmt : Format} {src dst N F c : Nat} {D : Nat → Prop} {s u t : State}
    (h : Walked fmt src dst N F D s u) (h' : Walked fmt src dst N F (· = c) u t) (hb : ∀ d, D d → Bound s d) (hbc : Bound s c)
    (hbuf : BuffersApart fmt src dst F N) (hD : ∀ d, D d → d < N) (hc : c < N) (hnew : ¬D c)
    (hapart : ∀ d, D d → RegionsApart s d c) : Walked fmt src dst N F (fun d => D d ∨ d = c) s t := by
  have hcu := h.chanOther c hnew
  have hne : ∀ d, D d → d ≠ c := fun d hd he => hnew (he ▸ hd)
  have hLc : 0 < (s.chan c).L.toNat := by have := hbc.window; omega
  -- what the channels of D have not touched
  have hread : ∀ g, g < F → readElem fmt src N g c u = readElem fmt src N g c s := by
    intro g hg
    unfold readElem
    congr 1
    refine memReadLE_congr fun x hx hx' => h.byteOther x fun d hd g' hg' => ?_
    have := source_dest_disjoint hbuf hg hg' hc (hD d hd) (.inr (Ne.symm (hne d hd)))
    omega
  have htapU : ∀ k, tap u c k = tap s c k := by
    intro k
    have hm := tapSlot_mem (f := s.chan c) (k := k) hLc
    rw [tap, tap, hcu, h.slotOther]
    intro d hd
    have := hapart d hd
    unfold RegionsApart at this
    omega
  have hres : ∀ g, g < F → firResult fmt src N u c g = firResult fmt src N s c g := by
    intro g hg
    unfold firResult
    rw [hcu]
    congr 1
    refine sumBelow_congr fun k _ => ?_
    rw [h.coefOf_eq]
    congr 1
    unfold sampleBehind
    split
    · exact hread _ (by omega)
    · exact htapU _
  refine ⟨?_, ?_, ?_, h'.memWf, ?_, ?_, ?_, ?_, ?_, ?_, ?_⟩
  · conv_lhs => rw [h'.frame, h.frame]
  · rw [h'.bankLength, h.bankLength]
  · rw [h'.slotsLength, h.slotsLength]
  · intro d hd
    rw [h'.chanOther d fun he => hd (.inr he), h.chanOther d fun he => hd (.inl he)]
  · intro d _
    conv_lhs => rw [h'.chan_eq d, h.chan_eq d]
  · rintro d (hd | rfl)
    · rw [h'.chanOther d (hne d hd), h.cursor d hd]
    · rw [h'.cursor d rfl, hcu]
  · intro j hj
    rw [h'.slotOther j, h.slotOther j fun d hd => hj d (.inl hd)]
    rintro d rfl
    rw [hcu]
    exact hj d (.inr rfl)
  · rintro d (hd | rfl) k hk
    · have hLd : 0 < (s.chan d).L.toNat := by have := (hb d hd).window; omega
      rw [← h.window d hd k hk]
      have hud := h.chan_eq d
      have hm := tapSlot_mem (f := u.chan d) (k := k) (by rw [hud]; exact hLd)
      rw [tap, tap, h'.chanOther d (hne d hd), h'.slotOther]
      rintro e rfl
      have := hapart d hd
      unfold RegionsApart at this
      rw [hcu]
      rw [hud] at hm
      simp only at hm
      rw [← hud] at hm
      omega
    · rw [h'.window d rfl k (by rw [hcu]; exact hk)]
      split
      · exact hread _ (by omega)
      · exact htapU _
  · intro a ha
    rw [h'.byteOther a fun d hd g hg => ha d (.inr hd) g hg, h.byteOther a fun d hd g hg => ha d (.inl hd) g hg]
  · rintro d (hd | rfl) g hg
    · rw [← h.result d hd g hg]
      refine memReadLE_congr fun x hx hx' => h'.byteOther x ?_
      rintro e rfl g' hg'
      have := elem_disjoint fmt dst (f := g) (g := g') (hD d hd) hc (.inr (hne d hd))
      omega
    · rw [h'.result d rfl g hg, hres g hg]

/-- No channel at all. -/
theorem Walked.none (fmt : Format) (src dst N F : Nat) {D : Nat → Prop} (hD : ∀ c, ¬D c) {s : State}
    (hm : Memory.wf s.mem) : Walked fmt src dst N F D s s where
  frame := rfl
  bankLength := rfl
  slotsLength := rfl
  memWf := hm
  chanOther := fun _ _ => rfl
  chanSelf := fun c h => absurd h (hD c)
  cursor := fun c h => absurd h (hD c)
  slotOther := fun _ _ => rfl
  window := fun c h => absurd h (hD c)
  byteOther := fun _ _ => rfl
  result := fun c h => absurd h (hD c)

theorem Walked.of_iff {fmt : Format} {src dst N F : Nat} {D D' : Nat → Prop} {s t : State}
    (h : Walked fmt src dst N F D s t) (hiff : ∀ c, D c ↔ D' c) : Walked fmt src dst N F D' s t := by
  rwa [show D' = D from funext fun c => propext (hiff c).symm]

/-- What the walk needs of its channels and buffers (rules R24, R113). -/
structure WalkReady (fmt : Format) (mode : Mode) (src dst F N : Nat) (s : State) : Prop where
  bound : ∀ c, c < N → Bound s c
  memWf : Memory.wf s.mem
  buffers : BuffersApart fmt src dst F N
  mode : mode = .even → F % 2 = 0
  apart : ∀ c d, c < N → d < N → c ≠ d → RegionsApart s c d

/-- The channels of a list without repeats, one after another. -/
theorem walked_list {fmt : Format} {mode : Mode} {src dst F N : Nat} {s : State} (hr : WalkReady fmt mode src dst F N s)
    {order : List Nat} (hlt : ∀ c ∈ order, c < N) (hnd : order.Nodup) :
    Walked fmt src dst N F (· ∈ order) s
      (order.foldl (fun u c => processChannel fmt mode src dst F N c u) s) := by
  induction order using List.reverseRecOn with
  | nil => exact Walked.none fmt src dst N F (by simp) hr.memWf
  | append_singleton cs c ih =>
    rw [List.foldl_append]
    have hnd' := List.nodup_append.1 hnd
    have hcs : ∀ d ∈ cs, d < N := fun d hd => hlt d (by simp [hd])
    have hc : c < N := hlt c (by simp)
    have hnew : c ∉ cs := fun hmem => hnd'.2.2 c hmem c (by simp) rfl
    have h1 := ih hcs hnd'.1
    refine (h1.channel (walked_channel (h1.bound (hr.bound c hc)) h1.memWf hr.buffers hr.mode hc)
      (fun d hd => hr.bound d (hcs d hd)) (hr.bound c hc) hr.buffers hcs hc hnew fun d hd =>
        hr.apart d c (hcs d hd) hc fun he => hnew (he ▸ hd)).of_iff fun d => by simp

theorem forUp_eq_foldl (body : Nat → State → State) (n : Nat) (s : State) :
    forUp body n s = (List.range n).foldl (fun u c => body c u) s := by
  induction n with
  | zero => rfl
  | succ n ih => rw [forUp, ih, List.range_succ, List.foldl_append]; rfl

/-- The whole bank (rule R112). -/
theorem walked_bank {fmt : Format} {mode : Mode} {src dst F N : Nat} {s : State} (hr : WalkReady fmt mode src dst F N s) :
    Walked fmt src dst N F (· < N) s (processBank fmt mode src dst F N s) := by
  have h := walked_list hr (order := List.range N) (by simp) List.nodup_range
  rw [processBank, forUp_eq_foldl]
  exact h.of_iff (by simp)

/-- A slot that no push of the walk reaches keeps its contents (rules R77, R80). -/
theorem Walked.slot_unpushed {fmt : Format} {src dst N F : Nat} {D : Nat → Prop} {s t : State}
    (h : Walked fmt src dst N F D s t) (hb : ∀ c, D c → Bound s c) {j : Nat}
    (hj : ∀ c f, D c → f < F → j ≠ (s.chan c).dlBase.toNat + ((s.chan c).wp.toNat + f) % (s.chan c).L.toNat) :
    t.slot j = s.slot j := by
  by_cases hin : ∃ c, D c ∧ (s.chan c).dlBase.toNat ≤ j ∧ j < (s.chan c).dlBase.toNat + (s.chan c).L.toNat
  · obtain ⟨c, hc, h1, h2⟩ := hin
    have hB : (t.chan c).dlBase = (s.chan c).dlBase := by rw [h.chan_eq c]
    have hL : (t.chan c).L = (s.chan c).L := by rw [h.chan_eq c]
    obtain ⟨k, hk, rfl⟩ := exists_tapSlot_eq (f := t.chan c) (j := j) (h.bound (hb c hc)).cursor (by rw [hB]; exact h1)
      (by rw [hB, hL]; exact h2)
    rw [hL] at hk
    have hkF : F ≤ k := by
      by_contra hlt
      exact hj c (F - 1 - k) hc (by omega) (tapSlot_advanced_new hB hL (h.cursor c hc) (by omega))
    have hw := h.window c hc k hk
    rw [if_neg (by omega), tap, tap] at hw
    rw [sext_word_inj hw, tapSlot_advanced_old hB hL (h.cursor c hc) hkF]
  · exact h.slotOther j fun c hc => by
      by_contra hcon
      exact hin ⟨c, hc, by omega, by omega⟩

/-- What has been walked determines the state. -/
theorem Walked.unique {fmt : Format} {src dst N F : Nat} {D : Nat → Prop} {s t t' : State}
    (h : Walked fmt src dst N F D s t) (h' : Walked fmt src dst N F D s t') (hb : ∀ c, D c → Bound s c) : t = t' := by
  have hchan : ∀ c, t.chan c = t'.chan c := by
    intro c
    by_cases hc : D c
    · have hwp : (t.chan c).wp = (t'.chan c).wp :=
        BitVec.eq_of_toNat_eq ((h.cursor c hc).trans (h'.cursor c hc).symm)
      rw [h.chanSelf c hc, h'.chanSelf c hc, hwp]
    · rw [h.chanOther c hc, h'.chanOther c hc]
  have hfs : t.fs = t'.fs := by
    refine List.ext_getElem (by rw [h.bankLength, h'.bankLength]) fun c hc hc' => ?_
    have := hchan c
    simpa [State.chan, hc, hc'] using this
  have hslot : ∀ j, t.slot j = t'.slot j := by
    intro j
    by_cases hj : ∃ c, D c ∧ (s.chan c).dlBase.toNat ≤ j ∧ j < (s.chan c).dlBase.toNat + (s.chan c).L.toNat
    · obtain ⟨c, hc, h1, h2⟩ := hj
      have hL : 0 < (s.chan c).L.toNat := by omega
      have hbt := (h.bound (hb c hc)).cursor
      have hL' : (t.chan c).L = (s.chan c).L := by rw [h.chan_eq c]
      have hB' : (t.chan c).dlBase = (s.chan c).dlBase := by rw [h.chan_eq c]
      obtain ⟨k, hk, hkj⟩ := exists_tapSlot_eq (f := t.chan c) (j := j) hbt (by rw [hB']; exact h1)
        (by rw [hL', hB']; exact h2)
      rw [hL'] at hk
      have e1 := h.window c hc k hk
      have e2 := h'.window c hc k hk
      have : tap t c k = tap t' c k := e1.trans e2.symm
      rw [tap, tap, ← hchan c, hkj] at this
      exact sext_word_inj this
    · have hout : ∀ c, D c → j < (s.chan c).dlBase.toNat ∨ (s.chan c).dlBase.toNat + (s.chan c).L.toNat ≤ j := by
        intro c hc
        by_contra hcon
        exact hj ⟨c, hc, by omega, by omega⟩
      rw [h.slotOther j hout, h'.slotOther j hout]
  have hdl : t.dlram = t'.dlram := by
    refine List.ext_getElem (by rw [h.slotsLength, h'.slotsLength]) fun j hj hj' => ?_
    have := hslot j
    simpa [State.slot, hj, hj'] using this
  have hmem : t.mem = t'.mem := by
    refine Memory.ext_of_wf h.memWf h'.memWf fun a => ?_
    by_cases ha : ∃ c, D c ∧ ∃ g, g < F ∧ elemAddr fmt dst N g c ≤ a ∧ a < elemAddr fmt dst N g c + elemSize fmt
    · obtain ⟨c, hc, g, hg, h1, h2⟩ := ha
      have e : memReadLE t.mem (elemAddr fmt dst N g c) (elemSize fmt) =
          memReadLE t'.mem (elemAddr fmt dst N g c) (elemSize fmt) := by
        rw [h.result c hc g hg, h'.result c hc g hg]
      have := memByte_eq_of_memReadLE_eq e (i := a - elemAddr fmt dst N g c) (by omega)
      rwa [Nat.add_sub_cancel' h1] at this
    · have hout : ∀ c, D c → ∀ g, g < F → a < elemAddr fmt dst N g c ∨ elemAddr fmt dst N g c + elemSize fmt ≤ a := by
        intro c hc g hg
        by_contra hcon
        exact ha ⟨c, hc, g, hg, by omega, by omega⟩
      rw [h.byteOther a hout, h'.byteOther a hout]
  rw [h.frame, h'.frame, hfs, hdl, hmem]

end Sys2Proof.Machine
end

