-- ==== Sys2Proof/Laws/Preconditions.lean ====
section
/-! SUPPORT. Rule R113: which violation the checks name, when they name none, and what the invariant gives a channel. -/

namespace Sys2Proof.Machine

/-! ### Operands as numbers (rule R59) -/

@[simp] theorem opSrc_eq (s : State) : opSrc s = s.arg0.toNat := by simp [opSrc, zext]
@[simp] theorem opDst_eq (s : State) : opDst s = s.arg1.toNat := by simp [opDst, zext]
@[simp] theorem opFrames_eq (s : State) : opFrames s = s.arg2.toNat := by simp [opFrames, zext]
@[simp] theorem opChannels_eq (s : State) : opChannels s = s.arg3.toNat := by simp [opChannels, zext]
@[simp] theorem opT_eq (s : State) : opT s = s.arg0.toNat := by simp [opT, zext]
@[simp] theorem opCoefBase_eq (s : State) : opCoefBase s = s.arg2.toNat := by simp [opCoefBase, zext]
@[simp] theorem opTapIndex_eq (s : State) : opTapIndex s = s.arg0.toNat := by simp [opTapIndex, zext]
@[simp] theorem opCursor_eq (s : State) : opCursor s = s.cursor.toNat := by simp [opCursor, zext]
@[simp] theorem opX0_eq (s : State) : opX0 s = s.arg0.toInt := by simp [opX0, sext]
@[simp] theorem opX1_eq (s : State) : opX1 s = s.arg1.toInt := by simp [opX1, sext]
@[simp] theorem opValue64_eq (s : State) : opValue64 s = (s.arg1 ++ s.arg0).toInt := by
  simp only [opValue64, sext]
  exact congrArg BitVec.toInt (BitVec.setWidth_eq _)

theorem bufferBytes_eq (fmt : Format) (s : State) :
    bufferBytes fmt s = s.arg2.toNat * s.arg3.toNat * elemSize fmt := by simp [bufferBytes]

/-! ### The checks -/

theorem rangesDisjoint_iff (a m b n : Nat) :
    rangesDisjoint a m b n = true ↔ ∀ j, a ≤ j → j < a + m → ¬(b ≤ j ∧ j < b + n) := by
  simp only [rangesDisjoint, decide_eq_true_eq]
  constructor
  · intro h j h1 h2
    omega
  · intro h
    by_contra hc
    have h1 := h a (Nat.le_refl a) (by omega)
    have h2 := h b (by omega)
    omega

theorem rangesDisjoint_false_iff (a m b n : Nat) :
    rangesDisjoint a m b n = false ↔ ∃ j, (a ≤ j ∧ j < a + m) ∧ (b ≤ j ∧ j < b + n) := by
  rw [← Bool.not_eq_true, rangesDisjoint_iff]
  constructor
  · intro h
    by_contra hc
    exact h fun j h1 h2 h3 => hc ⟨j, ⟨h1, h2⟩, h3⟩
  · rintro ⟨j, ⟨h1, h2⟩, h3⟩ h
    exact h j h1 h2 h3

theorem allActive_false_iff (s : State) (N : Nat) :
    allActive s N = false ↔ ∃ c, c < N ∧ (s.chan c).LC ≠ .active := by
  simp [allActive, ← Bool.not_eq_true]

theorem regionsDisjoint_false_iff (s : State) (N : Nat) :
    regionsDisjoint s N = false ↔ ∃ c d j, c < N ∧ d < c ∧
      ((s.chan c).dlBase.toNat ≤ j ∧ j < (s.chan c).dlBase.toNat + (s.chan c).L.toNat) ∧
      ((s.chan d).dlBase.toNat ≤ j ∧ j < (s.chan d).dlBase.toNat + (s.chan d).L.toNat) := by
  rw [← Bool.not_eq_true]
  simp only [regionsDisjoint, List.all_eq_true, List.mem_range]
  constructor
  · intro h
    by_contra hc
    refine h fun c hcN d hdc => ?_
    by_contra hf
    obtain ⟨j, h1, h2⟩ := (rangesDisjoint_false_iff _ _ _ _).1 (Bool.not_eq_true _ ▸ hf)
    exact hc ⟨c, d, j, hcN, hdc, h1, h2⟩
  · rintro ⟨c, d, j, hcN, hdc, h1, h2⟩ h
    exact (rangesDisjoint_iff _ _ _ _).1 (h c hcN d hdc) j h1.1 h1.2 h2

theorem busAnswers_false_iff (s : State) (a n : Nat) :
    busAnswers s a n = false ↔ ∃ r ∈ s.badRanges, ∃ x, (a ≤ x ∧ x < a + n) ∧ (r.1 ≤ x ∧ x < r.1 + r.2) := by
  rw [← Bool.not_eq_true]
  simp only [busAnswers, List.all_eq_true]
  constructor
  · intro h
    by_contra hc
    refine h fun r hr => ?_
    by_contra hf
    obtain ⟨x, h1, h2⟩ := (rangesDisjoint_false_iff _ _ _ _).1 (Bool.not_eq_true _ ▸ hf)
    exact hc ⟨r, hr, x, h1, h2⟩
  · rintro ⟨r, hr, x, h1, h2⟩ h
    exact (rangesDisjoint_iff _ _ _ _).1 (h r hr) x h1.1 h1.2 h2

/-- A violation that is named is a broken precondition. -/
theorem processViolation_some {fmt : Format} {mode : Mode} {s : State} {v : Fault}
    (h : processViolation fmt mode s = some v) : ProcessBroken fmt mode s v := by
  unfold processViolation at h
  simp only [opSrc_eq, opDst_eq, opFrames_eq, opChannels_eq, bufferBytes_eq, Config.sysAddrWidth] at h
  split at h
  · cases h; assumption
  · split at h
    · next h2 => cases h; exact (allActive_false_iff s _).1 h2
    · split at h
      · next h3 => cases h; exact ⟨h3.1, by omega⟩
      · split at h
        · cases h; assumption
        · split at h
          · cases h; assumption
          · split at h
            · next h6 =>
              cases h
              exact ⟨fun he => h6.1 (by rw [he]), (rangesDisjoint_false_iff _ _ _ _).1 h6.2⟩
            · split at h
              · next h7 => cases h; exact (regionsDisjoint_false_iff s _).1 h7
              · split at h
                · next h8 =>
                  cases h
                  rcases Bool.and_eq_false_iff.1 h8 with h8 | h8
                  · obtain ⟨r, hr, x, hx, hx'⟩ := (busAnswers_false_iff _ _ _).1 h8
                    exact ⟨r, hr, x, hx', .inl hx⟩
                  · obtain ⟨r, hr, x, hx, hx'⟩ := (busAnswers_false_iff _ _ _).1 h8
                    exact ⟨r, hr, x, hx', .inr hx⟩
                · exact absurd h (by simp)

/-- No violation is named exactly when every precondition holds. -/
theorem processViolation_none_iff {fmt : Format} {mode : Mode} {s : State} :
    processViolation fmt mode s = none ↔ ∀ v, ¬ProcessBroken fmt mode s v := by
  constructor
  · intro h v hv
    unfold processViolation at h
    simp only [opSrc_eq, opDst_eq, opFrames_eq, opChannels_eq, bufferBytes_eq, Config.sysAddrWidth] at h
    repeat (split at h; · exact absurd h (by simp))
    next h1 h2 h3 h4 h5 h6 h7 h8 =>
    cases v with
    | channelCount => exact h1 hv
    | notActive => exact h2 ((allActive_false_iff s _).2 hv)
    | oddFrames => exact h3 ⟨hv.1, by have := hv.2; omega⟩
    | misaligned => exact h4 hv
    | addressWrap => exact h5 hv
    | bufferOverlap =>
      exact h6 ⟨fun he => hv.1 (BitVec.eq_of_toNat_eq he), (rangesDisjoint_false_iff _ _ _ _).2 hv.2⟩
    | sharedDelayLine => exact h7 ((regionsDisjoint_false_iff s _).2 hv)
    | busError =>
      obtain ⟨r, hr, a, ha, hx⟩ := hv
      refine h8 (Bool.and_eq_false_iff.2 ?_)
      rcases hx with hx | hx
      · exact .inl ((busAnswers_false_iff _ _ _).2 ⟨r, hr, a, hx, ha⟩)
      · exact .inr ((busAnswers_false_iff _ _ _).2 ⟨r, hr, a, hx, ha⟩)
    | slaveAccess => exact hv
    | hostHazard => exact hv
    | tapIndex => exact hv
    | coefMutated => exact hv
  · intro h
    cases hp : processViolation fmt mode s with
    | none => rfl
    | some v => exact absurd (processViolation_some hp) (h v)

/-- Ready means that no precondition is broken. -/
theorem ProcessReady.not_broken {fmt : Format} {mode : Mode} {s : State} (h : ProcessReady fmt mode s) (v : Fault) :
    ¬ProcessBroken fmt mode s v := by
  cases v with
  | channelCount => exact Nat.not_lt.2 h.p1
  | notActive => exact fun ⟨c, hc, hn⟩ => hn (h.p2 c hc)
  | oddFrames => exact fun ⟨hm, ho⟩ => by have := h.p3 hm; omega
  | misaligned => exact fun hv => hv.elim (· h.p4.1) (· h.p4.2)
  | addressWrap =>
    have := h.p5
    exact fun hv => by unfold ProcessBroken at hv; omega
  | bufferOverlap =>
    rintro ⟨hne, a, h1, h2⟩
    rcases h.p6 with h6 | h6 | h6
    · exact hne h6
    · omega
    · omega
  | sharedDelayLine => exact fun ⟨c, d, j, hc, hd, h1, h2⟩ => h.p7 c d j hc hd h1.1 h1.2 h2
  | busError =>
    rintro ⟨r, hr, a, ha, h1 | h1⟩
    · exact (h.p8 r hr a ha.1 ha.2).1 h1
    · exact (h.p8 r hr a ha.1 ha.2).2 h1
  | slaveAccess => exact id
  | hostHazard => exact id
  | tapIndex => exact id
  | coefMutated => exact id

/-- What an unbroken precondition check gives the walk. -/
theorem ProcessReady.of_not_broken {fmt : Format} {mode : Mode} {s : State}
    (h : ∀ v, ¬ProcessBroken fmt mode s v) : ProcessReady fmt mode s where
  p1 := Nat.le_of_not_lt (h .channelCount)
  p2 := fun c hc => by
    by_contra hn
    exact h .notActive ⟨c, hc, hn⟩
  p3 := fun hm => by
    by_contra hn
    exact h .oddFrames ⟨hm, by omega⟩
  p4 := by
    have := h .misaligned
    unfold ProcessBroken at this
    omega
  p5 := by
    have := h .addressWrap
    unfold ProcessBroken at this
    omega
  p6 := by
    by_cases he : s.arg0 = s.arg1
    · exact .inl he
    · right
      by_contra hn
      refine h .bufferOverlap ⟨he, ?_⟩
      by_cases hle : s.arg0.toNat ≤ s.arg1.toNat
      · exact ⟨s.arg1.toNat, by omega, by omega⟩
      · exact ⟨s.arg0.toNat, by omega, by omega⟩
  p7 := fun c d j hc hd h1 h2 h3 => h .sharedDelayLine ⟨c, d, j, hc, hd, ⟨h1, h2⟩, h3⟩
  p8 := fun r hr a h1 h2 =>
    ⟨fun h3 => h .busError ⟨r, hr, a, ⟨h1, h2⟩, .inl h3⟩, fun h3 => h .busError ⟨r, hr, a, ⟨h1, h2⟩, .inr h3⟩⟩

theorem processViolation_none_iff_ready {fmt : Format} {mode : Mode} {s : State} :
    processViolation fmt mode s = none ↔ ProcessReady fmt mode s :=
  ⟨fun h => .of_not_broken (processViolation_none_iff.1 h), fun h => processViolation_none_iff.2 h.not_broken⟩

/-- The three ways a PROCESS command ends (rules R112 to R114). -/
theorem processCore_cases (fmt : Format) (mode : Mode) (s : State) :
    ((s.arg2 = 0 ∨ s.arg3 = 0) ∧ processCore fmt mode s = .next (endCommand .ok s)) ∨
    (s.arg2 ≠ 0 ∧ s.arg3 ≠ 0 ∧ ∃ v, ProcessBroken fmt mode s v ∧ processCore fmt mode s = .fault v) ∨
    (s.arg2 ≠ 0 ∧ s.arg3 ≠ 0 ∧ ProcessReady fmt mode s ∧
      processCore fmt mode s =
        .next (endCommand .ok (processBank fmt mode s.arg0.toNat s.arg1.toNat s.arg2.toNat s.arg3.toNat s))) := by
  have h0 : ∀ w : Word, w.toNat = 0 ↔ w = 0 := fun w => ⟨fun h => BitVec.eq_of_toNat_eq (by simpa using h), fun h => by simp [h]⟩
  unfold processCore
  simp only [opFrames_eq, opChannels_eq, opSrc_eq, opDst_eq, h0]
  by_cases hz : s.arg2 = 0 ∨ s.arg3 = 0
  · exact .inl ⟨hz, by rw [if_pos hz]; rfl⟩
  · rw [if_neg hz]
    have hz' := not_or.1 hz
    cases hp : processViolation fmt mode s with
    | some v => exact .inr (.inl ⟨hz'.1, hz'.2, v, processViolation_some hp, rfl⟩)
    | none => exact .inr (.inr ⟨hz'.1, hz'.2, processViolation_none_iff_ready.1 hp, rfl⟩)

/-! ### What the invariant gives (rule R24) -/

theorem State.Inv.chan {s : State} (h : s.Inv) {c : Nat} (hc : c < s.params.nchMax) : (s.chan c).Inv s.params :=
  h.channels _ (chan_mem s (by rw [h.bank]; exact hc))

theorem State.Inv.lt_of_active {s : State} (h : s.Inv) {c : Nat} (ha : (s.chan c).LC = .active) : c < s.params.nchMax :=
  h.bank ▸ lt_length_of_active s ha

/-- An ACTIVE channel can be pushed. -/
theorem State.Inv.bound {s : State} (h : s.Inv) {c : Nat} (ha : (s.chan c).LC = .active) : Bound s c := by
  have hc := h.lt_of_active ha
  obtain ⟨hs, hr, hw⟩ := (h.chan hc).2.2 ha
  have := hs.2.2.2.1
  exact ⟨h.bank ▸ hc, by omega, by rw [h.dlram]; exact hr, hw⟩

/-- A good state in which the preconditions hold is ready for the walk. -/
theorem ProcessReady.walkReady {fmt : Format} {mode : Mode} {s : State} (h : ProcessReady fmt mode s) (hi : s.Inv) :
    WalkReady fmt mode s.arg0.toNat s.arg1.toNat s.arg2.toNat s.arg3.toNat s where
  bound := fun c hc => hi.bound (h.p2 c hc)
  memWf := hi.mem
  buffers := by
    rcases h.p6 with h6 | h6 | h6
    · exact .inl (by rw [h6])
    · exact .inr (.inl h6)
    · exact .inr (.inr h6)
  mode := h.p3
  apart := by
    have key : ∀ c d, c < s.arg3.toNat → d < c → RegionsApart s c d := by
      intro c d hc hd
      have bc := (hi.bound (h.p2 c hc)).window
      have bd := (hi.bound (h.p2 d (by omega))).window
      have := (rangesDisjoint_iff (s.chan c).dlBase.toNat (s.chan c).L.toNat (s.chan d).dlBase.toNat (s.chan d).L.toNat).2
        fun j h1 h2 => h.p7 c d j hc hd h1 h2
      simp only [rangesDisjoint, decide_eq_true_eq] at this
      unfold RegionsApart
      omega
    intro c d hc hd hne
    rcases Nat.lt_or_gt_of_ne hne with hlt | hlt
    · have := key d c hd hlt
      unfold RegionsApart at this ⊢
      omega
    · exact key c d hc hlt

end Sys2Proof.Machine
end

