-- ==== Sys2Proof/Laws/Command.lean ====
section
/-! SUPPORT. Everything a command can do when it answers a next state, said once (`CommandDone`), and what stops a command. -/

namespace Sys2Proof.Machine

theorem hasChannel_iff (s : State) (c : Nat) : s.hasChannel c = true ↔ c < s.params.nchMax := by simp [State.hasChannel]

theorem onChannel_of_lt {s : State} {ch : Nat} (h : ch < s.params.nchMax) (body : State → Result State) :
    onChannel ch s body = body s := by
  rw [onChannel, (hasChannel_iff s ch).2 h, if_pos rfl]

theorem onChannel_of_le {s : State} {ch : Nat} (h : s.params.nchMax ≤ ch) (body : State → Result State) :
    onChannel ch s body = .next (endCommand .errIllegal s) := by
  rw [onChannel, if_neg (by rw [hasChannel_iff]; omega)]
  rfl

theorem onActive_of_active {s : State} {ch : Nat} (h : ch < s.params.nchMax) (ha : (s.chan ch).LC = .active)
    (body : State → Result State) : onActive ch s body = body s := by
  rw [onActive, onChannel_of_lt h, if_pos ha]

theorem onActive_of_not_active {s : State} {ch : Nat} (h : ch < s.params.nchMax) (ha : (s.chan ch).LC ≠ .active)
    (body : State → Result State) : onActive ch s body = .fault .notActive := by
  rw [onActive, onChannel_of_lt h, if_neg ha]
  rfl

/-- The channel FS.BIND leaves (rule R97). -/
def boundChan (f : FilterState) (cur : Half) : FilterState := { f with LC := .active, dlBase := cur, wp := 0 }

/-- The state t in which a command i started in s can end with a next state. Values that are long to compute are variables
with an equation, so that the frame of a command never unfolds them. -/
inductive CommandDone : Instr → State → State → Prop
  /-- A reported error (rule R127). -/
  | error (i : Instr) (s : State) (e : ErrCode) : e ≠ .ok → CommandDone i s (endCommand e s)
  | fsReset (s : State) (ch : Nat) : ch < s.params.nchMax →
      CommandDone (.fsReset ch) s (endCommand .ok (s.setChan ch .uninit))
  | fsConfigure (s : State) (ch : Nat) : ch < s.params.nchMax → (s.chan ch).LC = .uninit → 4 ≤ s.arg0.toNat →
      s.arg0.toNat ≤ s.params.maxLength → s.arg0.toNat % 4 = 0 → s.arg2.toNat + s.arg0.toNat ≤ s.params.coefRamWords →
      CommandDone (.fsConfigure ch) s (endCommand .ok (setRes0 (BitVec.ofNat 32 ((s.arg0.toNat + 2) * 4))
        (s.setChan ch (configuredChan (s.chan ch) s.arg0.toNat s.arg2.toNat (opS s)))))
  | fsBind (s : State) (ch : Nat) : ch < s.params.nchMax → (s.chan ch).LC = .configured →
      s.cursor.toNat + (s.chan ch).L.toNat ≤ s.params.dlRamSlots →
      CommandDone (.fsBind ch) s (endCommand .ok { s.setChan ch (boundChan (s.chan ch) s.cursor) with
        cursor := BitVec.ofNat 16 (s.cursor.toNat + (s.chan ch).L.toNat) })
  | fsShiftplan (s : State) (ch : Nat) (r : Word) : ch < s.params.nchMax →
      r = (BitVec.ofNat 32 (max 0 (s.chan ch).S.toInt).toNat <<< 8) ||| BitVec.ofNat 32 (max 0 (-(s.chan ch).S.toInt)).toNat →
      CommandDone (.fsShiftplan ch) s (endCommand .ok (setRes0 r s))
  | dlPush (s : State) (ch : Nat) : ch < s.params.nchMax → (s.chan ch).LC = .active →
      CommandDone (.dlPush ch) s (endCommand .ok (dlPush ch s.arg0 s))
  | dlTap (s : State) (ch : Nat) : ch < s.params.nchMax → (s.chan ch).LC = .active → s.arg0.toNat < (s.chan ch).T.toNat →
      CommandDone (.dlTap ch) s (endCommand .ok (setRes0 (trunc 32 (tap s ch s.arg0.toNat)) s))
  | kSingle (s : State) (ch : Nat) (r : Word) : ch < s.params.nchMax → (s.chan ch).LC = .active →
      r = trunc 32 (kernelStep ch s.arg0.toInt s).1 → CommandDone (.kSingle ch) s (endCommand .ok (setRes0 r (dlPush ch s.arg0 s)))
  | kDual (s : State) (ch : Nat) (r0 r1 : Word) : ch < s.params.nchMax → (s.chan ch).LC = .active →
      r0 = trunc 32 (kernelStep ch s.arg0.toInt s).1 → r1 = trunc 32 (kernelStep ch s.arg1.toInt (dlPush ch s.arg0 s)).1 →
      CommandDone (.kDual ch) s (endCommand .ok (setResults r0 r1 (dlPush ch s.arg1 (dlPush ch s.arg0 s))))
  | processEmpty (i : Instr) (fmt : Format) (mode : Mode) (s : State) : i.process = some (fmt, mode) →
      s.arg2 = 0 ∨ s.arg3 = 0 → CommandDone i s (endCommand .ok s)
  | process (i : Instr) (fmt : Format) (mode : Mode) (s t : State) : i.process = some (fmt, mode) → s.arg2 ≠ 0 → s.arg3 ≠ 0 →
      ProcessReady fmt mode s → t = processBank fmt mode s.arg0.toNat s.arg1.toNat s.arg2.toNat s.arg3.toNat s →
      CommandDone i s (endCommand .ok t)
  /-- FX.RSHIFT, FX.SAT16, FX.SAT24 and FX.SAT32 write RES1:RES0 alone. -/
  | fx (i : Instr) (s : State) (r : Int) : i.channel = none → i.process = none →
      CommandDone i s (endCommand .ok (setRes64 r s))

/-- Each of the six PROCESS commands is the common body of rule R112. -/
theorem exec_process {i : Instr} {fmt : Format} {mode : Mode} (h : i.process = some (fmt, mode)) (s : State) :
    exec i s = processCore fmt mode s := by
  cases i <;> simp only [Instr.process, Option.some.injEq, Prod.mk.injEq, reduceCtorEq] at h <;>
    (obtain ⟨rfl, rfl⟩ := h; rfl)

theorem fsConfigure_cases (s : State) (ch : Nat) (h : ch < s.params.nchMax) :
    ((s.chan ch).LC ≠ .uninit ∧ execFsConfigure ch s = .next (endCommand .errState s)) ∨
    ((s.chan ch).LC = .uninit ∧ ¬(4 ≤ s.arg0.toNat ∧ s.arg0.toNat ≤ s.params.maxLength ∧ s.arg0.toNat % 4 = 0) ∧
      execFsConfigure ch s = .next (endCommand .invalidConfig s)) ∨
    ((s.chan ch).LC = .uninit ∧ (4 ≤ s.arg0.toNat ∧ s.arg0.toNat ≤ s.params.maxLength ∧ s.arg0.toNat % 4 = 0) ∧
      s.params.coefRamWords < s.arg2.toNat + s.arg0.toNat ∧ execFsConfigure ch s = .next (endCommand .errRange s)) ∨
    ((s.chan ch).LC = .uninit ∧ (4 ≤ s.arg0.toNat ∧ s.arg0.toNat ≤ s.params.maxLength ∧ s.arg0.toNat % 4 = 0) ∧
      s.arg2.toNat + s.arg0.toNat ≤ s.params.coefRamWords ∧
      execFsConfigure ch s = .next (endCommand .ok (setRes0 (BitVec.ofNat 32 ((s.arg0.toNat + 2) * 4))
        (s.setChan ch (configuredChan (s.chan ch) s.arg0.toNat s.arg2.toNat (opS s)))))) := by
  rw [execFsConfigure, onChannel_of_lt h]
  simp only [opT_eq, opCoefBase_eq, validT, decide_eq_false_iff_not]
  by_cases h1 : (s.chan ch).LC = .uninit
  · by_cases h2 : 4 ≤ s.arg0.toNat ∧ s.arg0.toNat ≤ s.params.maxLength ∧ s.arg0.toNat % 4 = 0
    · rw [if_neg (by simpa using h1), if_neg (by simpa using h2)]
      by_cases h3 : s.params.coefRamWords < s.arg2.toNat + s.arg0.toNat
      · rw [if_pos h3]
        exact .inr (.inr (.inl ⟨h1, h2, h3, rfl⟩))
      · rw [if_neg h3]
        exact .inr (.inr (.inr ⟨h1, h2, Nat.le_of_not_lt h3, rfl⟩))
    · rw [if_neg (by simpa using h1), if_pos h2]
      exact .inr (.inl ⟨h1, h2, rfl⟩)
  · rw [if_pos h1]
    exact .inl ⟨h1, rfl⟩

theorem fsBind_cases (s : State) (ch : Nat) (h : ch < s.params.nchMax) :
    ((s.chan ch).LC ≠ .configured ∧ execFsBind ch s = .next (endCommand .errState s)) ∨
    ((s.chan ch).LC = .configured ∧ s.params.dlRamSlots < s.cursor.toNat + (s.chan ch).L.toNat ∧
      execFsBind ch s = .next (endCommand .errRange s)) ∨
    ((s.chan ch).LC = .configured ∧ s.cursor.toNat + (s.chan ch).L.toNat ≤ s.params.dlRamSlots ∧
      execFsBind ch s = .next (endCommand .ok { s.setChan ch (boundChan (s.chan ch) s.cursor) with
        cursor := BitVec.ofNat 16 (s.cursor.toNat + (s.chan ch).L.toNat) })) := by
  rw [execFsBind, onChannel_of_lt h]
  simp only [opCursor_eq]
  by_cases h1 : (s.chan ch).LC = .configured
  · rw [if_neg (by simpa using h1)]
    by_cases h2 : s.params.dlRamSlots < s.cursor.toNat + (s.chan ch).L.toNat
    · rw [if_pos h2]
      exact .inr (.inl ⟨h1, h2, rfl⟩)
    · rw [if_neg h2]
      refine .inr (.inr ⟨h1, Nat.le_of_not_lt h2, ?_⟩)
      rw [BitVec.ofNat_toNat, BitVec.setWidth_eq]
      rfl
  · rw [if_pos h1]
    exact .inl ⟨h1, rfl⟩

theorem fsShiftplan_eq (s : State) (ch : Nat) (h : ch < s.params.nchMax) :
    execFsShiftplan ch s = .next (endCommand .ok (setRes0
      ((BitVec.ofNat 32 (max 0 (s.chan ch).S.toInt).toNat <<< 8) ||| BitVec.ofNat 32 (max 0 (-(s.chan ch).S.toInt)).toNat) s)) := by
  rw [execFsShiftplan, onChannel_of_lt h]
  simp [sext, shiftPlan, complete]

theorem dlTap_cases (s : State) (ch : Nat) (h : ch < s.params.nchMax) (ha : (s.chan ch).LC = .active) :
    ((s.chan ch).T.toNat ≤ s.arg0.toNat ∧ execDlTap ch s = .fault .tapIndex) ∨
    (s.arg0.toNat < (s.chan ch).T.toNat ∧
      execDlTap ch s = .next (endCommand .ok (setRes0 (trunc 32 (tap s ch s.arg0.toNat)) s))) := by
  rw [execDlTap, onActive_of_active h ha]
  simp only [opTapIndex_eq]
  by_cases hk : (s.chan ch).T.toNat ≤ s.arg0.toNat
  · exact .inl ⟨hk, by rw [if_pos hk]; rfl⟩
  · exact .inr ⟨Nat.lt_of_not_le hk, by rw [if_neg hk]; rfl⟩

theorem kSingle_eq {s : State} {ch : Nat} (h : ch < s.params.nchMax) (ha : (s.chan ch).LC = .active) :
    execKSingle ch s =
      .next (endCommand .ok (setRes0 (trunc 32 (kernelStep ch s.arg0.toInt s).1) (dlPush ch s.arg0 s))) := by
  rw [execKSingle, onActive_of_active h ha]
  simp only [opX0_eq, kernelStep_snd, trunc_toInt]
  rfl

theorem kDual_eq {s : State} {ch : Nat} (h : ch < s.params.nchMax) (ha : (s.chan ch).LC = .active) :
    execKDual ch s = .next (endCommand .ok (setResults (trunc 32 (kernelStep ch s.arg0.toInt s).1)
      (trunc 32 (kernelStep ch s.arg1.toInt (dlPush ch s.arg0 s)).1) (dlPush ch s.arg1 (dlPush ch s.arg0 s)))) := by
  rw [execKDual, onActive_of_active h ha]
  simp only [opX0_eq, opX1_eq, kernelDual_eq, trunc_toInt]
  rfl

/-- A command on a channel either is out of range, or is not. -/
theorem onChannel_cases {i : Instr} {s t : State} {ch : Nat} {body : State → Result State}
    (h : onChannel ch s body = .next t) : CommandDone i s t ∨ (ch < s.params.nchMax ∧ body s = .next t) := by
  by_cases hc : ch < s.params.nchMax
  · rw [onChannel_of_lt hc] at h
    exact .inr ⟨hc, h⟩
  · rw [onChannel_of_le (Nat.le_of_not_lt hc)] at h
    cases h
    exact .inl (.error i s .errIllegal (by decide))

theorem onActive_cases {i : Instr} {s t : State} {ch : Nat} {body : State → Result State}
    (h : onActive ch s body = .next t) :
    CommandDone i s t ∨ (ch < s.params.nchMax ∧ (s.chan ch).LC = .active ∧ body s = .next t) := by
  rcases onChannel_cases (i := i) h with h | ⟨hc, h⟩
  · exact .inl h
  · by_cases ha : (s.chan ch).LC = .active
    · rw [if_pos ha] at h
      exact .inr ⟨hc, ha, h⟩
    · rw [if_neg ha] at h
      cases h

theorem process_done {i : Instr} {fmt : Format} {mode : Mode} {s t : State} (hi : i.process = some (fmt, mode))
    (h : processCore fmt mode s = .next t) : CommandDone i s t := by
  rcases processCore_cases fmt mode s with ⟨hz, he⟩ | ⟨_, _, v, _, he⟩ | ⟨h2, h3, hr, he⟩
  · rw [he] at h
    cases h
    exact .processEmpty i fmt mode s hi hz
  · rw [he] at h
    cases h
  · rw [he] at h
    cases h
    exact .process i fmt mode s _ hi h2 h3 hr rfl

/-- Everything a command can do. -/
theorem exec_done {i : Instr} {s t : State} (h : exec i s = .next t) : CommandDone i s t := by
  cases i with
  | fsReset ch =>
    have h : execFsReset ch s = .next t := h
    unfold execFsReset at h
    rcases onChannel_cases (i := .fsReset ch) h with h | ⟨hc, h⟩
    · exact h
    · cases h
      exact .fsReset s ch hc
  | fsConfigure ch =>
    have h0 : execFsConfigure ch s = .next t := h
    have h := h0
    unfold execFsConfigure at h
    rcases onChannel_cases (i := .fsConfigure ch) h with h' | ⟨hc, _⟩
    · exact h'
    · rcases fsConfigure_cases s ch hc with ⟨_, he⟩ | ⟨_, _, he⟩ | ⟨_, _, _, he⟩ | ⟨h1, h2, h3, he⟩
      · cases he.symm.trans h0
        exact .error _ _ _ (by decide)
      · cases he.symm.trans h0
        exact .error _ _ _ (by decide)
      · cases he.symm.trans h0
        exact .error _ _ _ (by decide)
      · cases he.symm.trans h0
        exact .fsConfigure s ch hc h1 h2.1 h2.2.1 h2.2.2 h3
  | fsBind ch =>
    have h0 : execFsBind ch s = .next t := h
    have h := h0
    unfold execFsBind at h
    rcases onChannel_cases (i := .fsBind ch) h with h' | ⟨hc, _⟩
    · exact h'
    · rcases fsBind_cases s ch hc with ⟨_, he⟩ | ⟨_, _, he⟩ | ⟨h1, h2, he⟩
      · cases he.symm.trans h0
        exact .error _ _ _ (by decide)
      · cases he.symm.trans h0
        exact .error _ _ _ (by decide)
      · cases he.symm.trans h0
        exact .fsBind s ch hc h1 h2
  | fsShiftplan ch =>
    have h0 : execFsShiftplan ch s = .next t := h
    have h := h0
    unfold execFsShiftplan at h
    rcases onChannel_cases (i := .fsShiftplan ch) h with h' | ⟨hc, _⟩
    · exact h'
    · cases (fsShiftplan_eq s ch hc).symm.trans h0
      exact .fsShiftplan s ch _ hc rfl
  | dlPush ch =>
    have h : execDlPush ch s = .next t := h
    unfold execDlPush at h
    rcases onActive_cases (i := .dlPush ch) h with h | ⟨hc, ha, h⟩
    · exact h
    · cases h
      exact .dlPush s ch hc ha
  | dlTap ch =>
    have h0 : execDlTap ch s = .next t := h
    have h := h0
    unfold execDlTap at h
    rcases onActive_cases (i := .dlTap ch) h with h' | ⟨hc, ha, _⟩
    · exact h'
    · rcases dlTap_cases s ch hc ha with ⟨_, he⟩ | ⟨hk, he⟩
      · cases he.symm.trans h0
      · cases he.symm.trans h0
        exact .dlTap s ch hc ha hk
  | kSingle ch =>
    have h0 : execKSingle ch s = .next t := h
    have h := h0
    unfold execKSingle at h
    rcases onActive_cases (i := .kSingle ch) h with h' | ⟨hc, ha, _⟩
    · exact h'
    · cases (kSingle_eq hc ha).symm.trans h0
      exact .kSingle s ch _ hc ha rfl
  | kDual ch =>
    have h0 : execKDual ch s = .next t := h
    have h := h0
    unfold execKDual at h
    rcases onActive_cases (i := .kDual ch) h with h' | ⟨hc, ha, _⟩
    · exact h'
    · cases (kDual_eq hc ha).symm.trans h0
      exact .kDual s ch _ _ hc ha rfl rfl
  | processS16Any => exact process_done (fmt := .s16) (mode := .any) rfl h
  | processS16Even => exact process_done (fmt := .s16) (mode := .even) rfl h
  | processS24Any => exact process_done (fmt := .s24) (mode := .any) rfl h
  | processS24Even => exact process_done (fmt := .s24) (mode := .even) rfl h
  | processS32Any => exact process_done (fmt := .s32) (mode := .any) rfl h
  | processS32Even => exact process_done (fmt := .s32) (mode := .even) rfl h
  | fxRshift =>
    have h : execFxRshift s = .next t := h
    unfold execFxRshift complete at h
    cases h
    exact .fx _ s _ rfl rfl
  | fxSat16 =>
    have h : execFxSat16 s = .next t := h
    unfold execFxSat16 complete at h
    cases h
    exact .fx _ s _ rfl rfl
  | fxSat24 =>
    have h : execFxSat24 s = .next t := h
    unfold execFxSat24 complete at h
    cases h
    exact .fx _ s _ rfl rfl
  | fxSat32 =>
    have h : execFxSat32 s = .next t := h
    unfold execFxSat32 complete at h
    cases h
    exact .fx _ s _ rfl rfl

/-! ### What the bank leaves alone, whatever the state -/

/-- t differs from s in FilterStates, DLRAM and sample memory only. -/
def OnlyBank (s t : State) : Prop := t = { s with fs := t.fs, dlram := t.dlram, mem := t.mem }

theorem OnlyBank.trans {s t u : State} (h : OnlyBank s t) (h' : OnlyBank t u) : OnlyBank s u := by
  unfold OnlyBank at *
  rw [h] at h'
  exact h'

theorem dlPush_frame (c : Nat) (p : Word) (u : State) : OnlyBank u (dlPush c p u) := rfl

theorem writeElem_frame (fmt : Format) (dst N f c : Nat) (y : Int) (u : State) : OnlyBank u (writeElem fmt dst N f c y u) := rfl

/-- What two elements do, in terms of their pushes. -/
theorem processTwo_shape (fmt : Format) (src dst N c p : Nat) (u : State) :
    ∃ y0 y1 p0 p1, processTwo fmt src dst N c p u =
      writeElem fmt dst N (2 * p + 1) c y1 (writeElem fmt dst N (2 * p) c y0 (dlPush c p1 (dlPush c p0 u))) := by
  unfold processTwo
  rw [kernelDual_eq]
  exact ⟨_, _, _, _, rfl⟩

theorem processOne_frame (fmt : Format) (src dst N c f : Nat) (u : State) :
    OnlyBank u (processOne fmt src dst N c f u) := by
  rw [processOne_eq]
  exact (dlPush_frame c _ u).trans (writeElem_frame fmt dst N f c _ _)

theorem processTwo_frame (fmt : Format) (src dst N c p : Nat) (u : State) :
    OnlyBank u (processTwo fmt src dst N c p u) := by
  obtain ⟨y0, y1, p0, p1, h⟩ := processTwo_shape fmt src dst N c p u
  rw [h]
  exact (((dlPush_frame c p0 u).trans (dlPush_frame c p1 _)).trans (writeElem_frame fmt dst N _ c y0 _)).trans
    (writeElem_frame fmt dst N _ c y1 _)

/-- The bank changes FilterStates, DLRAM and sample memory, nothing else. -/
theorem processBank_frame (fmt : Format) (mode : Mode) (src dst F N : Nat) (s : State) :
    OnlyBank s (processBank fmt mode src dst F N s) := by
  refine forUp_induct (P := fun _ t => OnlyBank s t) rfl fun c t _ ht => ?_
  cases mode with
  | any =>
    exact forUp_induct (P := fun _ u => OnlyBank s u) ht fun f u _ hu => hu.trans (processOne_frame fmt src dst N c f u)
  | even =>
    exact forUp_induct (P := fun _ u => OnlyBank s u) ht fun f u _ hu => hu.trans (processTwo_frame fmt src dst N c f u)

/-- g differs from f in `wp` only. -/
def OnlyCursor (f g : FilterState) : Prop := g = { f with wp := g.wp }

theorem OnlyCursor.trans {f g h : FilterState} (hg : OnlyCursor f g) (hh : OnlyCursor g h) : OnlyCursor f h := by
  unfold OnlyCursor at *
  rw [hg] at hh
  exact hh

theorem processOne_chan (fmt : Format) (src dst N c f : Nat) (u : State) (d : Nat) :
    OnlyCursor (u.chan d) ((processOne fmt src dst N c f u).chan d) := by
  rw [processOne_eq]
  exact dlPush_chan u c d _

theorem processTwo_chan (fmt : Format) (src dst N c p : Nat) (u : State) (d : Nat) :
    OnlyCursor (u.chan d) ((processTwo fmt src dst N c p u).chan d) := by
  obtain ⟨y0, y1, p0, p1, h⟩ := processTwo_shape fmt src dst N c p u
  rw [h]
  exact OnlyCursor.trans (dlPush_chan u c d p0) (dlPush_chan (dlPush c p0 u) c d p1)

/-- Whatever the bank does, a FilterState can differ in `wp` only. -/
theorem processBank_chan (fmt : Format) (mode : Mode) (src dst F N : Nat) (s : State) (d : Nat) :
    OnlyCursor (s.chan d) ((processBank fmt mode src dst F N s).chan d) := by
  refine forUp_induct (P := fun _ t => OnlyCursor (s.chan d) (t.chan d)) rfl fun c t _ ht => ?_
  cases mode with
  | any =>
    exact forUp_induct (P := fun _ u => OnlyCursor (s.chan d) (u.chan d)) ht
      fun f u _ hu => hu.trans (processOne_chan fmt src dst N c f u d)
  | even =>
    exact forUp_induct (P := fun _ u => OnlyCursor (s.chan d) (u.chan d)) ht
      fun f u _ hu => hu.trans (processTwo_chan fmt src dst N c f u d)

/-! ### No command is refused -/

theorem onChannel_not_refused {s : State} {ch : Nat} {body : State → Result State} {r : Refusal}
    (hb : body s ≠ .refused r) : onChannel ch s body ≠ .refused r := by
  rcases Nat.lt_or_ge ch s.params.nchMax with h | h
  · rw [onChannel_of_lt h]
    exact hb
  · rw [onChannel_of_le h]
    simp

theorem onActive_not_refused {s : State} {ch : Nat} {body : State → Result State} {r : Refusal}
    (hb : body s ≠ .refused r) : onActive ch s body ≠ .refused r := by
  refine onChannel_not_refused ?_
  split
  · exact hb
  · simp [violate]

theorem processCore_not_refused (fmt : Format) (mode : Mode) (s : State) (r : Refusal) :
    processCore fmt mode s ≠ .refused r := by
  rcases processCore_cases fmt mode s with ⟨_, he⟩ | ⟨_, _, v, _, he⟩ | ⟨_, _, _, he⟩ <;> rw [he] <;> simp

end Sys2Proof.Machine
end

