-- ==== Sys2Proof/Laws/Decode.lean ====
section
/-! SUPPORT. The table of rule R58: its rows do not overlap, and what decoding a word that a row matches gives. -/

namespace Sys2Proof

theorem OpRow.selects_iff (r : OpRow) (w : Word) : r.selects w = true ↔ w &&& r.mask = r.pattern := by
  simp [OpRow.selects]

/-- Two rows that match one word agree on the bits both masks look at. -/
theorem rows_agree {r r' : OpRow} {w : Word} (h : w &&& r.mask = r.pattern) (h' : w &&& r'.mask = r'.pattern) :
    r.pattern &&& r'.mask = r'.pattern &&& r.mask := by
  rw [← h, ← h', BitVec.and_assoc, BitVec.and_assoc, BitVec.and_comm r.mask]

/-- Every two rows of the table that agree on the bits both masks look at have one mnemonic: no two rows match one word. -/
theorem opTable_disjoint :
    ∀ r ∈ opTable, ∀ r' ∈ opTable, r.pattern &&& r'.mask = r'.pattern &&& r.mask → r.mnemonic = r'.mnemonic := by
  decide +kernel

theorem decode_ok_iff {w : Word} {i : Instr} :
    decode w = .ok i ↔ ∃ r, opTable.find? (fun r => r.selects w) = some r ∧ r.make (fieldCH w) = i := by
  unfold decode
  cases h : opTable.find? (fun r => r.selects w) with
  | none => simp
  | some r => simp

/-- A word that no row matches is rejected, by name. -/
theorem decode_error_of_no_row {w : Word} (h : ∀ r ∈ opTable, w &&& r.mask ≠ r.pattern) :
    decode w = .error (decodeErrorOf w) := by
  have : opTable.find? (fun r => r.selects w) = none := by
    rw [List.find?_eq_none]
    intro r hr hs
    exact h r hr ((r.selects_iff w).1 hs)
  unfold decode
  rw [this]

/-- The row a decoded word was read by. -/
theorem decode_row {w : Word} {i : Instr} (h : decode w = .ok i) :
    ∃ r ∈ opTable, w &&& r.mask = r.pattern ∧ r.make (fieldCH w) = i := by
  obtain ⟨r, hf, hm⟩ := decode_ok_iff.1 h
  exact ⟨r, List.mem_of_find?_eq_some hf, (r.selects_iff w).1 (by simpa using List.find?_some hf), hm⟩

/-- The fields of a channel command's word (rules R55, R57): its masked bits are the opcode, its channel is CH. -/
theorem channel_word_fields (c : Fin 256) :
    cmdWord 0x01 c 0 0 &&& 0xFFFF00FF#32 = 0x01#32 ∧ cmdWord 0x02 c 0 0 &&& 0xFFFF00FF#32 = 0x02#32 ∧
    cmdWord 0x03 c 0 0 &&& 0xFFFF00FF#32 = 0x03#32 ∧ cmdWord 0x04 c 0 0 &&& 0xFFFF00FF#32 = 0x04#32 ∧
    cmdWord 0x08 c 0 0 &&& 0xFFFF00FF#32 = 0x08#32 ∧ cmdWord 0x09 c 0 0 &&& 0xFFFF00FF#32 = 0x09#32 ∧
    cmdWord 0x10 c 0 0 &&& 0xFFFF00FF#32 = 0x10#32 ∧ cmdWord 0x11 c 0 0 &&& 0xFFFF00FF#32 = 0x11#32 := by
  revert c
  decide +kernel

theorem channel_word_channel (c : Fin 256) :
    fieldCH (cmdWord 0x01 c 0 0) = c ∧ fieldCH (cmdWord 0x02 c 0 0) = c ∧ fieldCH (cmdWord 0x03 c 0 0) = c ∧
    fieldCH (cmdWord 0x04 c 0 0) = c ∧ fieldCH (cmdWord 0x08 c 0 0) = c ∧ fieldCH (cmdWord 0x09 c 0 0) = c ∧
    fieldCH (cmdWord 0x10 c 0 0) = c ∧ fieldCH (cmdWord 0x11 c 0 0) = c := by
  revert c
  decide +kernel

end Sys2Proof
end

