-- ==== Sys2Proof/Laws/PerInstr.lean ====
section
/-! SUPPORT. Statements about every command, one lemma a constructor. -/

namespace Sys2Proof.Laws.TableRow

/-- The word of a well-formed command matches the table row that makes that command (rules R57, R58). -/
def Statement (i : Instr) : Prop :=
  wellFormed i = true → ∃ r ∈ opTable, encode i &&& r.mask = r.pattern ∧ r.make (fieldCH (encode i)) = i

theorem lt_of_fits {ch : Nat} (h : channelFits ch = true) : ch < 256 := by simpa [channelFits] using h

theorem fsReset (ch : Nat) : Statement (.fsReset ch) := fun h =>
  have hc := lt_of_fits h
  ⟨_, List.mem_append_left _ (.head _), (channel_word_fields ⟨ch, hc⟩).1,
    congrArg Instr.fsReset (channel_word_channel ⟨ch, hc⟩).1⟩

theorem fsConfigure (ch : Nat) : Statement (.fsConfigure ch) := fun h =>
  have hc := lt_of_fits h
  ⟨_, List.mem_append_left _ (.tail _ (.head _)), (channel_word_fields ⟨ch, hc⟩).2.1,
    congrArg Instr.fsConfigure (channel_word_channel ⟨ch, hc⟩).2.1⟩

theorem fsBind (ch : Nat) : Statement (.fsBind ch) := fun h =>
  have hc := lt_of_fits h
  ⟨_, List.mem_append_left _ (.tail _ (.tail _ (.head _))), (channel_word_fields ⟨ch, hc⟩).2.2.1,
    congrArg Instr.fsBind (channel_word_channel ⟨ch, hc⟩).2.2.1⟩

theorem fsShiftplan (ch : Nat) : Statement (.fsShiftplan ch) := fun h =>
  have hc := lt_of_fits h
  ⟨_, List.mem_append_left _ (.tail _ (.tail _ (.tail _ (.head _)))), (channel_word_fields ⟨ch, hc⟩).2.2.2.1,
    congrArg Instr.fsShiftplan (channel_word_channel ⟨ch, hc⟩).2.2.2.1⟩

theorem dlPush (ch : Nat) : Statement (.dlPush ch) := fun h =>
  have hc := lt_of_fits h
  ⟨_, List.mem_append_left _ (.tail _ (.tail _ (.tail _ (.tail _ (.head _))))), (channel_word_fields ⟨ch, hc⟩).2.2.2.2.1,
    congrArg Instr.dlPush (channel_word_channel ⟨ch, hc⟩).2.2.2.2.1⟩

theorem dlTap (ch : Nat) : Statement (.dlTap ch) := fun h =>
  have hc := lt_of_fits h
  ⟨_, List.mem_append_left _ (.tail _ (.tail _ (.tail _ (.tail _ (.tail _ (.head _)))))),
    (channel_word_fields ⟨ch, hc⟩).2.2.2.2.2.1, congrArg Instr.dlTap (channel_word_channel ⟨ch, hc⟩).2.2.2.2.2.1⟩

theorem kSingle (ch : Nat) : Statement (.kSingle ch) := fun h =>
  have hc := lt_of_fits h
  ⟨_, List.mem_append_left _ (.tail _ (.tail _ (.tail _ (.tail _ (.tail _ (.tail _ (.head _))))))),
    (channel_word_fields ⟨ch, hc⟩).2.2.2.2.2.2.1, congrArg Instr.kSingle (channel_word_channel ⟨ch, hc⟩).2.2.2.2.2.2.1⟩

theorem kDual (ch : Nat) : Statement (.kDual ch) := fun h =>
  have hc := lt_of_fits h
  ⟨_, List.mem_append_left _ (.tail _ (.tail _ (.tail _ (.tail _ (.tail _ (.tail _ (.tail _ (.head _)))))))),
    (channel_word_fields ⟨ch, hc⟩).2.2.2.2.2.2.2, congrArg Instr.kDual (channel_word_channel ⟨ch, hc⟩).2.2.2.2.2.2.2⟩

theorem processS16Any : Statement .processS16Any := fun _ =>
  ⟨_, List.mem_append_right _ (.head _), by decide, rfl⟩

theorem processS16Even : Statement .processS16Even := fun _ =>
  ⟨_, List.mem_append_right _ (.tail _ (.head _)), by decide, rfl⟩

theorem processS24Any : Statement .processS24Any := fun _ =>
  ⟨_, List.mem_append_right _ (.tail _ (.tail _ (.head _))), by decide, rfl⟩

theorem processS24Even : Statement .processS24Even := fun _ =>
  ⟨_, List.mem_append_right _ (.tail _ (.tail _ (.tail _ (.head _)))), by decide, rfl⟩

theorem processS32Any : Statement .processS32Any := fun _ =>
  ⟨_, List.mem_append_right _ (.tail _ (.tail _ (.tail _ (.tail _ (.head _))))), by decide, rfl⟩

theorem processS32Even : Statement .processS32Even := fun _ =>
  ⟨_, List.mem_append_right _ (.tail _ (.tail _ (.tail _ (.tail _ (.tail _ (.head _)))))), by decide, rfl⟩

theorem fxRshift : Statement .fxRshift := fun _ =>
  ⟨_, List.mem_append_right _ (.tail _ (.tail _ (.tail _ (.tail _ (.tail _ (.tail _ (.head _))))))), by decide, rfl⟩

theorem fxSat16 : Statement .fxSat16 := fun _ =>
  ⟨_, List.mem_append_right _ (.tail _ (.tail _ (.tail _ (.tail _ (.tail _ (.tail _ (.tail _ (.head _)))))))), by decide, rfl⟩

theorem fxSat24 : Statement .fxSat24 := fun _ =>
  ⟨_, List.mem_append_right _
    (.tail _ (.tail _ (.tail _ (.tail _ (.tail _ (.tail _ (.tail _ (.tail _ (.head _))))))))), by decide, rfl⟩

theorem fxSat32 : Statement .fxSat32 := fun _ =>
  ⟨_, List.mem_append_right _
    (.tail _ (.tail _ (.tail _ (.tail _ (.tail _ (.tail _ (.tail _ (.tail _ (.tail _ (.head _)))))))))), by decide, rfl⟩

end Sys2Proof.Laws.TableRow
end

