-- ==== Sys2Proof/Laws/Step.lean ====
section
/-! SUPPORT. Everything a step can do, said once: a command completes, or the host has its turn. -/

namespace Sys2Proof.Machine

@[simp] theorem busy_running (s : State) (n : Nat) (h : s.phase = .running n) : s.busy = true := by simp [State.busy, h]
@[simp] theorem busy_idle (s : State) (h : s.phase = .idle) : s.busy = false := by simp [State.busy, h]
@[simp] theorem busy_unseen (s : State) (h : s.phase = .unseen) : s.busy = false := by simp [State.busy, h]

theorem busy_iff (s : State) : s.busy = true ↔ ∃ n, s.phase = .running n := by
  unfold State.busy
  cases s.phase <;> simp

/-! ### Steps -/

/-- The command in flight completes. -/
theorem step_running_zero {s : State} (h : s.phase = .running 0) : step s = runCommand s := by
  rw [step, stepBlock, if_pos h]

/-- The host has its turn. -/
theorem step_host {s : State} (h : s.phase ≠ .running 0) : step s = hostTurn s := by
  rw [step, stepBlock, if_neg h]

/-- The host has nothing more to do. -/
theorem step_script_nil {s : State} (h : s.phase ≠ .running 0) (hs : s.script = []) : step s = .next (countDown s) := by
  rw [step_host h]
  unfold hostTurn
  split
  · rfl
  · next he => exact absurd (hs.symm.trans he) (by simp)

/-- The host has its turn, and the next access is op. -/
theorem step_op {s : State} {op : HostOp} {rest : List HostOp} (h : s.phase ≠ .running 0) (hs : s.script = op :: rest) :
    step s = endTurn s.busy (performOp op { s with script := rest }) := by
  rw [step_host h]
  unfold hostTurn
  split
  · next he => exact absurd (hs.symm.trans he) (by simp)
  · next op' rest' he =>
    cases hs.symm.trans he
    rfl

theorem step_op_next {s t : State} {op : HostOp} {rest : List HostOp} (h : s.phase ≠ .running 0) (hs : s.script = op :: rest)
    (hp : performOp op { s with script := rest } = .next t) : step s = .next (if s.busy then countDown t else t) := by
  rw [step_op h hs, hp]
  rfl

theorem step_op_fault {s : State} {op : HostOp} {rest : List HostOp} {v : Fault} (h : s.phase ≠ .running 0)
    (hs : s.script = op :: rest) (hp : performOp op { s with script := rest } = .fault v) : step s = .fault v := by
  rw [step_op h hs, hp]
  rfl

/-- Everything a step that answers a next state can have done. -/
theorem step_cases {s t : State} (h : step s = .next t) :
    (s.phase = .running 0 ∧ runCommand s = .next t) ∨
    (s.phase ≠ .running 0 ∧ s.script = [] ∧ t = countDown s) ∨
    (s.phase ≠ .running 0 ∧ ∃ op rest u, s.script = op :: rest ∧ performOp op { s with script := rest } = .next u ∧
      t = if s.busy then countDown u else u) := by
  by_cases h0 : s.phase = .running 0
  · exact .inl ⟨h0, (step_running_zero h0) ▸ h⟩
  · cases hs : s.script with
    | nil =>
      rw [step_script_nil h0 hs] at h
      cases h
      exact .inr (.inl ⟨h0, rfl, rfl⟩)
    | cons op rest =>
      rw [step_op h0 hs] at h
      cases hp : performOp op { s with script := rest } with
      | next u =>
        rw [hp] at h
        cases h
        exact .inr (.inr ⟨h0, op, rest, u, rfl, hp, rfl⟩)
      | fault v => rw [hp] at h; cases h
      | refused r => rw [hp] at h; cases h

/-- Completing a command: the decoded command, or ERR_ILLEGAL (rules R58, R61). -/
theorem runCommand_cases (s : State) :
    (∃ i, decode s.cmd = .ok i ∧ runCommand s = exec i s) ∨
    (∃ e, decode s.cmd = .error e ∧ runCommand s = .next (endCommand .errIllegal s)) := by
  unfold runCommand
  cases h : decode s.cmd with
  | ok i => exact .inl ⟨i, rfl, rfl⟩
  | error e => exact .inr ⟨e, rfl, rfl⟩

/-! ### One access fewer -/

theorem countDown_eq (s : State) : countDown s = { s with phase := (countDown s).phase } := by
  unfold countDown
  split <;> rfl

theorem countDown_running (s : State) (n : Nat) (h : s.phase = .running (n + 1)) :
    countDown s = { s with phase := .running n } := by simp [countDown, h]

theorem countDown_not_busy {s : State} (h : s.busy = false) : countDown s = s := by
  unfold countDown
  split
  · next hp => simp [State.busy, hp] at h
  · rfl
  · rfl
  · rfl

/-! ### The slave map (rules R36, R63, R64) -/

theorem slavePlace_status_iff (p : Params) {a : Nat} : slavePlace p a = .status ↔ a = 0x004 := by
  unfold slavePlace controlPlace
  constructor
  · intro h
    repeat' split at h
    all_goals first | omega | cases h
  · rintro rfl
    rfl

/-- A read of STATUS, in each phase. -/
theorem hostRead_status (s : State) : hostRead 0x004 s = readStatus s := by
  have : slavePlace s.params (0x004 : BitVec 18).toNat = .status := (slavePlace_status_iff _).2 rfl
  rw [hostRead]
  exact if_pos this

theorem controlPlace_nothing_iff {a : Nat} (ha : a % 4 = 0) : controlPlace a = .nothing ↔ 0x2C ≤ a := by
  constructor
  · intro h
    by_contra hlt
    have : a = 0x00 ∨ a = 0x04 ∨ a = 0x08 ∨ a = 0x0C ∨ a = 0x10 ∨ a = 0x14 ∨ a = 0x18 ∨ a = 0x1C ∨ a = 0x20 ∨ a = 0x24 ∨
        a = 0x28 := by omega
    rcases this with rfl | rfl | rfl | rfl | rfl | rfl | rfl | rfl | rfl | rfl | rfl <;> cases h
  · intro h
    unfold controlPlace
    repeat rw [if_neg (by omega)]

/-- The place of an aligned address is `nothing` exactly when the address names nothing (rule R37). -/
theorem slavePlace_nothing_iff (p : Params) {a : Nat} (ha : a % 4 = 0) : slavePlace p a = .nothing ↔ NamesNothing p a := by
  unfold slavePlace NamesNothing
  by_cases h0 : a < 0x100
  · rw [if_pos h0, controlPlace_nothing_iff ha]
    omega
  rw [if_neg h0]
  by_cases h1 : a < 0x10000
  · rw [if_pos h1]
    split
    · exact iff_of_false (by simp) (by omega)
    · exact iff_of_true rfl (by omega)
  rw [if_neg h1]
  by_cases h2 : a < 0x20000
  · rw [if_pos h2]
    split
    · exact iff_of_false (by simp) (by omega)
    · exact iff_of_true rfl (by omega)
  rw [if_neg h2]
  by_cases h3 : a < 0x30000
  · rw [if_pos h3]
    split
    · exact iff_of_false (by simp) (by omega)
    · exact iff_of_true rfl (by omega)
  rw [if_neg h3]
  exact iff_of_true rfl (by omega)

@[simp] theorem portOpen_idle {s : State} (h : s.phase = .idle) (place : SlavePlace) : portOpen s place = true := by
  simp [portOpen, h]

@[simp] theorem portOpen_unseen {s : State} (h : s.phase = .unseen) (place : SlavePlace) :
    portOpen s place = decide (place = .nothing) := by
  simp [portOpen, h]

@[simp] theorem portOpen_running {s : State} {n : Nat} (h : s.phase = .running n) (place : SlavePlace) :
    portOpen s place = false := by
  simp [portOpen, h]

/-- Nothing but STATUS is open while BUSY = 1. -/
theorem portOpen_not_busy {s : State} {place : SlavePlace} (h : portOpen s place = true) : s.busy = false := by
  cases hp : s.phase with
  | idle => exact busy_idle s hp
  | unseen => exact busy_unseen s hp
  | running n => simp [portOpen, hp] at h

theorem portOpen_congr {s s' : State} (h : s.phase = s'.phase) (place : SlavePlace) : portOpen s place = portOpen s' place := by
  rw [portOpen, portOpen, h]

/-- A read of any other place that is open to the host. -/
theorem hostRead_open {s : State} {a : BitVec 18} (h : portOpen s (slavePlace s.params a.toNat) = true)
    (ha : slavePlace s.params a.toNat ≠ .status) :
    hostRead a s = returnWord (slaveRead s (slavePlace s.params a.toNat)) s := by
  rw [hostRead]
  exact (if_neg ha).trans (if_pos h)

/-- A read of any other place that is closed (rule R145). -/
theorem hostRead_early {s : State} {a : BitVec 18} (h : portOpen s (slavePlace s.params a.toNat) = false)
    (ha : a.toNat ≠ 0x004) : hostRead a s = returnFree s := by
  rw [hostRead]
  exact (if_neg fun hp => ha ((slavePlace_status_iff _).1 hp)).trans (if_neg (by simp [h]))

/-- A write to a place that is open to the host. -/
theorem hostWrite_open {s : State} {a : BitVec 18} (w : Word) (h : portOpen s (slavePlace s.params a.toNat) = true) :
    hostWrite a w s = slaveWrite w s (slavePlace s.params a.toNat) := by
  rw [hostWrite]
  exact if_pos h

/-- A write to a place that is closed (rule R145). -/
theorem hostWrite_early {s : State} {a : BitVec 18} (w : Word) (h : portOpen s (slavePlace s.params a.toNat) = false) :
    hostWrite a w s = .fault .hostHazard := by
  rw [hostWrite]
  exact if_neg (by simp [h])

/-! ### The buffers of the command in flight (rule R49) -/

theorem rangesDisjoint_byte_false (x a n : Nat) : rangesDisjoint x 1 a n = false ↔ a ≤ x ∧ x < a + n := by
  rw [rangesDisjoint_false_iff]
  exact ⟨fun ⟨j, _, _⟩ => by omega, fun h => ⟨x, by omega, h⟩⟩

/-- An address lies in a buffer in flight exactly when a PROCESS is in flight and its source or destination holds it. -/
theorem inBufferInFlight_iff (s : State) (a : Nat) :
    inBufferInFlight s a = true ↔ s.busy = true ∧ ∃ i fmt mode, decode s.cmd = .ok i ∧ i.process = some (fmt, mode) ∧
      ((s.arg0.toNat ≤ a ∧ a < s.arg0.toNat + s.arg2.toNat * s.arg3.toNat * elemSize fmt) ∨
        (s.arg1.toNat ≤ a ∧ a < s.arg1.toNat + s.arg2.toNat * s.arg3.toNat * elemSize fmt)) := by
  unfold inBufferInFlight srcInFlight destInFlight
  simp only [Bool.and_eq_true, Bool.or_eq_true, Bool.not_eq_true', rangesDisjoint_byte_false]
  refine and_congr_right fun _ => ?_
  cases hd : decode s.cmd with
  | error e => simp
  | ok i =>
    cases hp : i.process with
    | none => simp [hp]
    | some fm => simp [hp, Prod.ext_iff, bufferBytes_eq]

end Sys2Proof.Machine
end

