-- ==== Sys2Proof/Tests/Slice0.lean ====
section
/-! SUPPORT. The model's own tests (expected values from spec/95_test_vectors.md and the examples of the rules), and for every
obligation with hypotheses a witness that meets them. -/

namespace Sys2Proof.Tests

open Sys2Proof Sys2Proof.Machine

/-! ### Small states -/

/-- The outcome is a next state with the property p. -/
def endsIn (r : Result State) (p : State → Bool) : Bool :=
  match r with
  | .next t => p t
  | .fault _ => false
  | .refused _ => false

/-- The outcome is the violation v. -/
def stopsWith (r : Result State) (v : Fault) : Bool :=
  match r with
  | .next _ => false
  | .fault v' => decide (v' = v)
  | .refused _ => false

theorem exists_next {r : Result State} {p : State → Bool} (h : endsIn r p = true) : ∃ t, r = .next t ∧ p t = true := by
  cases r with
  | next t => exact ⟨t, rfl, h⟩
  | fault v => cases h
  | refused r => cases h

theorem not_fault {r : Result State} {p : State → Bool} (h : endsIn r p = true) (v : Fault) : r ≠ .fault v := by
  obtain ⟨t, ht, _⟩ := exists_next h
  simp [ht]

/-- A block with three channels, 16 coefficients and 24 slots. -/
def smallParams : Params := { maxLength := 8, nchMax := 3, coefRamWords := 16, dlRamSlots := 24 }

/-- A channel with T = 4. -/
def channel4 (lc : Lifecycle) (S : BitVec 8) (coefBase dlBase wp : Half) : FilterState :=
  { LC := lc, T := 4, L := 6, S := S, coefBase := coefBase, dlBase := dlBase, wp := wp }

/-- An idle block, every channel UNINIT, every RAM entry 0. -/
def blank : State :=
  { params := smallParams, cmd := 0, err := .ok, phase := .idle, arg0 := 0, arg1 := 0, arg2 := 0, arg3 := 0
    res0 := 0, res1 := 0, cursor := 0, fs := List.replicate 3 .uninit, cram := List.replicate 16 0
    dlram := List.replicate 24 0, mem := [], script := [], latency := [], badRanges := [], rdata := 0, draws := 0 }

/-- Channel 0 CONFIGURED with S = −3, the others UNINIT; CURSOR = 0x10. -/
def sized : State := { blank with fs := [channel4 .configured 0xFD 0 0 0, .uninit, .uninit], cursor := 0x10 }

/-- Three ACTIVE channels. Channel 0 has the given coefficients and shift; channels 1 and 2 are the moving average of four
samples; channel 2 stands as in vector 2.2.1. -/
def bench (coefs : List Half) (S : BitVec 8) : State :=
  { blank with
    fs := [channel4 .active S 0 0 0, channel4 .active 0 4 6 0, channel4 .active 0 4 0x10 5]
    cram := coefs ++ List.replicate 4 0x2000 ++ List.replicate 8 0
    dlram := List.replicate 0x12 0 ++ [0xA, 0xB, 0xC] ++ List.replicate 3 0
    cursor := 0x16 }

/-- The exact unity filter (rule R105 (b)) on channel 0. -/
def unity : State := bench [0x4000, 0, 0, 0] 0xFF

/-- Put elements of n bytes at address a. -/
def put (n : Nat) : Nat → List Nat → Memory → Memory
  | _, [], m => m
  | a, e :: es, m => put n (a + n) es (memWriteLE m a n e)

/-- The elements of n bytes at address a. -/
def take (n a : Nat) (m : Memory) (count : Nat) : List Nat := (List.range count).map fun i => memReadLE m (a + n * i) n

/-- A mono PROCESS of the elements es from 0x1000 to 0x2000. -/
def mono (s : State) (n : Nat) (es : List Nat) : State :=
  { s with mem := put n 0x1000 es [], arg0 := 0x1000, arg1 := 0x2000, arg2 := BitVec.ofNat 32 es.length, arg3 := 1 }

/-! ### WellFormed: each check refuses an ill-formed term -/

theorem test_wellFormed_refuses_wide_channels :
    wellFormed (.fsReset 256) = false ∧ wellFormed (.fsConfigure 256) = false ∧ wellFormed (.fsBind 256) = false ∧
    wellFormed (.fsShiftplan 256) = false ∧ wellFormed (.dlPush 256) = false ∧ wellFormed (.dlTap 256) = false ∧
    wellFormed (.kSingle 256) = false ∧ wellFormed (.kDual 256) = false := by decide

theorem test_wellFormed_accepts :
    wellFormed (.fsReset 255) = true ∧ wellFormed .processS16Any = true ∧ wellFormed .fxSat32 = true := by decide

/-! ### Decoding, bit by bit: RSV (13 bits), MODE, FMT, CH, OPC (rule R55; the words of rule R67) -/

theorem test_decode_fs :
    decode 0b0000000000000_0_00_00000000_00000001#32 = .ok (.fsReset 0) ∧
    decode 0b0000000000000_0_00_00000011_00000010#32 = .ok (.fsConfigure 3) ∧
    decode 0b0000000000000_0_00_00000111_00000011#32 = .ok (.fsBind 7) ∧
    decode 0b0000000000000_0_00_00000000_00000100#32 = .ok (.fsShiftplan 0) := by decide

theorem test_decode_dl :
    decode 0b0000000000000_0_00_00000010_00001000#32 = .ok (.dlPush 2) ∧
    decode 0b0000000000000_0_00_00000010_00001001#32 = .ok (.dlTap 2) := by decide

theorem test_decode_k :
    decode 0b0000000000000_0_00_00000001_00010000#32 = .ok (.kSingle 1) ∧
    decode 0b0000000000000_0_00_00000001_00010001#32 = .ok (.kDual 1) := by decide

theorem test_decode_process :
    decode 0b0000000000000_0_00_00000000_00100000#32 = .ok .processS16Any ∧
    decode 0b0000000000000_1_00_00000000_00100000#32 = .ok .processS16Even ∧
    decode 0b0000000000000_0_01_00000000_00100000#32 = .ok .processS24Any ∧
    decode 0b0000000000000_1_01_00000000_00100000#32 = .ok .processS24Even ∧
    decode 0b0000000000000_0_10_00000000_00100000#32 = .ok .processS32Any ∧
    decode 0b0000000000000_1_10_00000000_00100000#32 = .ok .processS32Even := by decide

theorem test_decode_fx :
    decode 0b0000000000000_0_00_00000000_00110000#32 = .ok .fxRshift ∧
    decode 0b0000000000000_0_00_00000000_00110001#32 = .ok .fxSat16 ∧
    decode 0b0000000000000_0_00_00000000_00110010#32 = .ok .fxSat24 ∧
    decode 0b0000000000000_0_00_00000000_00110011#32 = .ok .fxSat32 := by decide

theorem test_decode_illegal :
    decode 0x00000000 = .error .unassignedOpcode ∧ decode 0x00030020 = .error .reservedFormat ∧
    decode 0x00000120 = .error .fieldNotZero ∧ decode 0x00080001 = .error .reservedBits ∧
    decode 0x00040010 = .error .fieldNotZero := by decide

/-- The expansion of `FS.CONFIGURE 1, 8, -2, 16` in rule R65 ends with this word. -/
theorem test_encode_example : encode (.fsConfigure 1) = 0x00000102 ∧ encode .processS32Even = 0x00060020 := by decide

theorem test_decodeTableWord :
    decodeTableWord 32 0x00050020 = some .processS24Even ∧ decodeTableWord 32 0x00000005 = none := by decide

/-! ### One step of each command -/

/-- The example of rule R95. -/
theorem test_fsReset : endsIn (exec (.fsReset 1) unity)
    (fun t => t.chan 1 == .uninit && t.chan 0 == unity.chan 0 && t.dlram == unity.dlram && t.cursor == 0x16) = true := by decide

/-- Vectors 2.3.1 and 2.3.15. -/
theorem test_fsConfigure : endsIn (exec (.fsConfigure 0) { blank with arg0 := 4, arg1 := 0x180 })
    (fun t => t.chan 0 == channel4 .configured 0x80 0 0 0 && t.res0 == 0x18 && t.err == .ok) = true := by decide

/-- Vectors 2.3.3 and 2.3.8. -/
theorem test_fsConfigure_errors :
    endsIn (exec (.fsConfigure 0) { blank with arg0 := 6 }) (fun t => t.err == .invalidConfig && t.chan 0 == .uninit) = true ∧
    endsIn (exec (.fsConfigure 0) { sized with arg0 := 3 }) (fun t => t.err == .errState && t.chan 0 == sized.chan 0) = true := by
  decide

/-- The example of rule R97. -/
theorem test_fsBind : endsIn (exec (.fsBind 0) sized)
    (fun t => t.chan 0 == channel4 .active 0xFD 0 0x10 0 && t.cursor == 0x16 && t.dlram == sized.dlram) = true := by decide

/-- Vectors 2.3.10 and 2.3.11, at the end of this block's DLRAM. -/
theorem test_fsBind_range :
    endsIn (exec (.fsBind 0) { sized with cursor := 18 }) (fun t => t.err == .ok && t.cursor == 24) = true ∧
    endsIn (exec (.fsBind 0) { sized with cursor := 19 }) (fun t => t.err == .errRange && t.cursor == 19) = true := by decide

/-- Vector 2.3.14. -/
theorem test_fsShiftplan :
    endsIn (exec (.fsShiftplan 0) (bench [0, 0, 0, 0] 0x80)) (fun t => t.res0 == 0x80) = true ∧
    endsIn (exec (.fsShiftplan 0) (bench [0, 0, 0, 0] 0x7F)) (fun t => t.res0 == 0x7F00) = true ∧
    endsIn (exec (.fsShiftplan 0) sized) (fun t => t.res0 == 0x3) = true := by decide

/-- Vector 2.2.1: the push wraps the cursor. -/
theorem test_dlPush : endsIn (exec (.dlPush 2) { unity with arg0 := 0x12345678 })
    (fun t => t.slot 0x15 == 0x12345678 && (t.chan 2).wp == 0 && (t.chan 2).L == 6) = true := by decide

/-- Vectors 2.2.2 to 2.2.4, after vector 2.2.1. -/
theorem test_dlTap : endsIn (exec (.dlPush 2) { unity with arg0 := 0x12345678 }) (fun u =>
    endsIn (exec (.dlTap 2) { u with arg0 := 0 }) (fun t => t.res0 == 0x12345678) &&
    endsIn (exec (.dlTap 2) { u with arg0 := 3 }) (fun t => t.res0 == 0xA && (t.chan 2).wp == 0) &&
    stopsWith (exec (.dlTap 2) { u with arg0 := 4 }) .tapIndex) = true := by decide

/-- Vectors 2.4.1 and 2.4.2: exact unity, and a negative tie. -/
theorem test_kSingle :
    endsIn (exec (.kSingle 0) { unity with arg0 := 10 }) (fun t => t.res0 == 10 && (t.chan 0).wp == 1 && t.slot 0 == 10) = true ∧
    endsIn (exec (.kSingle 0) { bench [0xFFFF, 0, 0, 0] 0 with arg0 := 0x4000 }) (fun t => t.res0 == 0xFFFFFFFF) = true := by decide

/-- Vectors 2.4.5 and 2.4.12: saturation after a left shift. -/
theorem test_kSingle_saturates :
    endsIn (exec (.kSingle 0) { bench [1, 0, 0, 0] 0xD2 with arg0 := 0xFFFFFFFF }) (fun t => t.res0 == 0x80000000) = true ∧
    endsIn (exec (.kSingle 0) { bench [1, 0, 0, 0] 0x80 with arg0 := 1 }) (fun t => t.res0 == 0x7FFFFFFF) = true := by decide

/-- Vector 2.4.8. -/
theorem test_kDual : endsIn (exec (.kDual 1) { unity with arg0 := 1000 * 2 ^ 16, arg1 := 2000 * 2 ^ 16 })
    (fun t => t.res0 == 0x00FA0000 && t.res1 == 0x02EE0000 && (t.chan 1).wp == 2) = true := by decide

/-- Vector 2.5.16: a tie in the second rounding. -/
theorem test_processS16Any : endsIn (exec .processS16Any (mono (bench [0x4000, 0x4000, 0, 0] 0) 2 [1000, 0xFC18, 3, 0xFFFD]))
    (fun t => take 2 0x2000 t.mem 4 == [500, 0, 0xFE0D, 0] && (t.chan 0).wp == 4) = true := by decide +kernel

/-- Vector 2.5.3, in place as in vector 2.5.15. -/
theorem test_processS16Even : endsIn (exec .processS16Even
      { mono (bench [0x2000, 0x2000, 0x2000, 0x2000] 0) 2 [1000, 2000, 3000, 4000, 5000, 6000] with arg1 := 0x1000 })
    (fun t => take 2 0x1000 t.mem 6 == [250, 750, 1500, 2500, 3500, 4500] && (t.chan 0).wp == 0) = true := by decide +kernel

/-- Vector 2.5.12. -/
theorem test_processS24Any : endsIn (exec .processS24Any (mono (bench [0x4000, 0, 0, 0] 2) 4
      [0x00000008, 0x00FFFFF8, 0x0000000C, 0xFFFFFFF4, 0x007FFFFF, 0x00800000]))
    (fun t => take 4 0x2000 t.mem 6 == [1, 0xFFFFFFFF, 2, 0xFFFFFFFE, 0x00100000, 0xFFF00000]) = true := by decide +kernel

/-- Vector 2.5.8, the negative bound. -/
theorem test_processS24Even : endsIn (exec .processS24Even
      (mono (bench [0x7FFF, 0x7FFF, 0x7FFF, 0x7FFF] 0) 4 [0x800000, 0x800000, 0x800000, 0x800000]))
    (fun t => take 4 0x2000 t.mem 4 == [0xFF800100, 0xFF800000, 0xFF800000, 0xFF800000]) = true := by decide +kernel

/-- Vector 2.5.1. -/
theorem test_processS32Any : endsIn (exec .processS32Any
      (mono (bench [0x4000, 0, 0, 0] 0xFD) 4 [1000, 0x10000000, 0xF0000000, 0x0FFFFFFF]))
    (fun t => take 4 0x2000 t.mem 4 == [4000, 0x40000000, 0xC0000000, 0x3FFFFFFC]) = true := by decide +kernel

/-- Vector 1.9: the fixture, with its final region. -/
theorem test_processS32Even : endsIn (exec .processS32Even (mono unity 4 [10, 20, 30, 40, 50, 0, 0, 0]))
    (fun t => take 4 0x2000 t.mem 8 == [10, 20, 30, 40, 50, 0, 0, 0] && (t.chan 0).wp == 2 &&
      t.dlram.take 6 == [0, 0, 30, 40, 50, 0]) = true := by decide +kernel

/-- Vectors 2.5.18 to 2.5.22, on this block. -/
theorem test_process_violations :
    stopsWith (exec .processS16Even (mono unity 2 [1])) .oddFrames = true ∧
    stopsWith (exec .processS32Any { mono unity 4 [1] with arg0 := 0x1002 }) .misaligned = true ∧
    stopsWith (exec .processS32Any { mono unity 4 [1] with arg3 := 4 }) .channelCount = true ∧
    stopsWith (exec .processS32Any { mono unity 4 [1, 2, 3, 4] with arg1 := 0x1004 }) .bufferOverlap = true ∧
    stopsWith (exec .processS32Any { unity with arg0 := 0xFFFFFFF0, arg2 := 8, arg3 := 1 }) .addressWrap = true := by decide

/-- Vectors 2.1.2 and 2.1.12. -/
theorem test_fxRshift :
    endsIn (exec .fxRshift { blank with arg0 := 0xFFFFFFC0, arg1 := 0xFFFFFFFF, arg2 := 7 })
      (fun t => t.res0 == 0xFFFFFFFF && t.res1 == 0xFFFFFFFF) = true ∧
    endsIn (exec .fxRshift { blank with arg1 := 0x100, arg3 := 30, res0 := 5 }) (fun t => t.res0 == 0 && t.res1 == 0) = true := by
  decide

/-- Vector 2.1.18. -/
theorem test_fxSat16 : endsIn (exec .fxSat16 { blank with arg0 := 0xFFFF63C0, arg1 := 0xFFFFFFFF })
    (fun t => t.res0 == 0xFFFF8000 && t.res1 == 0xFFFFFFFF) = true := by decide

/-- Vector 2.1.21. -/
theorem test_fxSat24 : endsIn (exec .fxSat24 { blank with arg0 := 0x00800000 })
    (fun t => t.res0 == 0x007FFFFF && t.res1 == 0) = true := by decide

/-- Vector 2.1.24. -/
theorem test_fxSat32 : endsIn (exec .fxSat32 { blank with arg0 := 0x7FFFFFFF, arg1 := 0xFFFFFFFF })
    (fun t => t.res0 == 0x80000000 && t.res1 == 0xFFFFFFFF) = true := by decide

/-- Vector 2.3.16 through the step: an unassigned opcode. -/
theorem test_step_illegal : endsIn (step (blank.withFetchWord 32 0x00000005))
    (fun t => statusWord t == 0x400 && t.res0 == 0 && t.phase == .unseen) = true := by decide

/-- Rules R37, R145 before BUSY = 0 has been read: a write to a reserved address is ignored, a write of ARG0 is HostHazard. -/
theorem test_write_before_seen :
    endsIn (step { blank with phase := .unseen, script := [.write 0x30000 4 7] }) (fun t => t.phase == .unseen && t.arg0 == 0) = true ∧
    stopsWith (step { blank with phase := .unseen, script := [.write 0x008 4 7] }) .hostHazard = true := by decide

/-! ### Witnesses: what the hypotheses of the obligations ask for, met by concrete states -/

/-- The fields of `State.Inv`, as a check that computes. -/
def good (s : State) : Bool :=
  decide (s.params.Valid ∧ s.fs.length = s.params.nchMax ∧ (∀ f ∈ s.fs, f.Inv s.params) ∧
    s.cram.length = s.params.coefRamWords ∧ s.dlram.length = s.params.dlRamSlots ∧ Memory.wf s.mem ∧
    (∀ c ∈ s.mem, c.1 < 2 ^ Config.sysAddrWidth) ∧ (s.busy = true → s.err = .ok))

theorem inv_of_good {s : State} (h : good s = true) : s.Inv := by
  obtain ⟨h1, h2, h3, h4, h5, h6, h7, h8⟩ := of_decide_eq_true h
  exact ⟨h1, h2, h3, h4, h5, h6, h7, h8⟩

theorem runs {r : Result State} (h : endsIn r (fun _ => true) = true) : ∃ t, r = .next t :=
  (exists_next h).imp fun _ ht => ht.1

/-- A command in flight, with n host accesses to go, and the host program `ops`. -/
def busyWith (s : State) (w : Word) (n : Nat) (ops : List HostOp) : State :=
  { s with cmd := w, phase := .running n, script := ops }

/-- The block at rest in a phase, with the host program `ops`. -/
def rest (s : State) (p : Phase) (ops : List HostOp) : State := { s with phase := p, script := ops }

/-- Three channels, two frames of four-byte elements: the largest N of the small block. -/
def full : State :=
  { unity with mem := put 4 0x1000 [1, 2, 3, 4, 5, 6] [], arg0 := 0x1000, arg1 := 0x1018, arg2 := 2, arg3 := 3 }

theorem unity_inv : unity.Inv := inv_of_good (by decide)
theorem full_inv : full.Inv := inv_of_good (by decide)

theorem full_ready : ∀ (fmt : Format) (mode : Mode), ProcessReady fmt mode full
  | .s16, .any => processViolation_none_iff_ready.1 (by decide)
  | .s16, .even => processViolation_none_iff_ready.1 (by decide)
  | .s24, .any => processViolation_none_iff_ready.1 (by decide)
  | .s24, .even => processViolation_none_iff_ready.1 (by decide)
  | .s32, .any => processViolation_none_iff_ready.1 (by decide)
  | .s32, .even => processViolation_none_iff_ready.1 (by decide)

theorem witness_BlockResetRestoresTableValues :
    (rest unity .idle [.reset]).phase = .idle ∧ (rest unity .unseen [.reset, .wait]).phase = .unseen ∧
    (rest unity .idle [.reset]).script = .reset :: [] ∧
    (rest unity .unseen [.reset, .wait]).script = .reset :: [.wait] := by decide

theorem witness_StepKeepsInvariant : (busyWith full 0x00020020 0 []).Inv ∧
    ∃ t, step (busyWith full 0x00020020 0 []) = .next t :=
  ⟨inv_of_good (by decide), runs (by decide +kernel)⟩

/-- A CONFIGURED channel 0, and the last channel ACTIVE. -/
theorem witness_DelayLengthIsEven : (sized.Inv ∧ 0 < sized.params.nchMax ∧ (sized.chan 0).LC ≠ .uninit) ∧
    (unity.Inv ∧ 2 < unity.params.nchMax ∧ (unity.chan 2).LC ≠ .uninit) :=
  ⟨⟨inv_of_good (by decide), by decide⟩, unity_inv, by decide⟩

theorem witness_DecodeOfEncode : wellFormed (.kDual 255) = true ∧ wellFormed .processS24Even = true := by decide

theorem witness_EncodeOfDecode : decode 0x0000FF11 = .ok (.kDual 255) := by decide

theorem witness_LegalWordsSelectOneRow : (∃ i, decode 0x0000FF11 = .ok i) ∧
    ∃ r ∈ opTable, 0x0000FF11#32 &&& r.mask = r.pattern := ⟨⟨.kDual 255, by decide⟩, by decide⟩

/-- One word for each of the five ways of rule R61, and a state whose command matches no row. -/
theorem witness_IllegalWordsEndWithErrIllegal :
    ((busyWith blank 0x05 0 []).phase = .running 0 ∧
      ∀ r ∈ opTable, (busyWith blank 0x05 0 []).cmd &&& r.mask ≠ r.pattern) ∧
    ((0x05#32).extractLsb' 0 8).toNat ∉ [0x01, 0x02, 0x03, 0x04, 0x08, 0x09, 0x10, 0x11, 0x20, 0x30, 0x31, 0x32, 0x33] ∧
    (0x00080001#32).extractLsb' 19 13 ≠ 0 ∧ (0x00030020#32).extractLsb' 16 2 = 3 ∧
    ((0x00000120#32).extractLsb' 8 8 ≠ 0 ∧ 0x20 ≤ ((0x00000120#32).extractLsb' 0 8).toNat) ∧
    ((0x00040010#32).extractLsb' 16 3 ≠ 0 ∧ ((0x00040010#32).extractLsb' 0 8).toNat ≠ 0x20) := by decide

theorem witness_CmdWriteStartsCommand :
    (rest unity .idle [.write 0 4 0x10, .wait]).phase = .idle ∧
    (rest unity .idle [.write 0 4 0x10, .wait]).script = .write 0 4 0x10 :: [.wait] := by decide

theorem witness_StepRunsDecodedCommand :
    (busyWith unity 0x00000110 0 []).phase = .running 0 ∧
    decode (busyWith unity 0x00000110 0 []).cmd = .ok (.kSingle 1) ∧ decode 0x00020020 = .ok .processS32Any := by decide

/-- A command that completes at once, and one that completes after two accesses. -/
theorem witness_WaitEndsUnlessViolation :
    ((busyWith unity 0x10 0 [.wait]).phase = .running 0 ∧ (busyWith unity 0x10 0 [.wait]).script = .wait :: [] ∧
      ∀ v, core.run 1 (busyWith unity 0x10 0 [.wait]) ≠ .fault v) ∧
    ((busyWith unity 0x10 2 [.wait, .reset]).phase = .running 2 ∧
      (busyWith unity 0x10 2 [.wait, .reset]).script = .wait :: [.reset] ∧
      ∀ v, core.run 3 (busyWith unity 0x10 2 [.wait, .reset]) ≠ .fault v) :=
  ⟨⟨by decide, by decide, not_fault (p := fun _ => true) (by decide)⟩, by decide, by decide,
    not_fault (p := fun _ => true) (by decide)⟩

theorem witness_IdleBlockKeepsState :
    unity.busy = false ∧ unity.script = [] ∧ (rest unity .unseen []).busy = false := by decide

/-- The first channel outside the bank. -/
theorem witness_ChannelOutOfRangeIsIllegal :
    (Instr.kSingle 3).channel = some 3 ∧ unity.params.nchMax ≤ 3 ∧ (Instr.fsShiftplan 255).channel = some 255 := by decide

theorem witness_ErrorChangesOnlyStatus : ∃ t, exec (.fsBind 0) blank = .next t ∧ t.err ≠ .ok :=
  (exists_next (p := fun t => t.err == .errState) (by decide)).imp fun _ h => ⟨h.1, by simp_all⟩

/-- Equal scales, a widening, and a negative tie when narrowing. -/
theorem witness_RoundedShiftIsNearest :
    (31 ≤ 31 ∧ 15 ≤ 46) ∧ (15 < 16) ∧
    2 * |(-3) - roundedShift (-3) 16 15 * 2 ^ (16 - 15)| = 2 ^ (16 - 15) := by decide

/-- The last clause: equal scales, with bits above [5:0] set. -/
theorem witness_FxRshiftResult :
    (({ blank with arg2 := 0xFFFFFFC7, arg3 := 7 } : State).arg3.extractLsb' 0 6).toNat ≤
      (({ blank with arg2 := 0xFFFFFFC7, arg3 := 7 } : State).arg2.extractLsb' 0 6).toNat := by decide

/-- The last channel. -/
theorem witness_FsResetClearsChannel : unity.Inv ∧ 2 < unity.params.nchMax := ⟨unity_inv, by decide⟩

/-- T = 4 with the last base that fits, and T = MAX_LENGTH. -/
theorem witness_FsConfigureSucceeds :
    ∀ s ∈ [{ blank with arg0 := 4, arg1 := 0x80, arg2 := 12 }, { blank with arg0 := 8, arg2 := 8 }],
      s.Inv ∧ 2 < s.params.nchMax ∧ (s.chan 2).LC = .uninit ∧ 4 ≤ s.arg0.toNat ∧ s.arg0.toNat ≤ s.params.maxLength ∧
      s.arg0.toNat % 4 = 0 ∧ s.arg2.toNat + s.arg0.toNat ≤ s.params.coefRamWords := by
  simp only [List.forall_mem_cons, List.not_mem_nil, false_imp_iff, implies_true, and_true]
  exact ⟨⟨inv_of_good (by decide), by decide⟩, inv_of_good (by decide), by decide⟩

/-- A channel that is not UNINIT; T below 4, above MAX_LENGTH, and no multiple of 4; the first base that does not fit. -/
theorem witness_FsConfigureErrorsInOrder :
    (sized.chan 0).LC ≠ .uninit ∧ (sized.chan 1).LC = .uninit ∧
    ({ sized with arg0 := 3 } : State).arg0.toNat < 4 ∧
    sized.params.maxLength < ({ sized with arg0 := 12 } : State).arg0.toNat ∧
    ({ sized with arg0 := 6 } : State).arg0.toNat % 4 ≠ 0 ∧
    sized.params.coefRamWords <
      ({ sized with arg0 := 4, arg2 := 13 } : State).arg2.toNat + ({ sized with arg0 := 4, arg2 := 13 } : State).arg0.toNat := by
  decide

/-- The last cursor that fits. -/
theorem witness_FsBindAttachesRegion :
    ({ sized with cursor := 18 } : State).Inv ∧ 0 < sized.params.nchMax ∧ (sized.chan 0).LC = .configured ∧
    ({ sized with cursor := 18 } : State).cursor.toNat + (sized.chan 0).L.toNat ≤ sized.params.dlRamSlots :=
  ⟨inv_of_good (by decide), by decide⟩

/-- An UNINIT channel, an ACTIVE one, and the first cursor that does not fit. -/
theorem witness_FsBindErrorsInOrder :
    (sized.chan 1).LC ≠ .configured ∧ (unity.chan 0).LC ≠ .configured ∧ (sized.chan 0).LC = .configured ∧
    sized.params.dlRamSlots < ({ sized with cursor := 19 } : State).cursor.toNat + (sized.chan 0).L.toNat := by decide

/-- The most negative S in an ACTIVE channel, and a channel that is UNINIT. -/
theorem witness_FsShiftplanReportsPlan :
    0 < (bench [0, 0, 0, 0] 0x80).params.nchMax ∧ ((bench [0, 0, 0, 0] 0x80).chan 0).S.toInt = -128 ∧
    2 < blank.params.nchMax ∧ (blank.chan 2).LC = .uninit := by decide

theorem witness_LifecycleTransitions :
    (∃ t, exec (.fsReset 1) unity = .next t) ∧ (∃ t, exec (.fsConfigure 0) { blank with arg0 := 4 } = .next t) ∧
    (∃ t, exec (.fsBind 0) sized = .next t) ∧ ∃ t, exec .processS32Any full = .next t :=
  ⟨runs (by decide), runs (by decide), runs (by decide), runs (by decide +kernel)⟩

/-- Channel 2 stands at its last slot, so the push wraps. -/
theorem witness_DlPushStoresAtCursor :
    unity.Inv ∧ 2 < unity.params.nchMax ∧ (unity.chan 2).LC = .active := ⟨unity_inv, by decide⟩

/-- The last position of the window. -/
theorem witness_DlTapReadsWindow :
    ({ unity with arg0 := 3 } : State).Inv ∧ 2 < unity.params.nchMax ∧ (unity.chan 2).LC = .active ∧
    ({ unity with arg0 := 3 } : State).arg0.toNat < (unity.chan 2).T.toNat := ⟨inv_of_good (by decide), by decide⟩

theorem witness_PushMovesTapWindow :
    unity.Inv ∧ (unity.chan 2).LC = .active ∧ (∃ t, exec (.dlPush 2) unity = .next t) ∧ 2 < unity.params.nchMax ∧
    2 + 1 < (unity.chan 2).T.toNat := ⟨unity_inv, by decide, runs (by decide), by decide⟩

/-- A CONFIGURED channel, and the first position beyond the window of an ACTIVE one. -/
theorem witness_ChannelPreconditionsFault :
    (0 < sized.params.nchMax ∧ (sized.chan 0).LC ≠ .active) ∧
    2 < unity.params.nchMax ∧ (unity.chan 2).LC = .active ∧
    (unity.chan 2).T.toNat ≤ ({ unity with arg0 := 4 } : State).arg0.toNat := by decide

/-- The channel with a left shift, and the one whose cursor wraps. -/
theorem witness_KSingleComputesTapSum :
    unity.Inv ∧ (0 < unity.params.nchMax ∧ (unity.chan 0).LC = .active ∧ (unity.chan 0).S.toInt = -1) ∧
    2 < unity.params.nchMax ∧ (unity.chan 2).LC = .active ∧ (unity.chan 2).S.toInt = 0 := ⟨unity_inv, by decide⟩

theorem witness_KDualIsTwoSingles : 2 < unity.params.nchMax ∧ (unity.chan 2).LC = .active := by decide

theorem witness_AccumulatorFitsSixtyFourBits : unity.Inv ∧ (unity.chan 2).LC = .active := ⟨unity_inv, by decide⟩

theorem witness_ZeroCoefficientsGiveZero :
    0 < (bench [0, 0, 0, 0] 0xD2).params.nchMax ∧ ((bench [0, 0, 0, 0] 0xD2).chan 0).LC = .active ∧
    ∀ k, k < ((bench [0, 0, 0, 0] 0xD2).chan 0).T.toNat →
      (bench [0, 0, 0, 0] 0xD2).coef (((bench [0, 0, 0, 0] 0xD2).chan 0).coefBase.toNat + k) = 0 := by decide

theorem witness_HalfCoefficientIsUnity :
    unity.Inv ∧ 0 < unity.params.nchMax ∧ (unity.chan 0).LC = .active ∧ (unity.chan 0).S = 0xFF#8 ∧
    unity.coef (unity.chan 0).coefBase.toNat = 0x4000#16 ∧
    ∀ k, 0 < k → k < (unity.chan 0).T.toNat → unity.coef ((unity.chan 0).coefBase.toNat + k) = 0 := by
  have h : ∀ k, k < (unity.chan 0).T.toNat → 0 < k → unity.coef ((unity.chan 0).coefBase.toNat + k) = 0 := by decide
  exact ⟨unity_inv, by decide, by decide, by decide, by decide, fun k h0 hk => h k hk h0⟩

/-- F = 0 with channels, and N = 0 with frames. -/
theorem witness_EmptyProcessIsNoop :
    Instr.processS24Even.process = some (.s24, .even) ∧ ({ full with arg2 := 0 } : State).arg2 = 0 ∧
    ({ full with arg3 := 0 } : State).arg3 = 0 := by decide

/-- Each command; and the slot beside those that the two pushes of channel 0 reach. -/
theorem witness_ProcessCompletes :
    full.Inv ∧ full.arg2 ≠ 0 ∧ full.arg3 ≠ 0 ∧ (∀ fmt mode, ProcessReady fmt mode full) ∧
    (Instr.processS16Any.process = some (.s16, .any) ∧ Instr.processS16Even.process = some (.s16, .even) ∧
      Instr.processS24Any.process = some (.s24, .any) ∧ Instr.processS24Even.process = some (.s24, .even) ∧
      Instr.processS32Any.process = some (.s32, .any) ∧ Instr.processS32Even.process = some (.s32, .even)) ∧
    ∀ c, c < full.arg3.toNat → ∀ f, f < full.arg2.toNat →
      2 ≠ (full.chan c).dlBase.toNat + ((full.chan c).wp.toNat + f) % (full.chan c).L.toNat :=
  ⟨full_inv, by decide, by decide, full_ready, by decide⟩

/-- The last frame of the last channel, and the last slot of its region. -/
theorem witness_ProcessComputesFirEquation :
    Instr.processS32Even.process = some (.s32, .even) ∧ full.Inv ∧ full.arg2 ≠ 0 ∧ full.arg3 ≠ 0 ∧
    ProcessReady .s32 .even full ∧ (∃ t, exec .processS32Even full = .next t) ∧ 2 < full.arg3.toNat ∧
    1 < full.arg2.toNat ∧ 5 < (full.chan 2).L.toNat :=
  ⟨by decide, full_inv, by decide, by decide, full_ready .s32 .even, runs (by decide +kernel), by decide⟩

theorem witness_EvenModeEqualsAnyMode : Memory.wf full.mem ∧ full.arg2.toNat % 2 = 0 := ⟨full_inv.mem, by decide⟩

theorem witness_ChannelOrderIsFree : full.Inv ∧ ProcessReady .s32 .any full ∧ [2, 0, 1].Perm (List.range full.arg3.toNat) :=
  ⟨full_inv, full_ready .s32 .any, by decide⟩

/-- Both clauses at the first N outside the bank. -/
theorem witness_ProcessFaultsNameBrokenPrecondition :
    Instr.processS32Any.process = some (.s32, .any) ∧ ({ full with arg3 := 4 } : State).arg2 ≠ 0 ∧
    ({ full with arg3 := 4 } : State).arg3 ≠ 0 ∧
    stopsWith (exec .processS32Any { full with arg3 := 4 }) .channelCount = true ∧
    ∃ v, ProcessBroken .s32 .any { full with arg3 := 4 } v :=
  ⟨by decide, by decide, by decide, by decide, .channelCount, (by decide : 3 < 4)⟩

/-- The bounds of the result range. -/
theorem witness_SampleFormatsRoundAndClamp :
    (-2 ^ 31 ≤ (-2 ^ 31 : Int) ∧ (-2 ^ 31 : Int) ≤ 2 ^ 31 - 1) ∧
    -2 ^ 31 ≤ (2 ^ 31 - 1 : Int) ∧ (2 ^ 31 - 1 : Int) ≤ 2 ^ 31 - 1 := by decide

theorem witness_CommandsWriteOnlyTheirState :
    (∃ t, exec (.kDual 2) unity = .next t) ∧ (∃ t, exec (.fsBind 0) sized = .next t) ∧
    (∃ t, exec (.fsConfigure 2) { blank with arg0 := 4 } = .next t) ∧
    (∃ t, exec .fxRshift blank = .next t) ∧ ∃ t, exec .processS24Even full = .next t :=
  ⟨runs (by decide), runs (by decide), runs (by decide), runs (by decide), runs (by decide +kernel)⟩

theorem witness_ChannelsShareNoFilterState :
    (Instr.kDual 2).channel = some 2 ∧ 0 ≠ 2 ∧ ∃ t, exec (.kDual 2) unity = .next t :=
  ⟨by decide, by decide, runs (by decide)⟩

theorem witness_CompletionIgnoresData :
    bench [1, 2, 3, 4] 0 =
      { unity with
        cram := (bench [1, 2, 3, 4] 0).cram, dlram := (bench [1, 2, 3, 4] 0).dlram, mem := (bench [1, 2, 3, 4] 0).mem
        fs := (bench [1, 2, 3, 4] 0).fs, res0 := (bench [1, 2, 3, 4] 0).res0, res1 := (bench [1, 2, 3, 4] 0).res1 } ∧
    (∃ t, step unity = .next t) ∧ ∃ t, step (bench [1, 2, 3, 4] 0) = .next t :=
  ⟨by decide, runs (by decide), runs (by decide)⟩

/-- The first register and the last; STATUS with the last result code. -/
theorem witness_ControlRegisterReads :
    unity.phase = .idle ∧ (rest unity .idle [.read 0x028 4]).script = .read 0x028 4 :: [] ∧
    (unity.err, 0) ∈ [(.ok, 0), (.invalidConfig, 1), (.errState, 2), (.errRange, 3), (.errIllegal, 4)] ∧
    (0x028#18, 0x00180010#32) ∈ [(0x000#18, unity.cmd), (0x008#18, unity.arg0), (0x00C#18, unity.arg1),
      (0x010#18, unity.arg2), (0x014#18, unity.arg3), (0x018#18, unity.res0), (0x01C#18, unity.res1),
      (0x020#18, 0#16 ++ unity.cursor), (0x004#18, BitVec.ofNat 32 (2 ^ 8 * 0)),
      (0x024#18, BitVec.ofNat 16 unity.params.nchMax ++ BitVec.ofNat 16 unity.params.maxLength),
      (0x028#18, BitVec.ofNat 16 unity.params.dlRamSlots ++ BitVec.ofNat 16 unity.params.coefRamWords)] ∧
    (rest unity .idle [.read 0x000 4]).script = .read 0x000 4 :: [] ∧
    (({ unity with err := .errIllegal } : State).err, 4) ∈
      [(.ok, 0), (.invalidConfig, 1), (.errState, 2), (.errRange, 3), (.errIllegal, 4)] := by decide

theorem witness_ControlRegisterWrites :
    ∀ a ∈ [0x008#18, 0x00C#18, 0x010#18, 0x014#18, 0x020#18, 0x004#18, 0x018#18, 0x01C#18, 0x024#18, 0x028#18],
      (rest unity .idle [.write a 4 0xFFFFFFFF]).phase = .idle ∧
      (rest unity .idle [.write a 4 0xFFFFFFFF]).script = .write a 4 0xFFFFFFFF :: [] := fun _ _ => ⟨rfl, rfl⟩

/-- The first word of the first window and the last word of the last one; and the three lifecycle states. -/
theorem witness_ChannelWindowReadsFields :
    unity.params.Valid ∧ unity.phase = .idle ∧ (0 < unity.params.nchMax ∧ (0x100#18).toNat = 0x100 + 0x20 * 0 + 0) ∧
    2 < unity.params.nchMax ∧ (0x15C#18).toNat = 0x100 + 0x20 * 2 + 0x1C ∧
    (rest unity .idle [.read 0x15C 4]).script = .read 0x15C 4 :: [] ∧
    ((unity.chan 2).LC, 2) ∈ [(.uninit, 0), (.configured, 1), (.active, 2)] ∧
    ((sized.chan 0).LC, 1) ∈ [(.uninit, 0), (.configured, 1), (.active, 2)] ∧
    ((blank.chan 0).LC, 0) ∈ [(.uninit, 0), (.configured, 1), (.active, 2)] ∧
    (0x1C, 0#32) ∈ [(0x00, BitVec.ofNat 32 2), (0x04, (unity.chan 2).L ++ (unity.chan 2).T),
      (0x08, (unity.chan 2).S.signExtend 32), (0x0C, 0#16 ++ (unity.chan 2).coefBase),
      (0x10, 0#16 ++ (unity.chan 2).dlBase), (0x14, 0#16 ++ (unity.chan 2).wp), (0x18, 0#32), (0x1C, 0#32)] ∧
    (rest unity .idle [.write 0x15C 4 1]).script = .write 0x15C 4 1 :: [] ∧ 0x1C < 0x20 ∧ 0x1C % 4 = 0 := by decide

/-- The ends of CRAM, the last entry of a CoefficientSet in use, and the first entry outside every one. -/
theorem witness_CramWindowAccess :
    unity.Inv ∧ unity.phase = .idle ∧
    (15 < unity.params.coefRamWords ∧ (0x1003C#18).toNat = 0x10000 + 4 * 15) ∧
    ((0x1001C#18).toNat = 0x10000 + 4 * 7 ∧
      ∃ c, c < unity.params.nchMax ∧ (unity.chan c).LC ≠ .uninit ∧ (unity.chan c).coefBase.toNat ≤ 7 ∧
        7 < (unity.chan c).coefBase.toNat + (unity.chan c).T.toNat) ∧
    (0x10020#18).toNat = 0x10000 + 4 * 8 ∧
      ∀ c, c < unity.params.nchMax → (unity.chan c).LC ≠ .uninit → 8 < (unity.chan c).coefBase.toNat ∨
        (unity.chan c).coefBase.toNat + (unity.chan c).T.toNat ≤ 8 :=
  ⟨unity_inv, by decide, by decide, ⟨by decide, 2, by decide⟩, by decide⟩

/-- The last slot, and one that is bound. -/
theorem witness_DlramWindowAccess :
    unity.Inv ∧ unity.phase = .idle ∧ (23 < unity.params.dlRamSlots ∧ (0x2005C#18).toNat = 0x20000 + 4 * 23) ∧
    0 < unity.params.dlRamSlots ∧ (0x20000#18).toNat = 0x20000 + 4 * 0 ∧
    (rest unity .idle [.read 0x2005C 4]).script = .read 0x2005C 4 :: [] ∧
    (rest unity .idle [.write 0x20000 4 1]).script = .write 0x20000 4 1 :: [] := ⟨unity_inv, by decide⟩

/-- Both phases; both ends of each range, for the small block: 3 channels, 16 coefficients, 24 slots. -/
theorem witness_UnnamedAddressReadsZero :
    (rest unity .idle [.read 0x2C 4]).phase = .idle ∧ (rest unity .unseen [.read 0x2C 4]).phase = .unseen ∧
    (rest unity .unseen [.read 0x2C 4]).script = .read 0x2C 4 :: [] ∧
    (rest unity .unseen [.write 0x3FFFC 4 7]).script = .write 0x3FFFC 4 7 :: [] ∧
    ∀ n ∈ [0x2C, 0xFC, 0x160, 0xFFFC, 0x10040, 0x1FFFC, 0x20060, 0x2FFFC, 0x30000, 0x3FFFC],
      (BitVec.ofNat 18 n).toNat = n ∧ n % 4 = 0 ∧ NamesNothing unity.params n := by decide

/-- A misplaced read, and a write of two bytes while a command is in flight. -/
theorem witness_UnalignedSlaveAccessFaults :
    (unity.phase ≠ .running 0 ∧ (0x3FFFF#18).toNat % 4 ≠ 0 ∧
      (rest unity .idle [.read 0x3FFFF 4]).script = .read 0x3FFFF 4 :: []) ∧
    (busyWith unity 0x10 1 [.write 0x008 2 7]).phase ≠ .running 0 ∧ 2 ≠ 4 ∧
    (busyWith unity 0x10 1 [.write 0x008 2 7]).script = .write 0x008 2 7 :: [] := by decide

/-- One state for each clause: the write in both phases, then the reads. -/
theorem witness_BusyRule :
    ((busyWith unity 0x10 1 [.write 0x02C 4 7]).phase = .running (0 + 1) ∧
      (busyWith unity 0x10 1 [.write 0x02C 4 7]).script = .write 0x02C 4 7 :: []) ∧
    ((rest unity .unseen [.write 0x028 4 7]).phase = .unseen ∧ ¬NamesNothing unity.params (0x028#18).toNat ∧
      (rest unity .unseen [.write 0x028 4 7]).script = .write 0x028 4 7 :: []) ∧
    ((busyWith unity 0x10 1 [.read 0x004 4]).phase = .running (0 + 1) ∧ unity.err = .ok ∧
      (busyWith unity 0x10 1 [.read 0x004 4]).script = .read 0x004 4 :: []) ∧
    ((rest unity .unseen [.read 0x004 4]).phase = .unseen ∧
      (rest unity .unseen [.read 0x004 4]).script = .read 0x004 4 :: [] ∧
      (unity.err, 0) ∈ [(.ok, 0), (.invalidConfig, 1), (.errState, 2), (.errRange, 3), (.errIllegal, 4)]) ∧
    ((busyWith unity 0x10 1 [.read 0x000 4]).phase = .running (0 + 1) ∧ 0x000#18 ≠ 0x004 ∧ (0x000#18).toNat % 4 = 0) ∧
    ((rest unity .unseen [.read 0x15C 4]).phase = .unseen ∧ 0x15C#18 ≠ 0x004 ∧ (0x15C#18).toNat % 4 = 0 ∧
      ¬NamesNothing unity.params (0x15C#18).toNat ∧
      (rest unity .unseen [.read 0x15C 4]).script = .read 0x15C 4 :: []) := by decide

theorem witness_SampleMemoryIsLittleEndian : Memory.wf full.mem ∧ (0 < 4 ∧ 3 < 4) ∧ 0x0FFF < 0x1000 := ⟨full_inv.mem, by decide⟩

/-- The last byte of the source and the first of the destination in flight; the bytes next to the two buffers; a command in
flight that is no PROCESS, and an illegal word; and an idle block. -/
theorem witness_AgentsMustNotTouchBuffers :
    Memory.wf (busyWith full 0x00020020 1 [.memStore 0x1017 9]).mem ∧
    ((busyWith full 0x00020020 1 [.memStore 0x1017 9]).phase = .running (0 + 1) ∧
      decode (busyWith full 0x00020020 1 [.memStore 0x1017 9]).cmd = .ok .processS32Any ∧
      Instr.processS32Any.process = some (.s32, .any) ∧
      (full.arg0.toNat ≤ (0x1017#32).toNat ∧
        (0x1017#32).toNat < full.arg0.toNat + full.arg2.toNat * full.arg3.toNat * elemSize .s32) ∧
      (full.arg1.toNat ≤ (0x1018#32).toNat ∧
        (0x1018#32).toNat < full.arg1.toNat + full.arg2.toNat * full.arg3.toNat * elemSize .s32) ∧
      (busyWith full 0x00020020 1 [.memLoad 0x1018]).script = .memLoad 0x1018 :: []) ∧
    ((0x0FFF#32).toNat < full.arg0.toNat ∧ (0x0FFF#32).toNat < full.arg1.toNat ∧
      full.arg0.toNat + full.arg2.toNat * full.arg3.toNat * elemSize .s32 ≤ (0x1030#32).toNat ∧
      full.arg1.toNat + full.arg2.toNat * full.arg3.toNat * elemSize .s32 ≤ (0x1030#32).toNat ∧
      (busyWith full 0x00020020 1 [.memStore 0x1030 9]).script = .memStore 0x1030 9 :: []) ∧
    (decode 0x00000110 = .ok (.kSingle 1) ∧ (Instr.kSingle 1).process = none ∧ decode 0x05 = .error .unassignedOpcode) ∧
    (rest full .idle [.memStore 0x1018 9]).busy = false ∧
    (rest full .idle [.memStore 0x1018 9]).script = .memStore 0x1018 9 :: [] ∧
    (rest full .unseen [.memLoad 0x1018]).busy = false ∧
    (rest full .unseen [.memLoad 0x1018]).script = .memLoad 0x1018 :: [] := ⟨full_inv.mem, by decide⟩

/-- A PROCESS in flight; the first byte behind its destination is outside it. -/
theorem witness_ResetInFlightAbandonsCommand :
    Memory.wf (busyWith full 0x00020020 1 [.reset]).mem ∧ (busyWith full 0x00020020 1 [.reset]).phase = .running (0 + 1) ∧
    (busyWith full 0x00020020 1 [.reset]).script = .reset :: [] ∧
    (∀ v, runCommand { busyWith full 0x00020020 1 [.reset] with script := [] } ≠ .fault v) ∧
    full.arg1.toNat + full.arg2.toNat * full.arg3.toNat * elemSize .s32 ≤ 0x1030 :=
  ⟨full_inv.mem, by decide, by decide, not_fault (p := fun _ => true) (by decide +kernel), by decide⟩

end Sys2Proof.Tests
end

/-! The invariant of the machine: what keeps it (rule R24), and that every step does. -/

namespace Sys2Proof.Machine

/-! ### Which addresses sample memory lists -/

/-- A listed byte is read at its address. -/
theorem memByte_of_mem {m : Memory} (h : Memory.wf m) {c : Host.Cell} (hc : c ∈ m) : memByte m c.1 = c.2 := by
  induction m with
  | nil => cases hc
  | cons d m ih =>
    rw [memByte_cons]
    rcases List.mem_cons.1 hc with rfl | hc
    · rw [if_pos rfl]
    · rw [if_neg (Nat.ne_of_lt (Memory.wf_head h c hc)), ih (Memory.wf_tail h) hc]

/-- An address that is not listed reads as an unlisted byte. -/
theorem memByte_of_not_listed {m : Memory} {a : Nat} (h : ∀ c ∈ m, c.1 ≠ a) : memByte m a = unlistedByte := by
  induction m with
  | nil => rfl
  | cons c m ih =>
    rw [memByte_cons, if_neg (h c (by simp)), ih fun d hd => h d (by simp [hd])]

/-- A canonical memory that reads as another does outside the address space lies in it if the other does (rule R40). -/
theorem space_of_memByte_eq {m m' : Memory} {B : Nat} (hw : Memory.wf m') (h : ∀ c ∈ m, c.1 < B)
    (heq : ∀ a, B ≤ a → memByte m' a = memByte m a) : ∀ c ∈ m', c.1 < B := by
  intro c hc
  by_contra hle
  have hun : memByte m c.1 = unlistedByte := memByte_of_not_listed fun d hd he => hle (he ▸ h d hd)
  rw [← heq c.1 (Nat.le_of_not_lt hle), memByte_of_mem hw hc] at hun
  exact hw.2 c hc hun

theorem drawBytes_wf {m : Memory} (h : Memory.wf m) (a k n : Nat) : Memory.wf (drawBytes a k n m) := by
  induction n with
  | zero => exact h
  | succ n ih => exact memSet_wf ih _ _

theorem drawBytes_space {m : Memory} {B a k n : Nat} (h : ∀ c ∈ m, c.1 < B) (ha : a + n ≤ B) :
    ∀ c ∈ drawBytes a k n m, c.1 < B := by
  induction n with
  | zero => exact h
  | succ n ih => exact memSet_space (ih (by omega)) (by omega)

@[simp] theorem drawList_length {α : Type} (draw : Nat → α) (n k : Nat) : (drawList draw n k).length = n := by
  induction n generalizing k with
  | zero => rfl
  | succ n ih => rw [drawList, List.length_cons, ih]

/-! ### Rule R24 for one FilterState -/

theorem FilterState.uninit_inv (p : Params) : FilterState.uninit.Inv p := by
  simp [FilterState.Inv, FilterState.uninit]

/-- FS.CONFIGURE on an UNINIT channel (rule R96). -/
theorem FilterState.Inv.configure {p : Params} {f : FilterState} (hp : p.Valid) (hf : f.Inv p) (hu : f.LC = .uninit)
    {T base : Nat} (S : BitVec 8) (h4 : 4 ≤ T) (hmax : T ≤ p.maxLength) (hmod : T % 4 = 0)
    (hbase : base + T ≤ p.coefRamWords) : (configuredChan f T base S).Inv p := by
  obtain ⟨-, -, -, -, hlen, -, -, hcram, -⟩ := hp
  have hT : (BitVec.ofNat 16 T).toNat = T := by rw [BitVec.toNat_ofNat, Nat.mod_eq_of_lt (by omega)]
  have hL : (BitVec.ofNat 16 (T + 2)).toNat = T + 2 := by rw [BitVec.toNat_ofNat, Nat.mod_eq_of_lt (by omega)]
  have hB : (BitVec.ofNat 16 base).toNat = base := by rw [BitVec.toNat_ofNat, Nat.mod_eq_of_lt (by omega)]
  rw [hf.1 hu]
  refine ⟨(nomatch ·), fun _ => ⟨?_, rfl, rfl⟩, (nomatch ·)⟩
  simp only [FilterState.Sized, configuredChan, hT, hL, hB]
  exact ⟨h4, hmax, hmod, trivial, hbase⟩

/-- FS.BIND of a region inside DLRAM to a CONFIGURED channel (rule R97). -/
theorem FilterState.Inv.bind {p : Params} {f : FilterState} (hf : f.Inv p) (hc : f.LC = .configured) {cur : Half}
    (hcur : cur.toNat + f.L.toNat ≤ p.dlRamSlots) : (boundChan f cur).Inv p := by
  obtain ⟨hsized, -, -⟩ := hf.2.1 hc
  refine ⟨(nomatch ·), (nomatch ·), fun _ => ⟨hsized, hcur, ?_⟩⟩
  have hL : f.L.toNat = f.T.toNat + 2 := hsized.2.2.2.1
  show (0#16).toNat < f.L.toNat
  simp only [BitVec.toNat_ofNat]
  omega

/-- A cursor that stays in the region of an ACTIVE channel (rule R77). -/
theorem FilterState.Inv.moveCursor {p : Params} {f : FilterState} (hf : f.Inv p) (ha : f.LC = .active) {w : Half}
    (hw : w.toNat < f.L.toNat) : { f with wp := w }.Inv p := by
  obtain ⟨hsized, hregion, -⟩ := hf.2.2 ha
  exact ⟨fun h => (nomatch ha.symm.trans h), fun h => (nomatch ha.symm.trans h), fun _ => ⟨hsized, hregion, hw⟩⟩

/-- In CONFIGURED and ACTIVE the channel is sized. -/
theorem FilterState.Inv.sized {p : Params} {f : FilterState} (hf : f.Inv p) (hne : f.LC ≠ .uninit) : f.Sized p := by
  cases hLC : f.LC with
  | uninit => exact absurd hLC hne
  | configured => exact (hf.2.1 hLC).1
  | active => exact (hf.2.2 hLC).1

/-- Every FilterState of the bank is that of a channel. -/
theorem exists_chan_of_mem {s : State} {f : FilterState} (h : f ∈ s.fs) : ∃ c, c < s.fs.length ∧ f = s.chan c := by
  obtain ⟨c, hc, rfl⟩ := List.mem_iff_getElem.1 h
  exact ⟨c, hc, by simp [State.chan, hc]⟩

/-! ### The operations that keep the invariant -/

/-- What the invariant speaks of stays, and so does the invariant. -/
theorem State.Inv.congr {s t : State} (h : s.Inv) (hp : t.params = s.params) (hfs : t.fs = s.fs) (hcram : t.cram = s.cram)
    (hdlram : t.dlram = s.dlram) (hmem : t.mem = s.mem) (hst : t.busy = true → t.err = .ok) : t.Inv where
  params := hp ▸ h.params
  bank := by rw [hfs, hp, h.bank]
  channels := by rw [hfs, hp]; exact h.channels
  cram := by rw [hcram, hp, h.cram]
  dlram := by rw [hdlram, hp, h.dlram]
  mem := hmem ▸ h.mem
  space := hmem ▸ h.space
  status := hst

theorem State.Inv.setChan {s : State} (h : s.Inv) (c : Nat) {f : FilterState} (hf : f.Inv s.params) :
    (s.setChan c f).Inv where
  params := h.params
  bank := by simp [h.bank]
  channels := fun g hg => (List.mem_or_eq_of_mem_set hg).elim (h.channels g) fun he => he ▸ hf
  cram := h.cram
  dlram := h.dlram
  mem := h.mem
  space := h.space
  status := h.status

theorem State.Inv.setSlot {s : State} (h : s.Inv) (j : Nat) (p : Word) : (s.setSlot j p).Inv where
  params := h.params
  bank := h.bank
  channels := h.channels
  cram := h.cram
  dlram := by simp [h.dlram]
  mem := h.mem
  space := h.space
  status := h.status

theorem State.Inv.setCoef {s : State} (h : s.Inv) (i : Nat) (p : Half) : (s.setCoef i p).Inv where
  params := h.params
  bank := h.bank
  channels := h.channels
  cram := by simp [h.cram]
  dlram := h.dlram
  mem := h.mem
  space := h.space
  status := h.status

theorem State.Inv.setMem {s : State} (h : s.Inv) {m : Memory} (hw : Memory.wf m)
    (hs : ∀ c ∈ m, c.1 < 2 ^ Config.sysAddrWidth) : { s with mem := m }.Inv where
  params := h.params
  bank := h.bank
  channels := h.channels
  cram := h.cram
  dlram := h.dlram
  mem := hw
  space := hs
  status := h.status

/-- Rule R18 asks nothing of ERR once BUSY is 0. -/
theorem State.Inv.endCommand {s : State} (h : s.Inv) (e : ErrCode) : (endCommand e s).Inv :=
  h.congr rfl rfl rfl rfl rfl fun hb => by simp [State.busy] at hb

theorem State.Inv.setRes0 {s : State} (h : s.Inv) (r : Word) : (setRes0 r s).Inv := h.congr rfl rfl rfl rfl rfl h.status

theorem State.Inv.setResults {s : State} (h : s.Inv) (r0 r1 : Word) : (setResults r0 r1 s).Inv :=
  h.congr rfl rfl rfl rfl rfl h.status

/-- A push on an ACTIVE channel (rule R77). -/
theorem State.Inv.dlPush {s : State} (h : s.Inv) {c : Nat} (ha : (s.chan c).LC = .active) (p : Word) :
    (dlPush c p s).Inv := by
  have hb := h.bound ha
  refine (h.setSlot _ p).setChan c ((h.chan (h.lt_of_active ha)).moveCursor ha ?_)
  have hw := (hb.push c p).cursor
  rw [dlPush_chan_same s p hb.inBank] at hw
  exact hw

theorem State.Inv.countDown {s : State} (h : s.Inv) : (countDown s).Inv := by
  unfold Machine.countDown
  split
  · next n hp => exact h.congr rfl rfl rfl rfl rfl fun _ => h.status (busy_running s _ hp)
  · exact h
  · exact h
  · exact h

theorem State.Inv.seen {s : State} (h : s.Inv) : (seen s).Inv := by
  unfold Machine.seen
  split
  · exact h.congr rfl rfl rfl rfl rfl fun hb => by simp [State.busy] at hb
  · exact h
  · exact h

theorem State.Inv.returnWord {s : State} (h : s.Inv) (w : Word) : (returnWord w s).Inv :=
  h.congr rfl rfl rfl rfl rfl h.status

theorem State.Inv.readStatus {s : State} (h : s.Inv) : (readStatus s).Inv := (h.returnWord _).seen

theorem State.Inv.withScript {s : State} (h : s.Inv) (ops : List HostOp) : { s with script := ops }.Inv :=
  h.congr rfl rfl rfl rfl rfl h.status

theorem State.Inv.withCursor {s : State} (h : s.Inv) (cur : Half) : { s with cursor := cur }.Inv :=
  h.congr rfl rfl rfl rfl rfl h.status

/-! ### PROCESS -/

/-- The walk over a buffer in the address space, from a state in which its channels are ACTIVE (rules R24, R40). -/
theorem Walked.inv {fmt : Format} {src dst N F : Nat} {s t : State} (h : Walked fmt src dst N F (· < N) s t) (hi : s.Inv)
    (ha : ∀ c, c < N → (s.chan c).LC = .active) (hdst : dst + F * N * elemSize fmt ≤ 2 ^ Config.sysAddrWidth) : t.Inv where
  params := h.params_eq ▸ hi.params
  bank := by rw [h.bankLength, h.params_eq, hi.bank]
  channels := by
    intro f hf
    obtain ⟨c, hc, rfl⟩ := exists_chan_of_mem hf
    rw [h.bankLength, hi.bank] at hc
    rw [h.params_eq]
    by_cases hN : c < N
    · have hw : ((t.chan c).wp).toNat < (s.chan c).L.toNat := by
        rw [h.cursor c hN]
        exact Nat.mod_lt _ (by have := (hi.bound (ha c hN)).window; omega)
      rw [h.chanSelf c hN]
      exact (hi.chan hc).moveCursor (ha c hN) hw
    · rw [h.chanOther c hN]
      exact hi.chan hc
  cram := by rw [h.frame]; exact hi.cram
  dlram := by rw [h.slotsLength, h.params_eq, hi.dlram]
  mem := h.memWf
  space := by
    refine space_of_memByte_eq h.memWf hi.space fun a ha => h.byteOther a fun c hc g hg => .inr ?_
    have := elem_in_buffer fmt dst hg hc
    omega
  status := by rw [h.frame]; exact hi.status

theorem ProcessReady.processBank_inv {fmt : Format} {mode : Mode} {s : State} (h : ProcessReady fmt mode s) (hi : s.Inv) :
    (processBank fmt mode s.arg0.toNat s.arg1.toNat s.arg2.toNat s.arg3.toNat s).Inv :=
  (walked_bank (h.walkReady hi)).inv hi h.p2 h.p5.2

/-! ### Commands -/

/-- Every command that completes keeps the invariant. -/
theorem CommandDone.inv {i : Instr} {s t : State} (h : CommandDone i s t) (hi : s.Inv) : t.Inv := by
  cases h with
  | error _ _ e _ => exact hi.endCommand e
  | fsReset _ ch _ => exact (hi.setChan ch (FilterState.uninit_inv _)).endCommand .ok
  | fsConfigure _ ch hc hu h4 hmax hmod hbase =>
    exact ((hi.setChan ch ((hi.chan hc).configure hi.params hu (opS s) h4 hmax hmod hbase)).setRes0 _).endCommand .ok
  | fsBind _ ch hc hconf hcur =>
    exact ((hi.setChan ch ((hi.chan hc).bind hconf hcur)).withCursor _).endCommand .ok
  | fsShiftplan _ ch r _ _ => exact (hi.setRes0 r).endCommand .ok
  | dlPush _ ch _ ha => exact (hi.dlPush ha _).endCommand .ok
  | dlTap _ ch _ _ _ => exact (hi.setRes0 _).endCommand .ok
  | kSingle _ ch r _ ha _ => exact ((hi.dlPush ha _).setRes0 r).endCommand .ok
  | kDual _ ch r0 r1 _ ha _ _ =>
    exact (((hi.dlPush ha _).dlPush (by simpa using ha) _).setResults r0 r1).endCommand .ok
  | processEmpty _ fmt mode _ _ _ => exact hi.endCommand .ok
  | process _ fmt mode _ u _ _ _ hr hu => exact (hu ▸ hr.processBank_inv hi).endCommand .ok
  | fx _ _ r _ _ => exact (hi.setResults _ _).endCommand .ok

/-- The completion of the command in flight, legal or not. -/
theorem runCommand_inv {s t : State} (hi : s.Inv) (h : runCommand s = .next t) : t.Inv := by
  rcases runCommand_cases s with ⟨i, _, he⟩ | ⟨e, _, he⟩
  · exact (exec_done (he ▸ h)).inv hi
  · cases he.symm.trans h
    exact hi.endCommand .errIllegal

/-! ### The host and the other agents -/

theorem hostRead_inv {s : State} (hi : s.Inv) (a : BitVec 18) : (hostRead a s).Inv := by
  unfold hostRead
  dsimp only
  split
  · exact hi.readStatus
  · split
    · exact hi.returnWord _
    · exact hi.congr rfl rfl rfl rfl rfl hi.status

theorem slaveWrite_inv {s t : State} {w : Word} {place : SlavePlace} (hi : s.Inv) (h : slaveWrite w s place = .next t) :
    t.Inv := by
  cases place with
  | cmd => cases h; exact hi.congr rfl rfl rfl rfl rfl fun _ => rfl
  | cram i =>
    rw [slaveWrite] at h
    split at h
    · cases h
    · cases h; exact hi.setCoef i _
  | dlram j => cases h; exact hi.setSlot j w
  | arg0 => cases h; exact hi.congr rfl rfl rfl rfl rfl hi.status
  | arg1 => cases h; exact hi.congr rfl rfl rfl rfl rfl hi.status
  | arg2 => cases h; exact hi.congr rfl rfl rfl rfl rfl hi.status
  | arg3 => cases h; exact hi.congr rfl rfl rfl rfl rfl hi.status
  | cursor => cases h; exact hi.congr rfl rfl rfl rfl rfl hi.status
  | status => cases h; exact hi
  | res0 => cases h; exact hi
  | res1 => cases h; exact hi
  | param0 => cases h; exact hi
  | param1 => cases h; exact hi
  | channel c off => cases h; exact hi
  | nothing => cases h; exact hi

theorem hostWrite_inv {s t : State} {a : BitVec 18} {w : Word} (hi : s.Inv) (h : hostWrite a w s = .next t) : t.Inv := by
  cases hopen : portOpen s (slavePlace s.params a.toNat) with
  | true => exact slaveWrite_inv hi (hostWrite_open w hopen ▸ h)
  | false => cases (hostWrite_early w hopen).symm.trans h

/-! ### Block reset -/

/-- The state after a reset is good (rules R24, R34), whatever the parameters. -/
theorem State.afterReset_inv {p : Params} (hp : p.Valid) (k : Nat) : (State.afterReset p k).Inv where
  params := hp
  bank := List.length_replicate
  channels := fun f hf => List.eq_of_mem_replicate hf ▸ FilterState.uninit_inv p
  cram := drawList_length ..
  dlram := drawList_length ..
  mem := Memory.wf_nil
  space := by simp [State.afterReset]
  status := fun _ => rfl

theorem blockReset_inv {s : State} (hi : s.Inv) : (blockReset s).Inv :=
  have h := (State.afterReset_inv hi.params s.draws).setMem hi.mem hi.space
  h.congr rfl rfl rfl rfl rfl h.status

/-- The destination in flight lies in the address space, unless the command breaks a precondition (rule R113 P5). -/
theorem destInFlight_space {s t : State} (h : runCommand s = .next t) :
    (destInFlight s).1 + (destInFlight s).2 ≤ 2 ^ Config.sysAddrWidth := by
  unfold destInFlight
  rcases runCommand_cases s with ⟨i, hd, he⟩ | ⟨e, hd, _⟩
  · rw [hd]
    dsimp only
    cases hp : i.process with
    | none => simp
    | some fm =>
      obtain ⟨fmt, mode⟩ := fm
      have h1 := s.arg1.isLt
      simp only [opDst_eq, bufferBytes_eq, Config.sysAddrWidth]
      rw [he, exec_process hp] at h
      rcases processCore_cases fmt mode s with ⟨hz | hz, _⟩ | ⟨_, _, v, _, hf⟩ | ⟨_, _, hr, _⟩
      · simp [hz, h1.le]
      · simp [hz, h1.le]
      · cases hf.symm.trans h
      · exact hr.p5.2
  · rw [hd]
    simp

theorem resetInFlight_inv {s t : State} (hi : s.Inv) (h : resetInFlight s = .next t) : t.Inv := by
  unfold resetInFlight at h
  cases hr : runCommand s with
  | next u =>
    rw [hr] at h
    cases h
    have hb := (blockReset_inv hi).setMem (drawBytes_wf hi.mem (destInFlight s).1 (blockReset s).draws (destInFlight s).2)
      (drawBytes_space hi.space (destInFlight_space hr))
    exact hb.congr rfl rfl rfl rfl rfl hb.status
  | fault v => rw [hr] at h; cases h
  | refused r => rw [hr] at h; cases h

/-! ### Steps -/

/-- Every access from outside keeps the invariant. -/
theorem performOp_inv {op : HostOp} {s t : State} (hi : s.Inv) (h : performOp op s = .next t) : t.Inv := by
  cases op with
  | write addr size w =>
    rw [performOp] at h
    split at h
    · exact hostWrite_inv hi h
    · cases h
  | read addr size =>
    rw [performOp] at h
    split at h
    · cases h; exact hostRead_inv hi addr
    · cases h
  | wait =>
    cases h
    split
    · exact hi.readStatus.withScript _
    · exact hi.readStatus
  | reset =>
    rw [performOp] at h
    split at h
    · exact resetInFlight_inv hi h
    · cases h; exact blockReset_inv hi
  | memStore addr b =>
    rw [performOp] at h
    split at h
    · cases h
    · cases h; exact hi.setMem (memSet_wf hi.mem _ b) (memSet_space hi.space addr.isLt)
  | memLoad addr =>
    rw [performOp] at h
    split at h
    · cases h
    · cases h; exact hi.returnWord _
  | coherenceMissed => cases h

theorem step_inv {s t : State} (hi : s.Inv) (h : step s = .next t) : t.Inv := by
  rcases step_cases h with ⟨_, hrun⟩ | ⟨_, _, rfl⟩ | ⟨_, op, rest, u, _, hop, rfl⟩
  · exact runCommand_inv hi hrun
  · exact hi.countDown
  · have hu := performOp_inv (hi.withScript rest) hop
    split
    · exact hu.countDown
    · exact hu

/-! ### The statements -/

/-- Settles O3: a step completes a command, counts down, or performs one access, and each keeps the invariant. -/
theorem stepKeepsInvariant : Obligations.StepKeepsInvariant := fun _ _ hi h => step_inv hi h

/-- Settles O2: the test configuration meets rule R8, and the rest holds of every reset state. -/
theorem resetMeetsInvariant : Obligations.ResetMeetsInvariant := State.afterReset_inv (by decide) 0

/-- Settles O4: L = T + 2 and T is a multiple of 4, at least 4 (rule R24). -/
theorem delayLengthIsEven : Obligations.DelayLengthIsEven := by
  intro s c hi hc hne
  obtain ⟨h4, -, hmod, hL, -⟩ := (hi.chan hc).sized hne
  omega

end Sys2Proof.Machine

/-! What a completed command leaves unchanged (rules R15, R16, R19, R20, R23, R26, R27, R40). -/

namespace Sys2Proof.Machine

/-! ### The frame -/

/-- t differs from s at most in STATUS, the results, CURSOR, the FilterStates, DLRAM and sample memory, and its command is
complete: the registers and memories that no command writes are those of s. -/
def CommandFrame (s t : State) : Prop :=
  t = { s with err := t.err, phase := .unseen, res0 := t.res0, res1 := t.res1, cursor := t.cursor, fs := t.fs,
               dlram := t.dlram, mem := t.mem }

/-- Changing the bank, then writing results and ending the command, stays in the frame. -/
theorem OnlyBank.commandFrame {s u : State} (h : OnlyBank s u) (e : ErrCode) (r0 r1 : Word) :
    CommandFrame s (endCommand e (setResults r0 r1 u)) := by
  rw [h]
  rfl

theorem OnlyBank.cursor_eq {s u : State} (h : OnlyBank s u) : u.cursor = s.cursor := by rw [h]

theorem OnlyBank.results_eq {s u : State} (h : OnlyBank s u) : u.res0 = s.res0 ∧ u.res1 = s.res1 := by
  rw [h]
  exact ⟨rfl, rfl⟩

theorem processBank_onlyBank {fmt : Format} {mode : Mode} {src dst F N : Nat} {s t : State}
    (h : t = processBank fmt mode src dst F N s) : OnlyBank s t :=
  h ▸ processBank_frame fmt mode src dst F N s

/-- Writing a FilterState with the same cursor moves no cursor. -/
theorem setChan_chan_wp {s : State} {c : Nat} {f : FilterState} (hf : f.wp = (s.chan c).wp) (d : Nat) :
    ((s.setChan c f).chan d).wp = (s.chan d).wp := by
  by_cases hd : c = d
  · subst hd
    by_cases hc : c < s.fs.length
    · rw [chan_setChan_same s f hc, hf]
    · have hle := Nat.le_of_not_lt hc
      rw [chan_uninit_of_le s hle, chan_uninit_of_le _ (by simpa using hle)]
  · rw [chan_setChan_other s f hd]

/-- A channel command is no PROCESS. -/
theorem process_none_of_channel {i : Instr} {ch : Nat} (h : i.channel = some ch) : i.process = none := by
  cases i with
  | fsReset | fsConfigure | fsBind | fsShiftplan | dlPush | dlTap | kSingle | kDual => rfl
  | processS16Any | processS16Even | processS24Any | processS24Even | processS32Any | processS32Even => cases h
  | fxRshift | fxSat16 | fxSat24 | fxSat32 => rfl

/-! ### What each command leaves alone -/

section
variable {i : Instr} {s t : State}

/-- The registers and memories that no command writes. -/
theorem CommandDone.frame (h : CommandDone i s t) : CommandFrame s t := by
  cases h with
  | kDual _ ch r0 r1 _ _ _ _ => exact ((dlPush_frame ch s.arg0 s).trans (dlPush_frame ch s.arg1 _)).commandFrame .ok r0 r1
  | process _ fmt mode _ u _ _ _ _ hu => exact (processBank_onlyBank hu).commandFrame .ok u.res0 u.res1
  | _ => rfl

/-- Only FS.BIND moves CURSOR (rule R19). -/
theorem CommandDone.cursor_eq (h : CommandDone i s t) (hb : ∀ ch, i ≠ .fsBind ch) : t.cursor = s.cursor := by
  cases h with
  | fsBind _ ch _ _ _ => exact absurd rfl (hb ch)
  | process _ fmt mode _ u _ _ _ _ hu => exact (processBank_onlyBank hu).cursor_eq
  | _ => rfl

/-- Only PROCESS writes sample memory (rule R40). -/
theorem CommandDone.mem_eq (h : CommandDone i s t) (hp : i.process = none) : t.mem = s.mem := by
  cases h with
  | process _ fmt mode _ u hi _ _ _ _ => cases hp.symm.trans hi
  | _ => rfl

/-- PROCESS, FS.RESET, FS.BIND and DL.PUSH write no result (rule R16). -/
theorem CommandDone.results_eq (h : CommandDone i s t)
    (hr : i.process ≠ none ∨ ∃ ch, i = .fsReset ch ∨ i = .fsBind ch ∨ i = .dlPush ch) :
    t.res0 = s.res0 ∧ t.res1 = s.res1 := by
  cases h with
  | fsConfigure | fsShiftplan | dlTap | kSingle | kDual => simp [Instr.process] at hr
  | fx _ _ r hc hp =>
    rcases hr with hr | ⟨ch, rfl | rfl | rfl⟩
    · exact absurd hp hr
    · cases hc
    · cases hc
    · cases hc
  | process _ fmt mode _ u _ _ _ _ hu => exact (processBank_onlyBank hu).results_eq
  | _ => exact ⟨rfl, rfl⟩

/-- The lifecycle commands apart, a command changes of a FilterState its cursor at most (rule R23). -/
theorem CommandDone.onlyCursor (h : CommandDone i s t)
    (hl : ∀ ch, i ≠ .fsReset ch ∧ i ≠ .fsConfigure ch ∧ i ≠ .fsBind ch) (c : Nat) : OnlyCursor (s.chan c) (t.chan c) := by
  cases h with
  | fsReset _ ch _ => exact absurd rfl (hl ch).1
  | fsConfigure _ ch => exact absurd rfl (hl ch).2.1
  | fsBind _ ch => exact absurd rfl (hl ch).2.2
  | dlPush _ ch _ _ => exact dlPush_chan s ch c _
  | kSingle _ ch r _ _ _ => exact dlPush_chan s ch c _
  | kDual _ ch r0 r1 _ _ _ _ => exact OnlyCursor.trans (dlPush_chan s ch c _) (dlPush_chan _ ch c _)
  | process _ fmt mode _ u _ _ _ _ hu => rw [hu]; exact processBank_chan fmt mode _ _ _ _ s c
  | _ => rfl

/-- The lifecycle commands and those that push apart, a command leaves every cursor alone (rules R77, R95, R97). -/
theorem CommandDone.wp_eq (h : CommandDone i s t) (hp : i.process = none)
    (hn : ∀ ch, i ≠ .fsReset ch ∧ i ≠ .fsBind ch ∧ i ≠ .dlPush ch ∧ i ≠ .kSingle ch ∧ i ≠ .kDual ch) (c : Nat) :
    (t.chan c).wp = (s.chan c).wp := by
  cases h with
  | fsReset _ ch => exact absurd rfl (hn ch).1
  | fsBind _ ch => exact absurd rfl (hn ch).2.1
  | dlPush _ ch => exact absurd rfl (hn ch).2.2.1
  | kSingle _ ch => exact absurd rfl (hn ch).2.2.2.1
  | kDual _ ch => exact absurd rfl (hn ch).2.2.2.2
  | process _ fmt mode _ u hi => cases hp.symm.trans hi
  | fsConfigure _ ch => exact setChan_chan_wp (s := s) (f := configuredChan _ _ _ _) rfl c
  | _ => rfl

/-- Only the commands that push write DLRAM (rules R28, R77). -/
theorem CommandDone.dlram_eq (h : CommandDone i s t) (hp : i.process = none)
    (hn : ∀ ch, i ≠ .dlPush ch ∧ i ≠ .kSingle ch ∧ i ≠ .kDual ch) : t.dlram = s.dlram := by
  cases h with
  | dlPush _ ch => exact absurd rfl (hn ch).1
  | kSingle _ ch => exact absurd rfl (hn ch).2.1
  | kDual _ ch => exact absurd rfl (hn ch).2.2
  | process _ fmt mode _ u hi => cases hp.symm.trans hi
  | _ => rfl

/-- A channel command reaches no FilterState but its own (rule R26). -/
theorem CommandDone.chan_other (h : CommandDone i s t) {ch d : Nat} (hi : i.channel = some ch) (hd : d ≠ ch) :
    t.chan d = s.chan d := by
  cases h with
  | fsReset | fsConfigure | fsBind => cases hi; exact chan_setChan_other s _ hd.symm
  | dlPush | kSingle => cases hi; exact dlPush_chan_other s _ hd.symm
  | kDual => cases hi; exact (dlPush_chan_other _ _ hd.symm).trans (dlPush_chan_other s _ hd.symm)
  | process _ fmt mode _ u hp => cases (process_none_of_channel hi).symm.trans hp
  | _ => rfl

end

/-! ### The statements -/

/-- Settles O45: the frame of a completed command, part by part. -/
theorem commandsWriteOnlyTheirState : Obligations.CommandsWriteOnlyTheirState := by
  intro s t i h
  have hd := exec_done h
  have hf := hd.frame
  refine ⟨?_, ?_, ?_, ?_, ?_, ?_, ?_, ?_, ?_, ?_, ?_, ?_, ?_, hd.cursor_eq, hd.mem_eq, hd.results_eq, hd.onlyCursor,
    fun hn => hd.wp_eq hn.1 hn.2, fun hn => hd.dlram_eq hn.1 hn.2⟩
  all_goals rw [hf]

/-- Settles O46: whatever a channel command does, it reaches its own FilterState only. -/
theorem channelsShareNoFilterState : Obligations.ChannelsShareNoFilterState :=
  fun _ _ _ _ _ hi hd h => (exec_done h).chan_other hi hd

end Sys2Proof.Machine

/-! The control registers and block reset on a block with no command in flight (rules R15 to R20, R34, R46, R63). -/

namespace Sys2Proof.Machine

/-! ### One access to a block with no command in flight -/

section
variable {s : State} {rest : List HostOp} {a : BitVec 18} {w : Word}

/-- With no command in flight an access is performed, and nothing else happens. -/
theorem step_op_not_busy {op : HostOp} {t : State} (hb : s.busy = false) (hs : s.script = op :: rest)
    (hp : performOp op { s with script := rest } = .next t) : step s = .next t := by
  have h0 : s.phase ≠ .running 0 := fun h => by simp [busy_running s 0 h] at hb
  simpa [hb] using step_op_next h0 hs hp

/-- An idle block takes an aligned write. -/
theorem step_idle_write {t : State} (place : SlavePlace) (hidle : s.phase = .idle) (hs : s.script = .write a 4 w :: rest)
    (ha : a.toNat % 4 = 0) (hplace : slavePlace s.params a.toNat = place)
    (ht : slaveWrite w { s with script := rest } place = .next t) : step s = .next t := by
  refine step_op_not_busy (busy_idle s hidle) hs ?_
  rw [performOp, if_pos (by simp [slaveAligned, ha]),
    hostWrite_open (s := { s with script := rest }) w (portOpen_idle hidle _)]
  exact hplace ▸ ht

/-- An idle block answers an aligned read of any place but STATUS. -/
theorem step_idle_read (place : SlavePlace) (hidle : s.phase = .idle) (hs : s.script = .read a 4 :: rest)
    (ha : a.toNat % 4 = 0) (hplace : slavePlace s.params a.toNat = place) (hne : place ≠ .status)
    (hw : slaveRead { s with script := rest } place = w) : step s = .next { s with script := rest, rdata := w } := by
  subst hplace hw
  refine step_op_not_busy (busy_idle s hidle) hs ?_
  rw [performOp, if_pos (by simp [slaveAligned, ha]),
    hostRead_open (s := { s with script := rest }) (portOpen_idle hidle _) hne]
  rfl

/-- Reading STATUS of an idle block changes nothing but what the host has read. -/
theorem readStatus_idle (hidle : s.phase = .idle) : readStatus s = { s with rdata := statusWord s } := by
  simp [readStatus, seen, returnWord, hidle]

theorem step_idle_read_status (hidle : s.phase = .idle) (hs : s.script = .read 0x004 4 :: rest) :
    step s = .next { s with script := rest, rdata := statusWord s } := by
  refine step_op_not_busy (busy_idle s hidle) hs ?_
  rw [performOp, if_pos (by decide), hostRead_status, readStatus_idle (s := { s with script := rest }) hidle]
  rfl

end

/-! ### The values of STATUS and of a reset block -/

/-- With BUSY = 0, STATUS holds the result code in bits [11:8] (rule R18). -/
theorem statusWord_not_busy {s : State} (hb : s.busy = false) : statusWord s = BitVec.ofNat 32 (2 ^ 8 * s.err.code) := by
  simp [statusWord, hb, Nat.mul_comm]

/-- A command that has just been started reads as BUSY = 1, ERR = 0 (rules R17, R18). -/
theorem statusWord_startCommand (w : Word) (s : State) : statusWord (startCommand w s) = 1 := by
  simp [statusWord, State.busy, ErrCode.code]

/-- The number rule R126 gives a result code. -/
theorem errCode_eq_of_mem {e : ErrCode} {n : Nat}
    (h : (e, n) ∈ [(ErrCode.ok, 0), (.invalidConfig, 1), (.errState, 2), (.errRange, 3), (.errIllegal, 4)]) : e.code = n := by
  cases e <;> simpa [ErrCode.code, eq_comm] using h

/-- Block reset leaves the values of rule R34's table. -/
theorem afterReset_atReset (p : Params) (k : Nat) : (State.afterReset p k).AtReset where
  cmd := rfl
  args := ⟨rfl, rfl, rfl, rfl⟩
  results := ⟨rfl, rfl⟩
  status := statusWord_not_busy (s := State.afterReset p k) rfl
  cursor := rfl
  channels := fun c hc => List.eq_of_mem_replicate (chan_mem (State.afterReset p k) (by simpa [State.afterReset] using hc))
  noCommand := rfl

/-! ### The statements -/

/-- Settles O1: both phases without a command in flight reset by `blockReset`, which takes every table value from
`State.afterReset`. -/
theorem blockResetRestoresTableValues : Obligations.BlockResetRestoresTableValues := by
  refine ⟨afterReset_atReset .test 0, fun s rest hphase hs => ⟨blockReset { s with script := rest }, ?_, ?_, rfl, rfl, rfl,
    List.length_replicate, drawList_length .., drawList_length ..⟩⟩
  · have hb : s.busy = false := hphase.elim (busy_idle s) (busy_unseen s)
    exact step_op_not_busy hb hs (if_neg (by simpa [State.busy] using hb))
  · obtain ⟨h1, h2, h3, h4, h5, h6, h7⟩ := afterReset_atReset s.params s.draws
    exact ⟨h1, h2, h3, h4, h5, h6, h7⟩

/-- Settles O11: the write goes to the place CMD, and `startCommand` says the rest. -/
theorem cmdWriteStartsCommand : Obligations.CmdWriteStartsCommand := fun _ w _ hidle hs =>
  ⟨startCommand w _, step_idle_write .cmd hidle hs rfl rfl rfl, statusWord_startCommand w _, rfl, rfl⟩

/-- Settles O48: STATUS apart, each register is a place whose read gives its word. -/
theorem controlRegisterReads : Obligations.ControlRegisterReads := by
  intro s a w n rest hidle hs herr haw
  simp only [List.mem_cons, Prod.mk.injEq, List.not_mem_nil, or_false] at haw
  rcases haw with ⟨rfl, rfl⟩ | ⟨rfl, rfl⟩ | ⟨rfl, rfl⟩ | ⟨rfl, rfl⟩ | ⟨rfl, rfl⟩ | ⟨rfl, rfl⟩ | ⟨rfl, rfl⟩ | ⟨rfl, rfl⟩ |
    ⟨rfl, rfl⟩ | ⟨rfl, rfl⟩ | ⟨rfl, rfl⟩
  · exact step_idle_read .cmd hidle hs rfl rfl (by decide) rfl
  · exact step_idle_read .arg0 hidle hs rfl rfl (by decide) rfl
  · exact step_idle_read .arg1 hidle hs rfl rfl (by decide) rfl
  · exact step_idle_read .arg2 hidle hs rfl rfl (by decide) rfl
  · exact step_idle_read .arg3 hidle hs rfl rfl (by decide) rfl
  · exact step_idle_read .res0 hidle hs rfl rfl (by decide) rfl
  · exact step_idle_read .res1 hidle hs rfl rfl (by decide) rfl
  · exact step_idle_read .cursor hidle hs rfl rfl (by decide) (BitVec.setWidth_eq_append (by decide))
  · rw [← errCode_eq_of_mem herr, ← statusWord_not_busy (busy_idle s hidle)]
    exact step_idle_read_status hidle hs
  · exact step_idle_read .param0 hidle hs rfl rfl (by decide) rfl
  · exact step_idle_read .param1 hidle hs rfl rfl (by decide) rfl

/-- Settles O49: each register is a place, whose write is taken or ignored. -/
theorem controlRegisterWrites : Obligations.ControlRegisterWrites := by
  intro s a w rest hidle hs
  refine ⟨?_, ?_, ?_, ?_, ?_, ?_⟩
  · rintro rfl
    exact step_idle_write .arg0 hidle hs rfl rfl rfl
  · rintro rfl
    exact step_idle_write .arg1 hidle hs rfl rfl rfl
  · rintro rfl
    exact step_idle_write .arg2 hidle hs rfl rfl rfl
  · rintro rfl
    exact step_idle_write .arg3 hidle hs rfl rfl rfl
  · rintro rfl
    rw [← BitVec.setWidth_eq_extractLsb' (by decide)]
    exact step_idle_write .cursor hidle hs rfl rfl rfl
  · rintro (rfl | rfl | rfl | rfl | rfl)
    · exact step_idle_write .status hidle hs rfl rfl rfl
    · exact step_idle_write .res0 hidle hs rfl rfl rfl
    · exact step_idle_write .res1 hidle hs rfl rfl rfl
    · exact step_idle_write .param0 hidle hs rfl rfl rfl
    · exact step_idle_write .param1 hidle hs rfl rfl rfl

end Sys2Proof.Machine

/-! The memories behind the slave port and sample memory (rules R37 to R39, R41, R43, R49, R93), and the step that runs the
command in flight (rules R49, R58). -/

namespace Sys2Proof.Machine

/-! ### The place of a RAM entry (rules R38, R39) -/

theorem slavePlace_cram {p : Params} {i : Nat} (hp : p.Valid) (hi : i < p.coefRamWords) :
    slavePlace p (0x10000 + 4 * i) = .cram i := by
  obtain ⟨-, -, -, -, -, -, -, hcram, -⟩ := hp
  have hentry : (0x10000 + 4 * i - 0x10000) / 4 = i := by omega
  rw [slavePlace, if_neg (by omega), if_neg (by omega), if_pos (by omega), hentry, if_pos hi]

theorem slavePlace_dlram {p : Params} {j : Nat} (hp : p.Valid) (hj : j < p.dlRamSlots) :
    slavePlace p (0x20000 + 4 * j) = .dlram j := by
  obtain ⟨-, -, -, -, -, -, -, -, hdlram⟩ := hp
  have hslot : (0x20000 + 4 * j - 0x20000) / 4 = j := by omega
  rw [slavePlace, if_neg (by omega), if_neg (by omega), if_neg (by omega), if_pos (by omega), hslot, if_pos hj]

/-- Rule R93 as a proposition. -/
theorem coefReferenced_iff (s : State) (i : Nat) :
    coefReferenced s i = true ↔ ∃ c, c < s.params.nchMax ∧ (s.chan c).LC ≠ .uninit ∧ (s.chan c).coefBase.toNat ≤ i ∧
      i < (s.chan c).coefBase.toNat + (s.chan c).T.toNat := by
  simp [coefReferenced]

/-- A half read as a signed number and written as a word is sign-extended (rule R38). -/
theorem trunc_sext_half (p : Half) : trunc 32 (sext 16 p) = p.signExtend 32 := by
  rw [sext, BitVec.setWidth_eq, trunc, BitVec.signExtend]

/-! ### One access, performed or refused -/

section
variable {s : State} {rest : List HostOp} {a : BitVec 18} {size : Nat} {w x : Word} {b : Byte} {n : Nat}

/-- A misplaced slave access is a violation whatever the block is doing (rule R43). -/
theorem performOp_misplaced (ha : a.toNat % 4 ≠ 0 ∨ size ≠ 4) :
    performOp (.write a size w) s = .fault .slaveAccess ∧ performOp (.read a size) s = .fault .slaveAccess := by
  have hmis : ¬ slaveAligned a size = true := by
    rw [slaveAligned, decide_eq_true_eq]
    omega
  exact ⟨if_neg hmis, if_neg hmis⟩

/-- An aligned write to an open place. -/
theorem performOp_open_write (place : SlavePlace) (ha : a.toNat % 4 = 0) (hplace : slavePlace s.params a.toNat = place)
    (hopen : portOpen s place = true) : performOp (.write a 4 w) s = slaveWrite w s place := by
  subst hplace
  rw [performOp, if_pos (by simp [slaveAligned, ha]), hostWrite_open w hopen]

/-- An aligned read of an open place, STATUS apart. -/
theorem performOp_open_read (place : SlavePlace) (ha : a.toNat % 4 = 0) (hplace : slavePlace s.params a.toNat = place)
    (hopen : portOpen s place = true) (hne : place ≠ .status) :
    performOp (.read a 4) s = .next { s with rdata := slaveRead s place } := by
  subst hplace
  rw [performOp, if_pos (by simp [slaveAligned, ha]), hostRead_open hopen hne]
  rfl

/-- With no command in flight, idle or not yet seen to be, an address that names nothing is open (log 19). -/
theorem portOpen_nothing (hb : s.busy = false) : portOpen s .nothing = true := by
  cases hp : s.phase with
  | idle => exact portOpen_idle hp _
  | unseen => exact portOpen_unseen hp _
  | running n => cases (busy_running s n hp).symm.trans hb

/-- With a command in flight an access is performed, and the completion comes one access nearer (log 5). -/
theorem step_op_running {op : HostOp} {t : State} (hp : s.phase = .running (n + 1)) (hs : s.script = op :: rest)
    (ht : performOp op { s with script := rest } = .next t) (hphase : t.phase = s.phase) :
    step s = .next { t with phase := .running n } := by
  have h := step_op_next (by simp [hp]) hs ht
  rwa [busy_running s _ hp, if_pos rfl, countDown_running t n (hphase.trans hp)] at h

/-! ### Other agents (rule R49) -/

/-- With no command in flight no buffer is in flight. -/
theorem inBufferInFlight_not_busy (hb : s.busy = false) (y : Nat) : inBufferInFlight s y = false := by
  rw [inBufferInFlight, hb, Bool.false_and]

theorem performOp_agent_in_buffer (h : inBufferInFlight s x.toNat = true) :
    performOp (.memStore x b) s = .fault .hostHazard ∧ performOp (.memLoad x) s = .fault .hostHazard :=
  ⟨if_pos h, if_pos h⟩

theorem performOp_memStore_outside (h : inBufferInFlight s x.toNat = false) :
    performOp (.memStore x b) s = .next { s with mem := memSet s.mem x.toNat b } :=
  if_neg (by simp [h])

theorem performOp_memLoad_outside (h : inBufferInFlight s x.toNat = false) :
    performOp (.memLoad x) s = .next { s with rdata := 0#24 ++ memByte s.mem x.toNat } := by
  have hzext : (memByte s.mem x.toNat).setWidth 32 = 0#24 ++ memByte s.mem x.toNat := BitVec.setWidth_eq_append (by decide)
  rw [← hzext]
  exact if_neg (by simp [h])

end

/-! ### Little-endian reads, and the command a step runs -/

/-- A little-endian read is the sum of its bytes, byte i with weight 2^(8i) (rule R41). -/
theorem memReadLE_eq_sum (m : Memory) (a n : Nat) :
    memReadLE m a n = ∑ i ∈ Finset.range n, (memByte m (a + i)).toNat * 2 ^ (8 * i) := by
  induction n generalizing a with
  | zero => rfl
  | succ n ih =>
    rw [memReadLE, ih, Finset.sum_range_succ', Finset.mul_sum, Nat.add_comm]
    congr 1
    · refine Finset.sum_congr rfl fun i _ => ?_
      rw [show a + 1 + i = a + (i + 1) by omega, show 8 * (i + 1) = 8 + 8 * i by omega, Nat.pow_add]
      ring
    · simp

/-- A 32-bit word is read from the table whole (rule R56). -/
theorem tableWord_toNat (w : Word) : tableWord 32 w.toNat = w := by
  rw [tableWord, Nat.mod_eq_of_lt w.isLt, BitVec.ofNat_toNat, BitVec.setWidth_eq]

/-- The command in flight, when its word is legal, is the command its word decodes to (rule R58). -/
theorem runCommand_of_decode {s : State} {i : Instr} (h : decode s.cmd = .ok i) : runCommand s = exec i s := by
  rw [runCommand, h]

/-! ### The statements -/

/-- Settles O51: the entry is the place of its address; the write is refused exactly where `coefReferenced` says so. -/
theorem cramWindowAccess : Obligations.CramWindowAccess := by
  intro s a i w rest hi hidle hlt haddr
  have ha : a.toNat % 4 = 0 := by omega
  have hplace : slavePlace s.params a.toNat = .cram i := haddr ▸ slavePlace_cram hi.params hlt
  refine ⟨fun hs => ?_, fun hs => ⟨fun hused => ?_, fun hfree => ?_⟩⟩
  · exact step_idle_read (.cram i) hidle hs ha hplace (by simp) (trunc_sext_half _)
  · refine step_op_fault (by simp [hidle]) hs ?_
    rw [performOp_open_write (s := { s with script := rest }) (.cram i) ha hplace (portOpen_idle hidle _)]
    exact if_pos ((coefReferenced_iff _ i).2 hused)
  · have hnot : ¬ coefReferenced { s with script := rest } i = true := by
      rw [coefReferenced_iff]
      rintro ⟨c, hc, hne, hle, hgt⟩
      exact (hfree c hc hne).elim (Nat.not_lt.2 hle) (Nat.not_le.2 hgt)
    refine ⟨State.setCoef { s with script := rest } i (w.setWidth 16),
      step_idle_write (.cram i) hidle hs ha hplace (if_neg hnot), ?_, fun k hk => coef_setCoef_other _ _ hk.symm, rfl⟩
    rw [coef_setCoef_same _ _ (hi.cram ▸ hlt), BitVec.setWidth_eq_extractLsb' (by decide)]

/-- Settles O52: the slot is the place of its address, and no FilterState is looked at. -/
theorem dlramWindowAccess : Obligations.DlramWindowAccess := by
  intro s a j w rest hi hidle hlt haddr
  have ha : a.toNat % 4 = 0 := by omega
  have hplace : slavePlace s.params a.toNat = .dlram j := haddr ▸ slavePlace_dlram hi.params hlt
  refine ⟨fun hs => step_idle_read (.dlram j) hidle hs ha hplace (by simp) rfl, fun hs => ?_⟩
  exact ⟨State.setSlot { s with script := rest } j w, step_idle_write (.dlram j) hidle hs ha hplace rfl,
    slot_setSlot_same _ _ (hi.dlram ▸ hlt), fun k hk => slot_setSlot_other _ _ hk.symm, rfl⟩

/-- Settles O53: such an address is the place `nothing`, which is open in both phases. -/
theorem unnamedAddressReadsZero : Obligations.UnnamedAddressReadsZero := by
  intro s a w rest hphase ha hnames
  have hb : s.busy = false := hphase.elim (busy_idle s) (busy_unseen s)
  have hn : slavePlace s.params a.toNat = .nothing := (slavePlace_nothing_iff _ ha).2 hnames
  exact ⟨fun hs => step_op_not_busy hb hs (performOp_open_read .nothing ha hn (portOpen_nothing hb) (by simp)),
    fun hs => step_op_not_busy hb hs (performOp_open_write .nothing ha hn (portOpen_nothing hb))⟩

/-- Settles O56, part by part from the laws of the two primitives. -/
theorem sampleMemoryIsLittleEndian : Obligations.SampleMemoryIsLittleEndian := fun m a n p h =>
  ⟨fun _ hi => memByte_memWriteLE h hi, fun _ hx => memByte_memWriteLE_other h hx, memReadLE_eq_sum m a n,
    memReadLE_memWriteLE h a n p⟩

/-- Settles O57: `inBufferInFlight_iff` decides between the violation and the access, in each phase. -/
theorem agentsMustNotTouchBuffers : Obligations.AgentsMustNotTouchBuffers := by
  intro s x b rest hm
  have hsame : memByte (memSet s.mem x.toNat b) x.toNat = b := memByte_memSet_same hm _ b
  have hother : ∀ y, y ≠ x.toNat → memByte (memSet s.mem x.toNat b) y = memByte s.mem y :=
    fun y hy => memByte_memSet_other hm b hy
  refine ⟨fun n i fmt mode hp hd hi hin hs => ?_, fun n hp hout => ?_, fun hb => ?_⟩
  · have h0 : s.phase ≠ .running 0 := by simp [hp]
    have hbuf : inBufferInFlight s x.toNat = true :=
      (inBufferInFlight_iff _ _).2 ⟨busy_running s _ hp, i, fmt, mode, hd, hi, hin⟩
    obtain ⟨hstore, hload⟩ := performOp_agent_in_buffer (s := { s with script := rest }) (b := b) hbuf
    exact hs.elim (fun hs => step_op_fault h0 hs hstore) fun hs => step_op_fault h0 hs hload
  · have hbuf : inBufferInFlight s x.toNat = false := by
      rw [← Bool.not_eq_true, inBufferInFlight_iff]
      rintro ⟨-, i, fmt, mode, hd, hi, hin⟩
      obtain ⟨hsrc, hdst⟩ := hout i fmt mode hd hi
      omega
    exact ⟨fun hs => ⟨_, step_op_running hp hs (performOp_memStore_outside hbuf) rfl, hsame, hother, rfl⟩,
      fun hs => step_op_running hp hs (performOp_memLoad_outside hbuf) rfl⟩
  · have hbuf : inBufferInFlight s x.toNat = false := inBufferInFlight_not_busy hb _
    exact ⟨fun hs => ⟨_, step_op_not_busy hb hs (performOp_memStore_outside hbuf), hsame, hother, rfl⟩,
      fun hs => step_op_not_busy hb hs (performOp_memLoad_outside hbuf)⟩

/-- Settles O12: `step_running_zero` twice; the prepared state holds the word itself. -/
theorem stepRunsDecodedCommand : Obligations.StepRunsDecodedCommand := by
  refine ⟨fun s i hp hd => (step_running_zero hp).trans (runCommand_of_decode hd), fun s w i hd => ?_⟩
  rw [State.withFetchWord, tableWord_toNat]
  exact (step_running_zero rfl).trans (runCommand_of_decode hd)

/-- Settles O54: alignment is looked at before the phase. -/
theorem unalignedSlaveAccessFaults : Obligations.UnalignedSlaveAccessFaults := by
  intro s a size w rest h0 ha hs
  obtain ⟨hwrite, hread⟩ := performOp_misplaced (s := { s with script := rest }) (w := w) ha
  exact hs.elim (fun hs => step_op_fault h0 hs hwrite) fun hs => step_op_fault h0 hs hread

end Sys2Proof.Machine

/-! Decoding and encoding command words (rules R55, R57, R58, R61, R67). -/

namespace Sys2Proof

/-! ### The rows of the table (rule R58) -/

/-- Each mnemonic names one row. -/
theorem opTable_mnemonics_nodup : (opTable.map OpRow.mnemonic).Nodup := by decide +kernel

/-- One word selects one row. -/
theorem row_unique {r r' : OpRow} {w : Word} (hr : r ∈ opTable) (hr' : r' ∈ opTable) (h : w &&& r.mask = r.pattern)
    (h' : w &&& r'.mask = r'.pattern) : r = r' :=
  List.inj_on_of_nodup_map opTable_mnemonics_nodup hr hr' (opTable_disjoint r hr r' hr' (rows_agree h h'))

/-- A word that a row matches decodes to that row's command: the row found is the only one. -/
theorem decode_of_row {r : OpRow} {w : Word} (hr : r ∈ opTable) (h : w &&& r.mask = r.pattern) :
    decode w = .ok (r.make (fieldCH w)) := by
  obtain ⟨r', hf⟩ := Option.isSome_iff_exists.1
    ((List.find?_isSome (p := fun r : OpRow => r.selects w)).2 ⟨r, hr, (r.selects_iff w).2 h⟩)
  have hsel : w &&& r'.mask = r'.pattern :=
    (r'.selects_iff w).1 (List.find?_some (p := fun r : OpRow => r.selects w) hf)
  have heq : r' = r := row_unique (List.mem_of_find?_eq_some hf) hr hsel h
  exact decode_ok_iff.2 ⟨r', hf, by rw [heq]⟩

/-- The row of a well-formed command matches its word, whatever the command (rules R57, R58). -/
theorem encode_matches_row (i : Instr) : Laws.TableRow.Statement i := by
  cases i with
  | fsReset ch => exact Laws.TableRow.fsReset ch
  | fsConfigure ch => exact Laws.TableRow.fsConfigure ch
  | fsBind ch => exact Laws.TableRow.fsBind ch
  | fsShiftplan ch => exact Laws.TableRow.fsShiftplan ch
  | dlPush ch => exact Laws.TableRow.dlPush ch
  | dlTap ch => exact Laws.TableRow.dlTap ch
  | kSingle ch => exact Laws.TableRow.kSingle ch
  | kDual ch => exact Laws.TableRow.kDual ch
  | processS16Any => exact Laws.TableRow.processS16Any
  | processS16Even => exact Laws.TableRow.processS16Even
  | processS24Any => exact Laws.TableRow.processS24Any
  | processS24Even => exact Laws.TableRow.processS24Even
  | processS32Any => exact Laws.TableRow.processS32Any
  | processS32Even => exact Laws.TableRow.processS32Even
  | fxRshift => exact Laws.TableRow.fxRshift
  | fxSat16 => exact Laws.TableRow.fxSat16
  | fxSat24 => exact Laws.TableRow.fxSat24
  | fxSat32 => exact Laws.TableRow.fxSat32

/-! ### The fields of a word that a row matches (rule R55) -/

theorem fieldCH_eq_extract (w : Word) : fieldCH w = (w.extractLsb' 8 8).toNat := by
  simpa [fieldCH] using Nat.and_two_pow_sub_one_eq_mod (w.toNat >>> 8) 8

theorem fieldCH_lt (w : Word) : fieldCH w < 256 := fieldCH_eq_extract w ▸ (w.extractLsb' 8 8).isLt

/-- A field that the mask of a row looks at whole holds what the pattern holds there. -/
theorem field_eq_of_row {r : OpRow} {w : Word} {start len : Nat} (h : w &&& r.mask = r.pattern)
    (hm : r.mask.extractLsb' start len = BitVec.allOnes len) :
    w.extractLsb' start len = r.pattern.extractLsb' start len := by
  rw [← h, BitVec.extractLsb'_and, hm, BitVec.and_allOnes]

/-- Every row looks at the whole of OPC, FMT, MODE and RSV, and at CH from the opcode 0x20 on. -/
theorem opTable_masks :
    ∀ r ∈ opTable, r.mask.extractLsb' 0 8 = BitVec.allOnes 8 ∧ r.mask.extractLsb' 16 2 = BitVec.allOnes 2 ∧
      r.mask.extractLsb' 16 3 = BitVec.allOnes 3 ∧ r.mask.extractLsb' 19 13 = BitVec.allOnes 13 ∧
      (0x20 ≤ (r.pattern.extractLsb' 0 8).toNat → r.mask.extractLsb' 8 8 = BitVec.allOnes 8) := by
  decide +kernel

/-- No row's pattern falls under a case of rule R61. -/
theorem opTable_patterns :
    ∀ r ∈ opTable,
      (r.pattern.extractLsb' 0 8).toNat ∈
        [0x01, 0x02, 0x03, 0x04, 0x08, 0x09, 0x10, 0x11, 0x20, 0x30, 0x31, 0x32, 0x33] ∧
      r.pattern.extractLsb' 19 13 = 0 ∧ r.pattern.extractLsb' 16 2 ≠ 3 ∧
      (0x20 ≤ (r.pattern.extractLsb' 0 8).toNat → r.pattern.extractLsb' 8 8 = 0) ∧
      ((r.pattern.extractLsb' 0 8).toNat ≠ 0x20 → r.pattern.extractLsb' 16 3 = 0) := by
  decide +kernel

/-! ### The word of a row's command -/

/-- A channel row's command is encoded as the row's pattern with the channel in CH (rule R57). -/
theorem channelRows_encode :
    ∀ r ∈ channelRows, r.mask = 0xFFFF00FF#32 ∧
      ∀ ch, encode (r.make ch) = cmdWord r.pattern.toNat ch 0 0 ∧ wellFormed (r.make ch) = channelFits ch := by
  simp [channelRows, encode, wellFormed]

/-- A PROCESS or FX row's command is encoded as the row's pattern (rule R57). -/
theorem exactRows_encode :
    ∀ r ∈ exactRows, r.mask = BitVec.allOnes 32 ∧
      ∀ ch, encode (r.make ch) = r.pattern ∧ wellFormed (r.make ch) = true := by
  simp [exactRows, encode, wellFormed, cmdWord]

theorem cmdWord_eq_add (p c : Word) : cmdWord p.toNat c.toNat 0 0 = p + c <<< 8 := by
  have hshift : BitVec.ofNat 32 (c.toNat * 2 ^ 8) = c <<< 8 := BitVec.eq_of_toNat_eq (by simp [Nat.shiftLeft_eq])
  simp only [cmdWord, Nat.zero_mul, Nat.add_zero, BitVec.ofNat_add, BitVec.ofNat_toNat, BitVec.setWidth_eq, hshift]

/-- A word is its bits outside CH with CH put back. -/
theorem cmdWord_fieldCH (w : Word) : cmdWord (w &&& 0xFFFF00FF#32).toNat (fieldCH w) 0 0 = w := by
  have hch : ((w >>> 8) &&& 0xFF#32) <<< 8 = w &&& 0x0000FF00#32 := by
    rw [BitVec.shiftLeft_and_distrib, BitVec.shiftLeft_ushiftRight, BitVec.and_assoc]
    rfl
  have hapart : (w &&& 0xFFFF00FF#32) &&& (w &&& 0x0000FF00#32) = 0#32 := by
    calc (w &&& 0xFFFF00FF#32) &&& (w &&& 0x0000FF00#32)
        = (w &&& w) &&& (0xFFFF00FF#32 &&& 0x0000FF00#32) := by ac_rfl
      _ = (w &&& w) &&& 0#32 := congrArg (w &&& w &&& ·) (by decide)
      _ = 0#32 := BitVec.and_zero
  calc cmdWord (w &&& 0xFFFF00FF#32).toNat (fieldCH w) 0 0
      = (w &&& 0xFFFF00FF#32) + (w &&& 0x0000FF00#32) := by rw [fieldCH, cmdWord_eq_add, hch]
    _ = (w &&& 0xFFFF00FF#32) ||| (w &&& 0x0000FF00#32) := BitVec.add_eq_or_of_and_eq_zero _ _ hapart
    _ = w &&& (0xFFFF00FF#32 ||| 0x0000FF00#32) := (BitVec.and_or_distrib_left ..).symm
    _ = w &&& BitVec.allOnes 32 := congrArg (w &&& ·) (by decide)
    _ = w := BitVec.and_allOnes

/-- No bit of a word that a row matches is lost in the row's command. -/
theorem encode_of_row {r : OpRow} {w : Word} (hr : r ∈ opTable) (h : w &&& r.mask = r.pattern) :
    wellFormed (r.make (fieldCH w)) = true ∧ encode (r.make (fieldCH w)) = w := by
  rcases List.mem_append.1 hr with hr | hr
  · obtain ⟨hm, hmake⟩ := channelRows_encode r hr
    obtain ⟨henc, hwf⟩ := hmake (fieldCH w)
    rw [henc, hwf, ← h, hm]
    exact ⟨decide_eq_true (fieldCH_lt w), cmdWord_fieldCH w⟩
  · obtain ⟨hm, hmake⟩ := exactRows_encode r hr
    obtain ⟨henc, hwf⟩ := hmake (fieldCH w)
    rw [henc, ← h, hm]
    exact ⟨hwf, BitVec.and_allOnes⟩

/-! ### The statements -/

/-- Settles O6: the row of the command matches its word, and no other row does. -/
theorem decodeOfEncode : Obligations.DecodeOfEncode := by
  intro i hwf
  obtain ⟨r, hr, hsel, hmake⟩ := encode_matches_row i hwf
  rw [decode_of_row hr hsel, hmake]

/-- Settles O7: a word that decodes matches a row, and `encode_of_row` gives it back. -/
theorem encodeOfDecode : Obligations.EncodeOfDecode := by
  intro w i hd
  obtain ⟨r, hr, hsel, rfl⟩ := decode_row hd
  exact encode_of_row hr hsel

/-- Settles O8: `decode_row` and `decode_of_row` for the row, `opTable_disjoint` for its being the only one. -/
theorem legalWordsSelectOneRow : Obligations.LegalWordsSelectOneRow := by
  refine fun w => ⟨⟨fun ⟨i, hd⟩ => ?_, fun ⟨r, hr, hsel⟩ => ⟨_, decode_of_row hr hsel⟩⟩, fun r hr hsel =>
    ⟨fieldCH_eq_extract w ▸ decode_of_row hr hsel, fun r' hr' hsel' =>
      opTable_disjoint r' hr' r hr (rows_agree hsel' hsel)⟩⟩
  obtain ⟨r, hr, hsel, -⟩ := decode_row hd
  exact ⟨r, hr, hsel⟩

/-- Settles O10: the 18 legal words decode by evaluation; no row matches the five illegal ones. -/
theorem exampleWordsDecode : Obligations.ExampleWordsDecode := by
  refine ⟨by decide, by decide, by decide, by decide, by decide, by decide, by decide, by decide, by decide, by decide,
    by decide, by decide, by decide, by decide, by decide, by decide, by decide, by decide,
    fun w hw => ⟨_, decode_error_of_no_row ?_⟩⟩
  simp only [List.mem_cons, List.not_mem_nil, or_false] at hw
  rcases hw with rfl | rfl | rfl | rfl | rfl <;> decide +kernel

end Sys2Proof

/-! Commands that end with ERR_ILLEGAL, steps that are never refused, and the channel window (rules R57, R61, R62,
R64). -/

namespace Sys2Proof.Machine

/-! ### Illegal words and channels out of range (rules R61, R62) -/

/-- A word that no row matches ends with ERR_ILLEGAL (rule R61). -/
theorem runCommand_of_no_row {s : State} (h : ∀ r ∈ opTable, s.cmd &&& r.mask ≠ r.pattern) :
    runCommand s = .next (endCommand .errIllegal s) := by
  rw [runCommand, decode_error_of_no_row h]
  rfl

/-- A channel command looks at its channel before anything else (rules R62, R129). -/
theorem exec_channel {i : Instr} {ch : Nat} (h : i.channel = some ch) (s : State) :
    ∃ body, exec i s = onChannel ch s body := by
  cases i with
  | fsReset | fsConfigure | fsBind | fsShiftplan =>
    cases h
    unfold exec
    exact ⟨_, rfl⟩
  | dlPush | dlTap | kSingle | kDual =>
    cases h
    simp only [exec, execDlPush, execDlTap, execKSingle, execKDual, onActive]
    exact ⟨_, rfl⟩
  | processS16Any | processS16Even | processS24Any | processS24Even | processS32Any | processS32Even => cases h
  | fxRshift | fxSat16 | fxSat24 | fxSat32 => cases h

/-! ### No step is refused (rules R57, R61) -/

section
variable {s : State} {r : Refusal}

theorem exec_not_refused (i : Instr) : exec i s ≠ .refused r := by
  cases i with
  | fsReset ch => rw [exec, execFsReset]; exact onChannel_not_refused nofun
  | fsConfigure ch =>
    rw [exec, execFsConfigure]
    refine onChannel_not_refused ?_
    split
    · nofun
    · split
      · nofun
      · split <;> nofun
  | fsBind ch =>
    rw [exec, execFsBind]
    refine onChannel_not_refused ?_
    dsimp only
    split
    · nofun
    · split <;> nofun
  | fsShiftplan ch => rw [exec, execFsShiftplan]; exact onChannel_not_refused nofun
  | dlPush ch => rw [exec, execDlPush]; exact onActive_not_refused nofun
  | dlTap ch =>
    rw [exec, execDlTap]
    refine onActive_not_refused ?_
    split <;> nofun
  | kSingle ch => rw [exec, execKSingle]; exact onActive_not_refused nofun
  | kDual ch => rw [exec, execKDual]; exact onActive_not_refused nofun
  | processS16Any | processS16Even | processS24Any | processS24Even | processS32Any | processS32Even =>
    rw [exec_process rfl]
    exact processCore_not_refused _ _ s r
  | fxRshift | fxSat16 | fxSat24 | fxSat32 => nofun

theorem runCommand_not_refused : runCommand s ≠ .refused r := by
  rcases runCommand_cases s with ⟨i, -, he⟩ | ⟨e, -, he⟩ <;> rw [he]
  · exact exec_not_refused i
  · nofun

theorem slaveWrite_not_refused (w : Word) (place : SlavePlace) : slaveWrite w s place ≠ .refused r := by
  cases place with
  | cram i =>
    rw [slaveWrite]
    split <;> nofun
  | _ => nofun

theorem hostWrite_not_refused (a : BitVec 18) (w : Word) : hostWrite a w s ≠ .refused r := by
  cases hopen : portOpen s (slavePlace s.params a.toNat) with
  | true => rw [hostWrite_open w hopen]; exact slaveWrite_not_refused w _
  | false => rw [hostWrite_early w hopen]; nofun

theorem resetInFlight_not_refused : resetInFlight s ≠ .refused r := by
  unfold resetInFlight
  split
  · nofun
  · next hr => exact absurd hr runCommand_not_refused
  · nofun

theorem performOp_not_refused (op : HostOp) : performOp op s ≠ .refused r := by
  cases op with
  | write addr size w =>
    rw [performOp]
    split
    · exact hostWrite_not_refused addr w
    · nofun
  | reset =>
    rw [performOp]
    split
    · exact resetInFlight_not_refused
    · nofun
  | read | memStore | memLoad => rw [performOp]; split <;> nofun
  | wait | coherenceMissed => nofun

theorem endTurn_not_refused {wasBusy : Bool} {x : Result State} (hx : ∀ r, x ≠ .refused r) :
    endTurn wasBusy x ≠ .refused r := by
  cases x with
  | next t => nofun
  | fault v => nofun
  | refused r' => exact absurd rfl (hx r')

end

/-! ### The channel window (rules R23, R64) -/

theorem slavePlace_channel {p : Params} {c off : Nat} (hp : p.Valid) (hc : c < p.nchMax) (hoff : off < 0x20) :
    slavePlace p (0x100 + 0x20 * c + off) = .channel c off := by
  obtain ⟨-, -, -, -, -, -, hmax, -, -⟩ := hp
  have hindex : (0x100 + 0x20 * c + off - 0x100) / 0x20 = c := by omega
  have hbyte : (0x100 + 0x20 * c + off - 0x100) % 0x20 = off := by omega
  rw [slavePlace, if_neg (by omega), if_pos (by omega), if_pos (by omega), hindex, hbyte]

/-- A pattern read as a signed number and written as a word is sign-extended. -/
theorem trunc_sext {n : Nat} (p : BitVec n) : trunc 32 (sext n p) = p.signExtend 32 := by
  rw [sext, BitVec.setWidth_eq, trunc, BitVec.signExtend]

/-- The number rule R22 gives a lifecycle state. -/
theorem lifecycleCode_eq_of_mem {l : Lifecycle} {n : Nat}
    (h : (l, n) ∈ [(Lifecycle.uninit, 0), (.configured, 1), (.active, 2)]) : l.code = n := by
  cases l <;> simpa [Lifecycle.code, eq_comm] using h

/-- A channel window is eight words, each a field or 0 (rule R64). -/
theorem channelWord_of_mem {f : FilterState} {off : Nat} {w : Word}
    (h : (off, w) ∈ [(0x00, BitVec.ofNat 32 f.LC.code), (0x04, f.L ++ f.T), (0x08, f.S.signExtend 32),
      (0x0C, 0#16 ++ f.coefBase), (0x10, 0#16 ++ f.dlBase), (0x14, 0#16 ++ f.wp), (0x18, 0#32), (0x1C, 0#32)]) :
    channelWord f off = w ∧ off < 0x20 ∧ off % 4 = 0 := by
  have hhalf (p : Half) : p.setWidth 32 = 0#16 ++ p := BitVec.setWidth_eq_append (by decide)
  simp only [List.mem_cons, Prod.mk.injEq, List.not_mem_nil, or_false] at h
  rcases h with ⟨rfl, rfl⟩ | ⟨rfl, rfl⟩ | ⟨rfl, rfl⟩ | ⟨rfl, rfl⟩ | ⟨rfl, rfl⟩ | ⟨rfl, rfl⟩ | ⟨rfl, rfl⟩ | ⟨rfl, rfl⟩
  · exact ⟨rfl, by decide, rfl⟩
  · exact ⟨rfl, by decide, rfl⟩
  · exact ⟨trunc_sext f.S, by decide, rfl⟩
  · exact ⟨hhalf f.coefBase, by decide, rfl⟩
  · exact ⟨hhalf f.dlBase, by decide, rfl⟩
  · exact ⟨hhalf f.wp, by decide, rfl⟩
  · exact ⟨rfl, by decide, rfl⟩
  · exact ⟨rfl, by decide, rfl⟩

/-! ### The statements -/

/-- Settles O5: a step completes a command or performs an access, and neither is refused. -/
theorem stepIsNeverRefused : Obligations.StepIsNeverRefused := by
  intro s r
  by_cases h0 : s.phase = .running 0
  · rw [step_running_zero h0]
    exact runCommand_not_refused
  · cases hs : s.script with
    | nil => rw [step_script_nil h0 hs]; nofun
    | cons op rest =>
      rw [step_op h0 hs]
      exact endTurn_not_refused fun _ => performOp_not_refused op

/-- Settles O9: no row matches, so decoding answers an error; and a row that matched a word of rule R61 would have that
word's fields in its pattern. -/
theorem illegalWordsEndWithErrIllegal : Obligations.IllegalWordsEndWithErrIllegal := by
  refine ⟨fun s hp hno => (step_running_zero hp).trans (runCommand_of_no_row hno), fun w hw r hr hsel => ?_⟩
  obtain ⟨mOpc, mFmt, mFmtMode, mRsv, mCh⟩ := opTable_masks r hr
  obtain ⟨hopc, hrsv, hfmt, hch, hfmtMode⟩ := opTable_patterns r hr
  rw [field_eq_of_row hsel mOpc, field_eq_of_row hsel mRsv, field_eq_of_row hsel mFmt,
    field_eq_of_row hsel mFmtMode] at hw
  rcases hw with h | h | h | ⟨h, hge⟩ | ⟨h, hne⟩
  · exact h hopc
  · exact h hrsv
  · exact hfmt h
  · exact h ((field_eq_of_row hsel (mCh hge)).trans (hch hge))
  · exact h (hfmtMode hne)

/-- Settles O15: whatever the command would do, `onChannel` ends it first. -/
theorem channelOutOfRangeIsIllegal : Obligations.ChannelOutOfRangeIsIllegal := by
  intro s i ch hi hle
  obtain ⟨body, he⟩ := exec_channel hi s
  exact he.trans (onChannel_of_le hle body)

/-- Settles O50: the word is the place of its address, whose read gives the field and whose write is ignored. -/
theorem channelWindowReadsFields : Obligations.ChannelWindowReadsFields := by
  intro s a c off n w rest hp hidle hc haddr hlc
  have hplace (hoff : off < 0x20) : slavePlace s.params a.toNat = .channel c off :=
    haddr ▸ slavePlace_channel hp hc hoff
  refine ⟨fun hs hw => ?_, fun hs hoff hmod => ?_⟩
  · rw [← lifecycleCode_eq_of_mem hlc] at hw
    obtain ⟨hword, hoff, hmod⟩ := channelWord_of_mem hw
    exact step_idle_read (.channel c off) hidle hs (by omega) (hplace hoff) (by simp) hword
  · exact step_idle_write (.channel c off) hidle hs (by omega) (hplace hoff) rfl

end Sys2Proof.Machine

/-! Rounding and saturation, and the FX commands (rules R68 to R75). -/

namespace Sys2Proof.Machine

/-! ### roundedShift (rules R68, R69) -/

/-- Rule R69. -/
theorem roundedShift_neg (v : Int) (f t : Nat) : roundedShift (-v) f t = -roundedShift v f t := by
  rcases Nat.lt_or_ge t f with h | h
  · rw [roundedShift_narrow h, roundedShift_narrow h, Int.natAbs_neg]
    rcases lt_trichotomy v 0 with hv | rfl | hv
    · rw [if_pos (by omega), if_neg (by omega), neg_neg]
    · rw [neg_zero, ← roundedShift_narrow h, roundedShift_zero, neg_zero]
    · rw [if_neg (by omega), if_pos (by omega)]
  · rw [roundedShift_widen h, roundedShift_widen h, neg_mul]

/-- Narrowing a value that is not negative adds half a step and drops the fraction. -/
theorem roundedShift_narrow_of_nonneg {v : Int} {f t : Nat} (h : t < f) (hv : 0 ≤ v) :
    roundedShift v f t = (v + 2 ^ (f - t - 1)) / 2 ^ (f - t) := by
  rw [roundedShift_narrow h, if_pos hv]
  push_cast
  rw [abs_of_nonneg hv]

/-- The rounding error of a value that is not negative: at most half a step, and half a step only upwards. -/
theorem roundedShift_error_of_nonneg {v : Int} {f t : Nat} (h : t < f) (hv : 0 ≤ v) :
    -2 ^ (f - t) ≤ 2 * (v - roundedShift v f t * 2 ^ (f - t)) ∧
      2 * (v - roundedShift v f t * 2 ^ (f - t)) < 2 ^ (f - t) := by
  have hstep : (2 : Int) * 2 ^ (f - t - 1) = 2 ^ (f - t) := mul_pow_sub_one (by omega) 2
  have hpos : (0 : Int) < 2 ^ (f - t) := by positivity
  have hle := Int.ediv_mul_le (v + 2 ^ (f - t - 1)) hpos.ne'
  have hlt := Int.lt_ediv_add_one_mul_self (v + 2 ^ (f - t - 1)) hpos
  rw [← roundedShift_narrow_of_nonneg h hv] at hle hlt
  constructor <;> linarith

/-- Rule R68 for a value that is not negative. -/
theorem roundedShift_nearest_of_nonneg {v : Int} {f t : Nat} (h : t < f) (hv : 0 ≤ v) :
    2 * |v - roundedShift v f t * 2 ^ (f - t)| ≤ 2 ^ (f - t) ∧
      (2 * |v - roundedShift v f t * 2 ^ (f - t)| = 2 ^ (f - t) → |v| < |roundedShift v f t * 2 ^ (f - t)|) := by
  obtain ⟨hlo, hhi⟩ := roundedShift_error_of_nonneg h hv
  have hr : 0 ≤ roundedShift v f t * 2 ^ (f - t) := mul_nonneg (roundedShift_nonneg f t hv) (by positivity)
  refine ⟨by simpa only [abs_mul, abs_two] using abs_le.2 ⟨hlo, hhi.le⟩, fun htie => ?_⟩
  have hup : v - roundedShift v f t * 2 ^ (f - t) < 0 := by
    by_contra hge
    rw [abs_of_nonneg (not_lt.1 hge)] at htie
    exact hhi.ne htie
  rw [abs_of_nonneg hv, abs_of_nonneg hr]
  exact sub_neg.1 hup

/-- Without widening the magnitude does not grow. -/
theorem natAbs_roundedShift_le {v : Int} {f t : Nat} (h : t ≤ f) : (roundedShift v f t).natAbs ≤ v.natAbs := by
  rcases Nat.lt_or_eq_of_le h with h | rfl
  · have hhalf : 2 ^ (f - t - 1) < 2 ^ (f - t) := Nat.pow_lt_pow_right (by omega) (by omega)
    rw [natAbs_roundedShift_narrow h, ← Nat.lt_succ_iff, Nat.div_lt_iff_lt_mul (by positivity), Nat.succ_mul]
    exact Nat.add_lt_add_of_le_of_lt (Nat.le_mul_of_pos_right _ (by positivity)) hhalf
  · simp [roundedShift_widen]

/-- Without widening a signed 64-bit value gives a signed 64-bit value. -/
theorem roundedShift_range {v : Int} {f t : Nat} (h : t ≤ f) (hlo : -2 ^ 63 ≤ v) (hhi : v < 2 ^ 63) :
    -2 ^ 63 ≤ roundedShift v f t ∧ roundedShift v f t < 2 ^ 63 := by
  have habs := natAbs_roundedShift_le (v := v) h
  rcases le_total 0 v with hv | hv
  · have := roundedShift_nonneg f t hv
    omega
  · have := roundedShift_nonpos f t hv
    omega

/-! ### Saturation (rule R70) -/

theorem sat_eq_max_min (N : Nat) (v : Int) : sat N v = max (satLo N) (min (satHi N) v) := by
  have := satLo_le_satHi N
  unfold sat
  split
  · omega
  · split <;> omega

/-- A value saturated to at most 64 bits is a signed 64-bit value. -/
theorem sat_range {N : Nat} (h : N ≤ 64) (v : Int) : -2 ^ 63 ≤ sat N v ∧ sat N v < 2 ^ 63 := by
  have hpow : (2 : Int) ^ (N - 1) ≤ 2 ^ 63 := pow_le_pow_right₀ (by decide) (by omega)
  have hlo := satLo_le_sat N v
  have hhi := sat_le_satHi N v
  unfold satLo at hlo
  unfold satHi at hhi
  omega

/-! ### A 64-bit result (rule R60) -/

theorem opFromFrac_eq (s : State) : opFromFrac s = (s.arg2.extractLsb' 0 6).toNat := by
  rw [opFromFrac, zext, BitVec.setWidth_eq_extractLsb' (by decide)]

theorem opToFrac_eq (s : State) : opToFrac s = (s.arg3.extractLsb' 0 6).toNat := by
  rw [opToFrac, zext, BitVec.setWidth_eq_extractLsb' (by decide)]

theorem setRes64_pattern (r : Int) (s : State) : (setRes64 r s).res1 ++ (setRes64 r s).res0 = BitVec.ofInt 64 r := by
  rw [setRes64, setResults_res0, setResults_res1, trunc]
  exact (BitVec.extractLsb'_append_extractLsb'_eq_extractLsb' rfl).trans BitVec.extractLsb'_eq_self

theorem setRes64_toInt {r : Int} (s : State) (hlo : -2 ^ 63 ≤ r) (hhi : r < 2 ^ 63) :
    ((setRes64 r s).res1 ++ (setRes64 r s).res0).toInt = r := by
  rw [setRes64_pattern]
  exact BitVec.toInt_ofInt_eq_self (by decide) hlo hhi

/-- A command that only saturates its 64-bit operand completes with that value in RES1:RES0 (rules R73 to R75). -/
theorem fxSat_completes {i : Instr} {N : Nat} {s : State} (hN : N ≤ 64)
    (h : exec i s = complete (setRes64 (sat N (opValue64 s)) s)) :
    ∃ t, exec i s = .next t ∧ (t.res1 ++ t.res0).toInt = sat N (s.arg1 ++ s.arg0).toInt ∧
      t = { s with res0 := t.res0, res1 := t.res1, err := .ok, phase := .unseen } := by
  obtain ⟨hlo, hhi⟩ := sat_range hN (opValue64 s)
  refine ⟨_, h, ?_, rfl⟩
  rw [← opValue64_eq]
  exact setRes64_toInt s hlo hhi

/-! ### The statements -/

/-- Settles O17: symmetry carries the error bound of values that are not negative to the negative ones. -/
theorem roundedShiftIsNearest : Obligations.RoundedShiftIsNearest := by
  refine fun v f t => ⟨roundedShift_widen, fun h => ?_⟩
  rcases le_total 0 v with hv | hv
  · exact roundedShift_nearest_of_nonneg h hv
  · have hnear := roundedShift_nearest_of_nonneg h (neg_nonneg.2 hv)
    rwa [roundedShift_neg, neg_mul, ← neg_sub', abs_neg, abs_neg, abs_neg] at hnear

/-- Settles O18: `roundedShift_neg`; the examples are evaluated. -/
theorem roundedShiftIsSymmetric : Obligations.RoundedShiftIsSymmetric :=
  ⟨roundedShift_neg, by decide, by decide⟩

/-- Settles O19: the bounds of `sat_eq_max_min` are the numbers. -/
theorem saturationClampsToRange : Obligations.SaturationClampsToRange :=
  fun v => ⟨sat_eq_max_min 16 v, sat_eq_max_min 24 v, sat_eq_max_min 32 v⟩

/-- Settles O20: the result is written modulo 2^64, and without widening it is a signed 64-bit value. -/
theorem fxRshiftResult : Obligations.FxRshiftResult := by
  refine ⟨by decide, fun s => ⟨_, rfl, ?_, fun hle => ?_, rfl⟩⟩
  · rw [← opValue64_eq, ← opFromFrac_eq, ← opToFrac_eq]
    exact setRes64_pattern _ s
  · obtain ⟨hlo, hhi⟩ := roundedShift_range hle (s.arg1 ++ s.arg0).le_toInt (s.arg1 ++ s.arg0).toInt_lt
    rw [← opValue64_eq, ← opFromFrac_eq, ← opToFrac_eq] at hlo hhi ⊢
    exact setRes64_toInt s hlo hhi

/-- Settles O21: `fxSat_completes` at the three widths, with rule R70's numbers. -/
theorem fxSaturateResults : Obligations.FxSaturateResults := by
  refine ⟨by decide, by decide, by decide, fun s => ?_⟩
  obtain ⟨h16, h24, h32⟩ := saturationClampsToRange (s.arg1 ++ s.arg0).toInt
  rw [← h16, ← h24, ← h32]
  exact ⟨fxSat_completes (by decide) rfl, fxSat_completes (by decide) rfl, fxSat_completes (by decide) rfl⟩

end Sys2Proof.Machine

/-! The delay line at the slave port (rules R77, R78, R84, R85), the commands on a channel that is not ACTIVE (R104, R106,
R107), and PROCESS as the FIR equation over a walk of the buffer (R99, R101, R109 to R112). -/

namespace Sys2Proof.Machine

/-! ### The DL commands, and the channels they stop at -/

section
variable {s : State} {c k : Nat}

/-- The cursor of a bound channel names a slot of DLRAM. -/
theorem Bound.cursorSlot_lt (h : Bound s c) : (s.chan c).dlBase.toNat + (s.chan c).wp.toNat < s.dlram.length :=
  Nat.lt_of_lt_of_le (Nat.add_lt_add_left h.cursor _) h.region

theorem Bound.length_pos (h : Bound s c) : 0 < (s.chan c).L.toNat := Nat.zero_lt_of_lt h.cursor

/-- DL.PUSH on an ACTIVE channel is the push of ARG0 (rule R84). -/
theorem exec_dlPush (hc : c < s.params.nchMax) (ha : (s.chan c).LC = .active) :
    exec (.dlPush c) s = .next (endCommand .ok (dlPush c s.arg0 s)) := by
  rw [exec, execDlPush, onActive_of_active hc ha]
  rfl

/-- The DL and K commands look at their channel's lifecycle before anything else (rules R84, R85, R106, R107). -/
theorem exec_onActive {i : Instr} (h : i ∈ [Instr.dlPush c, .dlTap c, .kSingle c, .kDual c]) :
    ∃ body, exec i s = onActive c s body := by
  simp only [List.mem_cons, List.not_mem_nil, or_false] at h
  rcases h with rfl | rfl | rfl | rfl
  · rw [exec, execDlPush]; exact ⟨_, rfl⟩
  · rw [exec, execDlTap]; exact ⟨_, rfl⟩
  · rw [exec, execKSingle]; exact ⟨_, rfl⟩
  · rw [exec, execKDual]; exact ⟨_, rfl⟩

theorem exec_of_not_active {i : Instr} (h : i ∈ [Instr.dlPush c, .dlTap c, .kSingle c, .kDual c])
    (hc : c < s.params.nchMax) (hn : (s.chan c).LC ≠ .active) : exec i s = .fault .notActive := by
  obtain ⟨body, he⟩ := exec_onActive h
  exact he.trans (onActive_of_not_active hc hn body)

/-- A sample of the window, written as a pattern, is the slot it was read from (rule R78). -/
theorem trunc_tap : trunc 32 (tap s c k) = s.slot (tapSlot (s.chan c) k) := by
  rw [tap, sext, BitVec.setWidth_eq, trunc_toInt]

@[simp] theorem tap_endCommand (e : ErrCode) : tap (endCommand e s) c k = tap s c k := rfl

end

/-! ### The FIR equation -/

/-- The output mapping of rule R101, with the shifts of rule R92 written out. -/
theorem outputMap_sext (S : BitVec 8) (acc : Int) :
    outputMap (sext 8 S) acc = sat 32 (roundedShift (acc * 2 ^ (-S.toInt).toNat) (46 + S.toInt.toNat) 31) := by
  have hmax : ∀ v : Int, (max 0 v).toNat = v.toNat := fun v => by omega
  rw [outputMap, shiftPlan, sext, BitVec.setWidth_eq, hmax, hmax]
  rfl

/-- The result of a frame is the sum of rule R99 over the samples of the buffer and the history. -/
theorem firResult_eq (fmt : Format) (s : State) (c f : Nat) :
    firResult fmt s.arg0.toNat s.arg3.toNat s c f = sat 32 (roundedShift
      ((∑ k ∈ Finset.range (s.chan c).T.toNat,
          (s.coef ((s.chan c).coefBase.toNat + k)).toInt * pastSample fmt s c f k) * 2 ^ (-(s.chan c).S.toInt).toNat)
      (46 + (s.chan c).S.toInt.toNat) 31) := by
  rw [firResult, outputMap_sext, sumBelow_eq_sum]
  simp only [coefOf, sext, BitVec.setWidth_eq]
  rfl

section
variable {i : Instr} {fmt : Format} {mode : Mode} {s : State}

/-- A PROCESS command whose preconditions hold completes, after a walk of all its frames and channels. -/
theorem exec_process_walked (hp : i.process = some (fmt, mode)) (hi : s.Inv) (h2 : s.arg2 ≠ 0) (h3 : s.arg3 ≠ 0)
    (hr : ProcessReady fmt mode s) :
    ∃ u, exec i s = .next (endCommand .ok u) ∧
      Walked fmt s.arg0.toNat s.arg1.toNat s.arg3.toNat s.arg2.toNat (· < s.arg3.toNat) s u := by
  rw [exec_process hp]
  rcases processCore_cases fmt mode s with ⟨hz, -⟩ | ⟨-, -, v, hv, -⟩ | ⟨-, -, -, he⟩
  · exact absurd hz (not_or.2 ⟨h2, h3⟩)
  · exact absurd hv (hr.not_broken v)
  · exact ⟨_, he, walked_bank (hr.walkReady hi)⟩

/-- After the walk a channel's region holds its last L samples, newest first (rules R78, R80). -/
theorem Walked.tap_eq_pastSample {dst F c k : Nat} {D : Nat → Prop} {t : State}
    (h : Walked fmt s.arg0.toNat dst s.arg3.toNat F D s t) (hF : 0 < F) (hc : D c) (hk : k < (s.chan c).L.toNat) :
    tap t c k = pastSample fmt s c (F - 1) k := by
  rw [h.window c hc k hk, pastSample]
  by_cases hkF : k < F
  · rw [if_pos hkF, if_pos (by omega)]
    rfl
  · rw [if_neg hkF, if_neg (by omega), show k - (F - 1) - 1 = k - F by omega]

/-- A byte outside the destination belongs to no element that the walk writes (rule R111). -/
theorem Walked.memByte_outside {src dst N F a : Nat} {t : State} (h : Walked fmt src dst N F (· < N) s t)
    (ha : a < dst ∨ dst + F * N * elemSize fmt ≤ a) : memByte t.mem a = memByte s.mem a := by
  refine h.byteOther a fun c hc g hg => ?_
  have := elem_in_buffer fmt dst hg hc
  omega

end

/-! ### The statements -/

/-- Settles O40: the walk fixes every destination element and every position of the ring; `firResult` is the equation. -/
theorem processComputesFirEquation : Obligations.ProcessComputesFirEquation := by
  intro s t i fmt mode hp hi h2 h3 hr he c hc
  obtain ⟨u, hu, hw⟩ := exec_process_walked hp hi h2 h3 hr
  cases hu.symm.trans he
  have hF : 0 < s.arg2.toNat := Nat.pos_of_ne_zero fun h => h2 (BitVec.eq_of_toNat_eq h)
  refine ⟨fun f hf => ?_, fun k hk => hw.tap_eq_pastSample hF hc hk⟩
  rw [← firResult_eq]
  exact hw.result c hc f hf

/-- Settles O39: the frame of the walk. -/
theorem processCompletes : Obligations.ProcessCompletes := by
  intro s i fmt mode hp hi h2 h3 hr
  obtain ⟨u, hu, hw⟩ := exec_process_walked hp hi h2 h3 hr
  refine ⟨_, hu, fun a ha => hw.memByte_outside ha, fun c hc => hw.chanOther c (Nat.not_lt.2 hc),
    fun c hc => ⟨hw.chanSelf c hc, hw.cursor c hc⟩,
    fun j hj => hw.slot_unpushed (fun c hc => hi.bound (hr.p2 c hc)) hj, ?_⟩
  conv_lhs => rw [hw.frame]
  rfl

/-- Settles O29: what `dlPush` writes and what it leaves alone. -/
theorem dlPushStoresAtCursor : Obligations.DlPushStoresAtCursor := by
  intro s ch hi hc ha
  have hb := hi.bound ha
  exact ⟨_, exec_dlPush hc ha, dlPush_slot_same s _ hb.cursorSlot_lt, fun _ hj => dlPush_slot_other s _ hj,
    dlPush_chan s ch ch _, dlPush_wp_toNat s _ hb.inBank hb.length_pos, fun _ hd => dlPush_chan_other s _ hd.symm, rfl⟩

/-- Settles O30: RES0 takes the pattern of `tapSlot`. -/
theorem dlTapReadsWindow : Obligations.DlTapReadsWindow := by
  intro s ch hc ha hk
  rcases dlTap_cases s ch hc ha with ⟨hle, -⟩ | ⟨-, he⟩
  · exact absurd hk (Nat.not_lt.2 hle)
  · exact ⟨_, he, trunc_tap, rfl⟩

/-- Settles O31: the two laws of the window under a push, at positions inside the region. -/
theorem pushMovesTapWindow : Obligations.PushMovesTapWindow := by
  intro s t ch hi ha he hc
  have hb := hi.bound ha
  cases (exec_dlPush hc ha).symm.trans he
  simp only [tap_endCommand]
  refine ⟨?_, fun k hk => tap_dlPush_succ hb _ (hk.trans hb.window)⟩
  rw [tap_dlPush_zero hb, sext, BitVec.setWidth_eq]

/-- Settles O32: `onActive` looks at the lifecycle before the command does anything, and DL.TAP then at its index. -/
theorem channelPreconditionsFault : Obligations.ChannelPreconditionsFault := by
  intro s ch hc
  refine ⟨fun hn => ⟨exec_of_not_active (by simp) hc hn, exec_of_not_active (by simp) hc hn,
    exec_of_not_active (by simp) hc hn, exec_of_not_active (by simp) hc hn⟩, fun ha hle => ?_⟩
  rcases dlTap_cases s ch hc ha with ⟨-, he⟩ | ⟨hlt, -⟩
  · exact he
  · exact absurd hle (Nat.not_le.2 hlt)

end Sys2Proof.Machine

/-! The lifecycle commands FS.RESET, FS.CONFIGURE and FS.BIND, the report FS.SHIFTPLAN (rules R95 to R98), and which
transitions of the lifecycle a command can make (rules R86, R87). -/

namespace Sys2Proof.Machine

/-! ### What a number or a FilterState is once it is stored -/

/-- A number that fits is kept by the pattern that stores it. -/
theorem ofNat_toNat_of_lt {w n : Nat} (h : n < 2 ^ w) : (BitVec.ofNat w n).toNat = n := by
  rw [BitVec.toNat_ofNat, Nat.mod_eq_of_lt h]

/-- The word that holds one byte above another: FS.SHIFTPLAN's RES0 (rule R98). -/
theorem twoBytes_toNat {hi lo : Nat} (hhi : hi < 2 ^ 8) (hlo : lo < 2 ^ 8) :
    (BitVec.ofNat 32 hi <<< 8 ||| BitVec.ofNat 32 lo).toNat = hi * 2 ^ 8 + lo := by
  have hshift : (BitVec.ofNat 32 hi <<< 8).toNat = hi <<< 8 := by
    rw [BitVec.toNat_shiftLeft, ofNat_toNat_of_lt (by omega), Nat.shiftLeft_eq, Nat.mod_eq_of_lt (by omega)]
  rw [BitVec.toNat_or, hshift, ofNat_toNat_of_lt (by omega), ← Nat.shiftLeft_add_eq_or_of_lt hlo, Nat.shiftLeft_eq]

/-- Writing one FilterState changes that of its channel alone, and nothing outside the bank. -/
theorem chan_setChan_cases (s : State) (ch c : Nat) (f : FilterState) :
    (s.setChan ch f).chan c = s.chan c ∨ (c = ch ∧ (s.setChan ch f).chan c = f) := by
  by_cases hc : ch = c
  · subst hc
    by_cases hlt : ch < s.fs.length
    · exact .inr ⟨rfl, chan_setChan_same s f hlt⟩
    · have hle := Nat.le_of_not_lt hlt
      exact .inl (by rw [chan_uninit_of_le s hle, chan_uninit_of_le _ (by simpa using hle)])
  · exact .inl (chan_setChan_other s f hc)

theorem State.Inv.chan_setChan {s : State} (hi : s.Inv) {ch : Nat} (hc : ch < s.params.nchMax) (f : FilterState) :
    (s.setChan ch f).chan ch = f :=
  chan_setChan_same s f (hi.bank ▸ hc)

/-- A moved cursor leaves the lifecycle as it is. -/
theorem OnlyCursor.lc_eq {f g : FilterState} (h : OnlyCursor f g) : g.LC = f.LC := by rw [h]

/-- FS.CONFIGURE's S is ARG1[7:0]. -/
theorem opS_eq (s : State) : opS s = s.arg1.extractLsb' 0 8 := BitVec.setWidth_eq_extractLsb' (by decide)

/-! ### What the FS commands do on a channel of the bank -/

section
variable {s : State} {ch : Nat}

/-- FS.RESET completes in every lifecycle state (rule R95). -/
theorem exec_fsReset (hc : ch < s.params.nchMax) :
    exec (.fsReset ch) s = .next (endCommand .ok (s.setChan ch .uninit)) := by
  rw [exec, execFsReset, onChannel_of_lt hc]
  rfl

/-- The success case of FS.CONFIGURE (rule R96). -/
theorem exec_fsConfigure (hc : ch < s.params.nchMax) (hu : (s.chan ch).LC = .uninit)
    (hT : 4 ≤ s.arg0.toNat ∧ s.arg0.toNat ≤ s.params.maxLength ∧ s.arg0.toNat % 4 = 0)
    (hbase : s.arg2.toNat + s.arg0.toNat ≤ s.params.coefRamWords) :
    exec (.fsConfigure ch) s = .next (endCommand .ok (setRes0 (BitVec.ofNat 32 ((s.arg0.toNat + 2) * 4))
      (s.setChan ch (configuredChan (s.chan ch) s.arg0.toNat s.arg2.toNat (opS s))))) := by
  rcases fsConfigure_cases s ch hc with ⟨hn, -⟩ | ⟨-, hn, -⟩ | ⟨-, -, hlt, -⟩ | ⟨-, -, -, he⟩
  · exact absurd hu hn
  · exact absurd hT hn
  · exact absurd hbase (Nat.not_le.2 hlt)
  · exact he

/-- The success case of FS.BIND (rule R97). -/
theorem exec_fsBind (hc : ch < s.params.nchMax) (hconf : (s.chan ch).LC = .configured)
    (hfits : s.cursor.toNat + (s.chan ch).L.toNat ≤ s.params.dlRamSlots) :
    exec (.fsBind ch) s = .next (endCommand .ok { s.setChan ch (boundChan (s.chan ch) s.cursor) with
      cursor := BitVec.ofNat 16 (s.cursor.toNat + (s.chan ch).L.toNat) }) := by
  rcases fsBind_cases s ch hc with ⟨hn, -⟩ | ⟨-, hlt, -⟩ | ⟨-, -, he⟩
  · exact absurd hconf hn
  · exact absurd hfits (Nat.not_le.2 hlt)
  · exact he

end

/-! ### The statements -/

/-- Settles O22: the bank is written at one channel, and nothing else is. -/
theorem fsResetClearsChannel : Obligations.FsResetClearsChannel := by
  intro s ch hi hc
  exact ⟨_, exec_fsReset hc, hi.chan_setChan hc _, fun _ hd => chan_setChan_other s _ hd.symm, rfl⟩

/-- Settles O23: the numbers fit their fields by rule R8, and an UNINIT channel has 0 in the fields that are not written. -/
theorem fsConfigureSucceeds : Obligations.FsConfigureSucceeds := by
  intro s ch hi hc hu h4 hmax hmod hbase
  obtain ⟨-, -, -, -, hlen, -, -, hcram, -⟩ := hi.params
  refine ⟨_, exec_fsConfigure hc hu ⟨h4, hmax, hmod⟩ hbase, ?_⟩
  simp only [chan_endCommand, chan_setRes0, hi.chan_setChan hc, (hi.chan hc).1 hu]
  exact ⟨rfl, ofNat_toNat_of_lt (by omega), ofNat_toNat_of_lt (by omega), opS_eq s,
    ofNat_toNat_of_lt (by omega), rfl, rfl, ofNat_toNat_of_lt (by omega), fun _ hd => chan_setChan_other s _ hd.symm, rfl⟩

/-- Settles O24: the four outcomes of FS.CONFIGURE exclude each other. -/
theorem fsConfigureErrorsInOrder : Obligations.FsConfigureErrorsInOrder := by
  intro s ch hc
  rcases fsConfigure_cases s ch hc with ⟨hn, he⟩ | ⟨hu, hT, he⟩ | ⟨hu, hT, hlt, he⟩ | ⟨hu, hT, hle, -⟩
  · exact ⟨fun _ => he, fun hu => absurd hu hn, fun hu => absurd hu hn⟩
  · exact ⟨fun hn => absurd hu hn, fun _ _ => he, fun _ h4 hmax hmod => absurd ⟨h4, hmax, hmod⟩ hT⟩
  · exact ⟨fun hn => absurd hu hn, fun _ hbad => by omega, fun _ _ _ _ _ => he⟩
  · exact ⟨fun hn => absurd hu hn, fun _ hbad => by omega, fun _ _ _ _ hlt => absurd hle (Nat.not_le.2 hlt)⟩

/-- Settles O25: the end of the region is at most DL_RAM_SLOTS, so CURSOR holds it (rule R8). -/
theorem fsBindAttachesRegion : Obligations.FsBindAttachesRegion := by
  intro s ch hi hc hconf hfits
  obtain ⟨-, -, -, -, -, -, -, -, hslots⟩ := hi.params
  exact ⟨_, exec_fsBind hc hconf hfits, hi.chan_setChan hc _, ofNat_toNat_of_lt (by omega),
    fun _ hd => chan_setChan_other s _ hd.symm, rfl⟩

/-- Settles O26: the three outcomes of FS.BIND exclude each other. -/
theorem fsBindErrorsInOrder : Obligations.FsBindErrorsInOrder := by
  intro s ch hc
  rcases fsBind_cases s ch hc with ⟨hn, he⟩ | ⟨hconf, -, he⟩ | ⟨hconf, hle, -⟩
  · exact ⟨fun _ => he, fun hconf => absurd hconf hn⟩
  · exact ⟨fun hn => absurd hconf hn, fun _ _ => he⟩
  · exact ⟨fun hn => absurd hconf hn, fun _ hlt => absurd hle (Nat.not_le.2 hlt)⟩

/-- Settles O27: both shifts fit a byte, because S has 8 bits, and RES0 is the word of the two bytes. -/
theorem fsShiftplanReportsPlan : Obligations.FsShiftplanReportsPlan := by
  intro s ch hc
  have hlo := BitVec.le_toInt (s.chan ch).S
  have hhi := BitVec.toInt_lt (x := (s.chan ch).S)
  have hword := twoBytes_toNat (hi := (max 0 (s.chan ch).S.toInt).toNat) (lo := (max 0 (-(s.chan ch).S.toInt)).toNat)
    (by omega) (by omega)
  refine ⟨_, fsShiftplan_eq s ch hc, ?_, ?_, BitVec.eq_of_toNat_eq ?_, rfl⟩ <;>
    simp only [endCommand_res0, setRes0_res0, BitVec.extractLsb'_toNat, Nat.shiftRight_eq_div_pow, hword]
  · omega
  · omega
  · show _ = 0
    omega

/-- Settles O28: FS.RESET, FS.CONFIGURE and FS.BIND write the FilterState of their channel, from the lifecycle state each
asks for; every other command changes a cursor at most. -/
theorem lifecycleTransitions : Obligations.LifecycleTransitions := by
  intro s t i c h
  cases exec_done h with
  | fsReset _ ch _ =>
    rcases chan_setChan_cases s ch c .uninit with he | ⟨rfl, he⟩
    · exact .inl (congrArg _ he)
    · exact .inr (.inl ⟨congrArg _ he, rfl⟩)
  | fsConfigure _ ch _ hu _ _ _ _ =>
    rcases chan_setChan_cases s ch c (configuredChan (s.chan ch) s.arg0.toNat s.arg2.toNat (opS s)) with he | ⟨rfl, he⟩
    · exact .inl (congrArg _ he)
    · exact .inr (.inr (.inl ⟨hu, congrArg _ he, rfl⟩))
  | fsBind _ ch _ hconf _ =>
    rcases chan_setChan_cases s ch c (boundChan (s.chan ch) s.cursor) with he | ⟨rfl, he⟩
    · exact .inl (congrArg _ he)
    · exact .inr (.inr (.inr ⟨hconf, congrArg _ he, rfl⟩))
  | dlPush | kSingle | kDual => exact .inl ((exec_done h).onlyCursor (by simp) c).lc_eq
  | process _ fmt mode _ u _ _ _ _ hu => exact .inl (OnlyCursor.lc_eq (hu ▸ processBank_chan fmt mode _ _ _ _ s c))
  | _ => exact .inl rfl

end Sys2Proof.Machine

/-! The kernel at the slave port: K.SINGLE and K.DUAL on an ACTIVE channel, the accumulator, and the consequences that rule
R105 names (rules R99 to R107). -/

namespace Sys2Proof.Machine

/-! ### The accumulator and the output mapping -/

section
variable {s : State} {c : Nat}

/-- Rule R99's sum, over the patterns in CRAM. -/
theorem accumulate_eq_sum (s : State) (c : Nat) :
    accumulate s c =
      ∑ k ∈ Finset.range (s.chan c).T.toNat, (s.coef ((s.chan c).coefBase.toNat + k)).toInt * tap s c k := by
  rw [accumulate, sumBelow_eq_sum]
  simp only [coefOf, sext, BitVec.setWidth_eq]

/-- The sum after a push, seen from before it: the new sample, then the old window one position further (rule R78). -/
theorem accumulate_dlPush (h : Bound s c) (p : Word) :
    accumulate (dlPush c p s) c =
      ∑ k ∈ Finset.range (s.chan c).T.toNat,
        (s.coef ((s.chan c).coefBase.toNat + k)).toInt * (if k = 0 then p.toInt else tap s c (k - 1)) := by
  rw [accumulate_eq_sum, dlPush_chan_T, dlPush_chan_coefBase]
  refine Finset.sum_congr rfl fun k hk => ?_
  have hkL : k < (s.chan c).L.toNat := (Finset.mem_range.1 hk).trans h.window
  rw [dlPush_coef]
  cases k with
  | zero => rw [tap_dlPush_zero h, sext, BitVec.setWidth_eq, if_pos rfl]
  | succ k => rw [tap_dlPush_succ h p hkL, if_neg (Nat.succ_ne_zero k), Nat.add_sub_cancel]

/-- All-zero coefficients give the sum 0, whatever the window holds (rule R105 (a)). -/
theorem accumulate_of_coef_zero
    (h : ∀ k, k < (s.chan c).T.toNat → s.coef ((s.chan c).coefBase.toNat + k) = 0) : accumulate s c = 0 := by
  rw [accumulate_eq_sum]
  refine Finset.sum_eq_zero fun k hk => ?_
  rw [h k (Finset.mem_range.1 hk)]
  exact zero_mul _

/-- With coefficient 0 alone nonzero, the sum after a push is its product with the new sample (rule R105 (b)). -/
theorem accumulate_dlPush_of_coef_tail_zero (h : Bound s c) (p : Word) (hT : 0 < (s.chan c).T.toNat)
    (htail : ∀ k, 0 < k → k < (s.chan c).T.toNat → s.coef ((s.chan c).coefBase.toNat + k) = 0) :
    accumulate (dlPush c p s) c = (s.coef (s.chan c).coefBase.toNat).toInt * p.toInt := by
  rw [accumulate_dlPush h, Finset.sum_eq_single_of_mem 0 (Finset.mem_range.2 hT)]
  · rw [if_pos rfl, Nat.add_zero]
  · intro k hk hne
    rw [htail k (Nat.pos_of_ne_zero hne) (Finset.mem_range.1 hk)]
    exact zero_mul _

/-- Every product has magnitude at most 2^46, so the sum has at most T·2^46 (rule R100). -/
theorem abs_accumulate_le (s : State) (c : Nat) : |accumulate s c| ≤ (s.chan c).T.toNat * 2 ^ 46 :=
  abs_sumBelow_le fun k _ => abs_product_le s c k

/-- S = −1 undoes the coefficient 0x4000 exactly: x·2^14·2 is x with 46 fractional bits (rules R101, R105 (b)). -/
theorem outputMap_half {x : Int} (hlo : -2 ^ 31 ≤ x) (hhi : x < 2 ^ 31) : outputMap (-1) (2 ^ 14 * x) = x := by
  have hplan : outputMap (-1) (2 ^ 14 * x) = sat 32 (roundedShift (2 ^ 14 * x * 2 ^ 1) 46 31) := rfl
  have hshift : 2 ^ 14 * x * 2 ^ 1 = x * 2 ^ (46 - 31) := by ring
  rw [hplan, hshift, roundedShift_exact x (by decide)]
  exact sat_of_mem hlo (Int.le_sub_one_of_lt hhi)

end

/-! ### The K commands on an ACTIVE channel -/

section
variable {s : State} {ch : Nat}

/-- A kernel step on a sample given as a pattern (rule R102). -/
theorem kernelStep_toInt (c : Nat) (p : Word) (s : State) :
    (kernelStep c p.toInt s).1 = kernelOutput (dlPush c p s) c := by
  rw [kernelStep, trunc_toInt]

/-- K.SINGLE pushes ARG0 and puts the kernel's result into RES0 (rule R106). -/
theorem exec_kSingle (hc : ch < s.params.nchMax) (ha : (s.chan ch).LC = .active) :
    exec (.kSingle ch) s =
      .next (endCommand .ok (setRes0 (trunc 32 (kernelOutput (dlPush ch s.arg0 s) ch)) (dlPush ch s.arg0 s))) := by
  rw [exec, kSingle_eq hc ha, kernelStep_toInt]

/-- K.DUAL pushes ARG0, then ARG1, and puts the kernel's result after each push into RES0 and RES1 (rules R103, R107). -/
theorem exec_kDual (hc : ch < s.params.nchMax) (ha : (s.chan ch).LC = .active) :
    exec (.kDual ch) s = .next (endCommand .ok (setResults (trunc 32 (kernelOutput (dlPush ch s.arg0 s) ch))
      (trunc 32 (kernelOutput (dlPush ch s.arg1 (dlPush ch s.arg0 s)) ch)) (dlPush ch s.arg1 (dlPush ch s.arg0 s)))) := by
  rw [exec, kDual_eq hc ha, kernelStep_toInt, kernelStep_toInt]

/-- The kernel's result depends on the bank and the two RAMs alone, not on the registers (rules R99, R101). -/
theorem kernelOutput_of_memories_eq {s t : State} {c : Nat} (hfs : t.fs = s.fs) (hcram : t.cram = s.cram)
    (hdlram : t.dlram = s.dlram) : kernelOutput t c = kernelOutput s c := by
  have hchan : t.chan c = s.chan c := by rw [State.chan, State.chan, hfs]
  refine kernelOutput_congr (by rw [hchan]) (by rw [hchan]) (fun k _ => ?_) fun k _ => ?_
  · rw [coefOf, coefOf, hchan, State.coef, State.coef, hcram]
  · rw [tap, tap, hchan, State.slot, State.slot, hdlram]

/-- K.SINGLE reads no register but ARG0: in any state u with the bank and RAMs of s it gives the result, the DLRAM and the
cursors of the push of u's ARG0 in s (rules R99, R106). -/
theorem exec_kSingle_of_memories_eq {s u : State} {ch : Nat} (hparams : u.params = s.params) (hfs : u.fs = s.fs)
    (hcram : u.cram = s.cram) (hdlram : u.dlram = s.dlram) (hc : ch < s.params.nchMax) (ha : (s.chan ch).LC = .active) :
    ∃ t, exec (.kSingle ch) u = .next t ∧ t.res0 = trunc 32 (kernelOutput (dlPush ch u.arg0 s) ch) ∧
      t.dlram = (dlPush ch u.arg0 s).dlram ∧ t.fs = (dlPush ch u.arg0 s).fs := by
  have hchan : u.chan ch = s.chan ch := by rw [State.chan, State.chan, hfs]
  have hpushFs : (dlPush ch u.arg0 u).fs = (dlPush ch u.arg0 s).fs := by rw [dlPush_fs, dlPush_fs, hchan, hfs]
  have hpushDlram : (dlPush ch u.arg0 u).dlram = (dlPush ch u.arg0 s).dlram := by
    rw [dlPush_dlram, dlPush_dlram, hchan, hdlram]
  exact ⟨_, exec_kSingle (hparams ▸ hc) (hchan ▸ ha),
    congrArg (trunc 32) (kernelOutput_of_memories_eq hpushFs hcram hpushDlram), hpushDlram, hpushFs⟩

/-- A kernel result after a push is mapped by the S from before it, for a push moves a cursor only (rules R77, R101). -/
theorem kernelOutput_dlPush (s : State) (c : Nat) (p : Word) :
    kernelOutput (dlPush c p s) c = outputMap (sext 8 (s.chan c).S) (accumulate (dlPush c p s) c) := by
  rw [kernelOutput, dlPush_chan_S]

end

/-! ### The statements -/

/-- Settles O33: the push is that of DL.PUSH, and the sum over the pushed window is the sum over the new sample and the
window before it. -/
theorem kSingleComputesTapSum : Obligations.KSingleComputesTapSum := by
  intro s ch hi hc ha
  have hb := hi.bound ha
  refine ⟨_, exec_kSingle hc ha, ?_, dlPush_slot_same s _ hb.cursorSlot_lt, fun _ hj => dlPush_slot_other s _ hj,
    dlPush_chan s ch ch _, dlPush_wp_toNat s _ hb.inBank hb.length_pos, fun _ hd => dlPush_chan_other s _ hd.symm, rfl⟩
  rw [endCommand_res0, setRes0_res0, kernelOutput_dlPush, outputMap_sext, accumulate_dlPush hb]
  rfl

/-- Settles O34: the second K.SINGLE starts from the first one's push, which leaves the channel ACTIVE; what else the first
one wrote, ARG0 and RES0 and STATUS, no push and no sum reads. -/
theorem kDualIsTwoSingles : Obligations.KDualIsTwoSingles := by
  intro s ch hc ha
  have hdual := exec_kDual hc ha
  have hframe := (exec_done hdual).frame
  rw [CommandFrame, (exec_done hdual).cursor_eq (by simp), (exec_done hdual).mem_eq rfl, endCommand_err] at hframe
  have ha0 : ((dlPush ch s.arg0 s).chan ch).LC = .active := by rw [dlPush_chan_LC, ha]
  have hsingle := exec_kSingle hc ha
  obtain ⟨t1, hsecond, hres, hdlram, hfs⟩ := exec_kSingle_of_memories_eq (s := dlPush ch s.arg0 s)
    (u := { endCommand .ok (setRes0 (trunc 32 (kernelOutput (dlPush ch s.arg0 s) ch)) (dlPush ch s.arg0 s)) with
      arg0 := s.arg1 }) rfl rfl rfl rfl hc ha0
  exact ⟨_, _, t1, hdual, hsingle, hsecond, rfl, hres.symm, hdlram.symm, hfs.symm, hframe⟩

/-- Settles O35: T is at most 65532 (rule R8), and 65532·2^46 is less than 2^63. -/
theorem accumulatorFitsSixtyFourBits : Obligations.AccumulatorFitsSixtyFourBits := by
  intro s c hi ha
  obtain ⟨-, -, -, -, hlen, -⟩ := hi.params
  obtain ⟨-, hT, -⟩ := (hi.chan (hi.lt_of_active ha)).sized (by simp [ha])
  have hle := abs_accumulate_le s c
  exact ⟨accumulate_eq_sum s c, hle, by omega⟩

/-- Settles O36: the sum is 0, which every shift plan maps to 0. -/
theorem zeroCoefficientsGiveZero : Obligations.ZeroCoefficientsGiveZero := by
  intro s ch hc ha hzero
  have hacc : accumulate (dlPush ch s.arg0 s) ch = 0 := accumulate_of_coef_zero (by simpa using hzero)
  refine ⟨_, exec_kSingle hc ha, ?_⟩
  rw [endCommand_res0, setRes0_res0, kernelOutput_dlPush, hacc, outputMap_zero]
  rfl

/-- Settles O37: the sum is 2^14 times the new sample, and S = −1 maps it back to the sample. -/
theorem halfCoefficientIsUnity : Obligations.HalfCoefficientIsUnity := by
  intro s ch hi hc ha hS hhead htail
  obtain ⟨hT, -⟩ := (hi.chan hc).sized (by simp [ha])
  have hacc := accumulate_dlPush_of_coef_tail_zero (hi.bound ha) s.arg0 (by omega) htail
  rw [hhead] at hacc
  refine ⟨_, exec_kSingle hc ha, ?_⟩
  rw [endCommand_res0, setRes0_res0, kernelOutput_dlPush, hacc, hS]
  exact (congrArg _ (outputMap_half (BitVec.le_toInt _) BitVec.toInt_lt)).trans (trunc_toInt _)

end Sys2Proof.Machine

/-! The channel bank as a whole: the sample formats (rules R109, R110), the empty command (R114), the violations (R113), the
order of the channels (R115) and the two modes (R103, R116). -/

namespace Sys2Proof.Machine

/-! ### Patterns of stored elements (rules R109, R110) -/

/-- A number that fits w bits is read back from its pattern. -/
theorem toInt_ofNat_trunc {w : Nat} {v : Int} (hw : 0 < w) (hlo : -2 ^ (w - 1) ≤ v) (hhi : v < 2 ^ (w - 1)) :
    (BitVec.ofNat w (trunc w v).toNat).toInt = v := by
  rw [BitVec.ofNat_toNat, BitVec.setWidth_eq, trunc, BitVec.toInt_ofInt_eq_self hw hlo hhi]

/-- A value saturated to N bits is read back from its pattern of w ≥ N bits. -/
theorem toInt_ofNat_trunc_sat {N w : Nat} (hw : 0 < w) (h : N ≤ w) (v : Int) :
    (BitVec.ofNat w (trunc w (sat N v)).toNat).toInt = sat N v := by
  have hpow : (2 : Int) ^ (N - 1) ≤ 2 ^ (w - 1) := pow_le_pow_right₀ (by decide) (by omega)
  have hlo := satLo_le_sat N v
  have hhi := sat_le_satHi N v
  unfold satLo at hlo
  unfold satHi at hhi
  exact toInt_ofNat_trunc hw (by omega) (by omega)

theorem sext_ofNat {N m : Nat} (h : N ≤ m) (e : Nat) : sext N (BitVec.ofNat m e) = (BitVec.ofNat N e).toInt := by
  rw [sext, BitVec.setWidth_ofNat_of_le h]

/-! ### Even and any number of frames (rule R116) -/

/-- Loops whose bodies agree wherever P holds agree, when the second body keeps P. -/
theorem forUp_congr_of_invariant {body body' : Nat → State → State} {P : State → Prop} {n : Nat} {s : State} (h0 : P s)
    (hkeep : ∀ i t, P t → P (body' i t)) (heq : ∀ i t, i < n → P t → body i t = body' i t) :
    forUp body n s = forUp body' n s :=
  And.left <| forUp_induct (P := fun i t => forUp body i s = t ∧ P t) ⟨rfl, h0⟩ fun i t hi ⟨hs, hP⟩ =>
    ⟨by rw [forUp, hs, heq i t hi hP], hkeep i t hP⟩

/-- The two modes leave the same bank when F is even: the channels agree one by one, on canonical memory. -/
theorem processBank_even_eq_any {fmt : Format} {src dst F N : Nat} {s : State} (hm : Memory.wf s.mem)
    (hbuf : BuffersApart fmt src dst F N) (hF : F % 2 = 0) :
    processBank fmt .even src dst F N s = processBank fmt .any src dst F N s :=
  forUp_congr_of_invariant (P := fun t => Memory.wf t.mem) hm (fun _ _ => forUp_processOne_memWf)
    fun _ _ hc ht => processChannel_even_eq_any ht hbuf hF hc

/-- The mode enters rule R113 only through P3, which an even F meets in both modes. -/
theorem processViolation_even_eq_any {fmt : Format} {s : State} (hF : s.arg2.toNat % 2 = 0) :
    processViolation fmt .even s = processViolation fmt .any s := by
  simp [processViolation, hF]

theorem ProcessReady.buffersApart {fmt : Format} {mode : Mode} {s : State} (h : ProcessReady fmt mode s) :
    BuffersApart fmt s.arg0.toNat s.arg1.toNat s.arg2.toNat s.arg3.toNat :=
  h.p6.imp_left (congrArg BitVec.toNat)

/-- For an even F the common body of PROCESS does the same in both modes. -/
theorem processCore_even_eq_any (fmt : Format) {s : State} (hm : Memory.wf s.mem) (hF : s.arg2.toNat % 2 = 0) :
    processCore fmt .even s = processCore fmt .any s := by
  unfold processCore
  rw [processViolation_even_eq_any hF]
  cases hv : processViolation fmt .any s with
  | some v => rfl
  | none =>
    have hbuf := (processViolation_none_iff_ready.1 hv).buffersApart
    simp only [opSrc_eq, opDst_eq, opFrames_eq, opChannels_eq, processBank_even_eq_any hm hbuf hF]

/-! ### The statements -/

/-- Settles O41: `processCore_even_eq_any` in each format. -/
theorem evenModeEqualsAnyMode : Obligations.EvenModeEqualsAnyMode := fun _ hm hF =>
  ⟨processCore_even_eq_any .s16 hm hF, processCore_even_eq_any .s24 hm hF, processCore_even_eq_any .s32 hm hF⟩

/-- Settles O42: every order walks the same channels, and what has been walked determines the state. -/
theorem channelOrderIsFree : Obligations.ChannelOrderIsFree := by
  intro s fmt mode order hi hr hperm
  have hw := hr.walkReady hi
  have hmem : ∀ c, c ∈ order ↔ c < s.arg3.toNat := fun c => hperm.mem_iff.trans List.mem_range
  have hlist := walked_list hw (fun c hc => (hmem c).1 hc) (hperm.nodup_iff.2 List.nodup_range)
  exact (hlist.of_iff hmem).unique (walked_bank hw) hw.bound

/-- Settles O43: of the three ways PROCESS ends, only the violation is a fault, and only readiness lets the bank run. -/
theorem processFaultsNameBrokenPrecondition : Obligations.ProcessFaultsNameBrokenPrecondition := by
  intro s i fmt mode hp h2 h3
  rw [exec_process hp]
  rcases processCore_cases fmt mode s with ⟨hz, -⟩ | ⟨-, -, v, hv, he⟩ | ⟨-, -, hr, he⟩
  · exact absurd hz (not_or.2 ⟨h2, h3⟩)
  · refine ⟨fun v' hv' => ?_, fun _ => ⟨v, he⟩⟩
    cases he.symm.trans hv'
    exact hv
  · refine ⟨fun v hv => ?_, fun ⟨v, hv⟩ => absurd hv (hr.not_broken v)⟩
    cases he.symm.trans hv

/-- Settles O44: each stored pattern reads back as its value, and saturation is the clamp of rule R70. -/
theorem sampleFormatsRoundAndClamp : Obligations.SampleFormatsRoundAndClamp := by
  refine ⟨preTransform_range, fun e => ⟨?_, ?_, ?_⟩, fun y hlo hhi => ⟨?_, ?_, ?_⟩⟩
  · rw [preTransform, sext_ofNat (by decide)]
  · rw [preTransform, sext_ofNat (by decide)]
  · rw [preTransform, sext_ofNat (by decide)]
  · exact (toInt_ofNat_trunc_sat (by decide) (by decide) _).trans (saturationClampsToRange _).1
  · exact (toInt_ofNat_trunc_sat (by decide) (by decide) _).trans (saturationClampsToRange _).2.1
  · exact toInt_ofNat_trunc (by decide) hlo (Int.lt_of_le_sub_one hhi)

/-- Settles O38: the empty case of `processCore_cases`; in the other two neither F nor N is 0. -/
theorem emptyProcessIsNoop : Obligations.EmptyProcessIsNoop := by
  intro s i fmt mode hp hz
  rw [exec_process hp]
  rcases processCore_cases fmt mode s with ⟨-, he⟩ | ⟨h2, h3, -⟩ | ⟨h2, h3, -⟩
  · exact he
  · exact absurd hz (not_or.2 ⟨h2, h3⟩)
  · exact absurd hz (not_or.2 ⟨h2, h3⟩)

end Sys2Proof.Machine

/-! How a command ends with an error, and the block with nothing to do (rules R127, R138). -/

namespace Sys2Proof.Machine

/-- Of all the ways a command can end, only the reported error leaves a code other than OK, and it writes nothing but
STATUS (rule R127). -/
theorem CommandDone.eq_endCommand_of_err {i : Instr} {s t : State} (h : CommandDone i s t) (he : t.err ≠ .ok) :
    t = endCommand t.err s := by
  cases h with
  | error _ _ e _ => rfl
  | _ => exact absurd rfl he

/-! ### The statements -/

/-- Settles O16: every command that answers a next state is a `CommandDone`. -/
theorem errorChangesOnlyStatus : Obligations.ErrorChangesOnlyStatus := fun _ _ _ h he =>
  (exec_done h).eq_endCommand_of_err he

/-- Settles O14: a block that is not busy has no command to complete, and with no access left there is nothing to count
down. -/
theorem idleBlockKeepsState : Obligations.IdleBlockKeepsState := by
  intro s hb hs
  have h0 : s.phase ≠ .running 0 := fun h => Bool.false_ne_true (hb.symm.trans (busy_running s 0 h))
  rw [step_script_nil h0 hs, countDown_not_busy hb]

end Sys2Proof.Machine

/-! The host at a block with a command in flight: WAIT and the BUSY rule (rules R144, R145), block reset in flight (R140),
and what the time of completion depends on (R148). -/

namespace Sys2Proof.Machine

/-! ### An access to a closed place, and a read of STATUS (rules R18, R145) -/

section
variable {s : State} {rest : List HostOp} {a : BitVec 18} {w : Word} {n : Nat}

/-- An aligned write to a closed place. -/
theorem performOp_closed_write (ha : a.toNat % 4 = 0) (hclosed : portOpen s (slavePlace s.params a.toNat) = false) :
    performOp (.write a 4 w) s = .fault .hostHazard := by
  rw [performOp, if_pos (by simp [slaveAligned, ha]), hostWrite_early w hclosed]

/-- An aligned read of a closed place, STATUS apart: some value, and one draw more. -/
theorem performOp_closed_read (ha : a.toNat % 4 = 0) (hne : a ≠ 0x004)
    (hclosed : portOpen s (slavePlace s.params a.toNat) = false) :
    performOp (.read a 4) s = .next { s with rdata := Config.freeWord s.draws, draws := s.draws + 1 } := by
  rw [performOp, if_pos (by simp [slaveAligned, ha]), hostRead_early hclosed fun h => hne (BitVec.eq_of_toNat_eq h)]
  rfl

theorem performOp_read_status : performOp (.read 0x004 4) s = .next (readStatus s) := by
  rw [performOp, if_pos (by decide), hostRead_status]

/-- A read of STATUS that returns BUSY = 1 leaves the phase. -/
theorem readStatus_running (hp : s.phase = .running n) : readStatus s = { s with rdata := statusWord s } := by
  simp [readStatus, seen, returnWord, hp]

/-- The read of STATUS that returns BUSY = 0 ends the interval of rule R145. -/
theorem readStatus_unseen (hp : s.phase = .unseen) : readStatus s = { s with rdata := statusWord s, phase := .idle } := by
  simp [readStatus, seen, returnWord, hp]

/-- With BUSY = 1 and ERR = 0, STATUS reads as 1 (rule R18). -/
theorem statusWord_running (hp : s.phase = .running n) (he : s.err = .ok) : statusWord s = 1 := by
  simp [statusWord, busy_running s n hp, he, ErrCode.code]

/-- Once the command is complete, a place that has a name stays closed until BUSY = 0 has been read (rule R145). -/
theorem portOpen_unseen_named (hp : s.phase = .unseen) (ha : a.toNat % 4 = 0) (hnamed : ¬NamesNothing s.params a.toNat) :
    portOpen s (slavePlace s.params a.toNat) = false := by
  rw [portOpen_unseen hp, decide_eq_false_iff_not, slavePlace_nothing_iff _ ha]
  exact hnamed

/-! ### The host waits (rules R65, R144) -/

theorem performOp_wait_busy (hb : s.busy = true) :
    performOp .wait s = .next { readStatus s with script := .wait :: s.script } :=
  congrArg _ (if_pos hb)

theorem performOp_wait_not_busy (hb : s.busy = false) : performOp .wait s = .next (readStatus s) :=
  congrArg _ (if_neg (by simp [hb]))

/-- While BUSY = 1, WAIT reads STATUS and stays the next access; the completion comes one access nearer (log 5). -/
theorem step_wait_running (hp : s.phase = .running (n + 1)) (hs : s.script = .wait :: rest) :
    step s = .next { s with rdata := statusWord s, phase := .running n } := by
  have hop : performOp .wait { s with script := rest } = .next { s with rdata := statusWord s } := by
    rw [performOp_wait_busy (s := { s with script := rest }) (busy_running _ _ hp),
      readStatus_running (s := { s with script := rest }) hp, ← hs]
    rfl
  exact step_op_running hp hs hop rfl

/-- Once the command is complete, WAIT reads BUSY = 0 and is done. -/
theorem step_wait_unseen (hp : s.phase = .unseen) (hs : s.script = .wait :: rest) :
    step s = .next { s with script := rest, rdata := statusWord s, phase := .idle } := by
  have hb : s.busy = false := busy_unseen s hp
  refine step_op_not_busy hb hs ?_
  rw [performOp_wait_not_busy (s := { s with script := rest }) hb, readStatus_unseen (s := { s with script := rest }) hp]
  rfl

end

/-! ### How the command in flight ends (rules R7, R144) -/

/-- The command in flight, legal or not, completes inside the frame of a command. -/
theorem runCommand_frame {s t : State} (h : runCommand s = .next t) : CommandFrame s t := by
  rcases runCommand_cases s with ⟨i, -, he⟩ | ⟨e, -, he⟩
  · exact (exec_done (he ▸ h)).frame
  · cases he.symm.trans h
    rfl

/-- No command is refused, so one that breaks no precondition completes. -/
theorem runCommand_completes {s : State} (h : ∀ v, runCommand s ≠ .fault v) :
    ∃ t, runCommand s = .next t ∧ CommandFrame s t := by
  cases hr : runCommand s with
  | next t => exact ⟨t, rfl, runCommand_frame hr⟩
  | fault v => exact absurd hr (h v)
  | refused r => exact absurd hr runCommand_not_refused

/-- A run goes on from the state its first step leaves. -/
theorem run_succ (M : Host.Core) {s t : M.State} (k : Nat) (h : M.step s = .next t) : M.run (k + 1) s = M.run k t := by
  rw [Host.Core.run, h]

theorem run_one (M : Host.Core) (s : M.State) : M.run 1 s = M.step s := by
  rw [Host.Core.run]
  cases M.step s <;> rfl

/-! ### Block reset in flight (rule R140) -/

/-- Draws at `[a, a + n)` change no byte outside. -/
theorem memByte_drawBytes_outside {m : Memory} (h : Memory.wf m) {a k n x : Nat} (hx : x < a ∨ a + n ≤ x) :
    memByte (drawBytes a k n m) x = memByte m x := by
  induction n with
  | zero => rfl
  | succ n ih => rw [drawBytes, memByte_memSet_other (drawBytes_wf h a k n) _ (by omega), ih (by omega)]

/-- The destination in flight is that of a PROCESS, or empty. -/
theorem outside_destInFlight {s : State} {x : Nat}
    (h : ∀ i fmt mode, decode s.cmd = .ok i → i.process = some (fmt, mode) →
      x < s.arg1.toNat ∨ s.arg1.toNat + s.arg2.toNat * s.arg3.toNat * elemSize fmt ≤ x) :
    x < (destInFlight s).1 ∨ (destInFlight s).1 + (destInFlight s).2 ≤ x := by
  unfold destInFlight
  cases hd : decode s.cmd with
  | error e => simp
  | ok i =>
    dsimp only
    cases hp : i.process with
    | none => simp
    | some fm => simpa [bufferBytes_eq] using h i fm.1 fm.2 hd hp

/-- The state a block reset leaves when it abandons the command in flight. -/
def abandoned (s : State) : State :=
  { blockReset s with
    mem := drawBytes (destInFlight s).1 (blockReset s).draws (destInFlight s).2 s.mem
    draws := (blockReset s).draws + (destInFlight s).2 }

theorem resetInFlight_eq_abandoned {s t : State} (h : runCommand s = .next t) : resetInFlight s = .next (abandoned s) := by
  rw [resetInFlight, h]
  rfl

theorem eq_abandoned_of_resetInFlight {s t : State} (h : resetInFlight s = .next t) : t = abandoned s := by
  unfold resetInFlight at h
  split at h
  · cases h
  · cases h
  · cases h; rfl

theorem abandoned_atReset (s : State) : (abandoned s).AtReset := by
  obtain ⟨h1, h2, h3, h4, h5, h6, h7⟩ := afterReset_atReset s.params s.draws
  exact ⟨h1, h2, h3, h4, h5, h6, h7⟩

/-! ### What the time of completion depends on (rule R148, log 5) -/

/-- Two states agree in everything the moves between idle, BUSY and complete depend on. -/
structure SameTiming (s s' : State) : Prop where
  params  : s.params = s'.params
  phase   : s.phase = s'.phase
  script  : s.script = s'.script
  latency : s.latency = s'.latency

section
variable {s s' t t' : State}

theorem SameTiming.busy (h : SameTiming s s') : s.busy = s'.busy := by
  rw [State.busy, State.busy, h.phase]

theorem SameTiming.withScript (h : SameTiming s s') (ops : List HostOp) :
    SameTiming { s with script := ops } { s' with script := ops } :=
  ⟨h.params, h.phase, rfl, h.latency⟩

theorem SameTiming.countDown (h : SameTiming s s') : SameTiming (countDown s) (countDown s') := by
  rw [countDown_eq s, countDown_eq s']
  refine ⟨h.params, ?_, h.script, h.latency⟩
  unfold Machine.countDown
  rw [← h.phase]
  split
  · rfl
  · exact h.phase
  · exact h.phase
  · exact h.phase

theorem SameTiming.readStatus (h : SameTiming s s') : SameTiming (readStatus s) (readStatus s') := by
  have hp' := h.phase.symm
  cases hp : s.phase with
  | idle =>
    rw [readStatus_idle hp, readStatus_idle (hp'.trans hp)]
    exact ⟨h.params, h.phase, h.script, h.latency⟩
  | running n =>
    rw [readStatus_running hp, readStatus_running (hp'.trans hp)]
    exact ⟨h.params, h.phase, h.script, h.latency⟩
  | unseen =>
    rw [readStatus_unseen hp, readStatus_unseen (hp'.trans hp)]
    exact ⟨h.params, rfl, h.script, h.latency⟩

theorem SameTiming.runCommand (h : SameTiming s s') (ht : runCommand s = .next t) (ht' : runCommand s' = .next t') :
    SameTiming t t' := by
  rw [runCommand_frame ht, runCommand_frame ht']
  exact ⟨h.params, rfl, h.script, h.latency⟩

theorem SameTiming.hostRead (h : SameTiming s s') (a : BitVec 18) : SameTiming (hostRead a s) (hostRead a s') := by
  unfold Machine.hostRead
  dsimp only
  rw [← h.params, ← portOpen_congr h.phase]
  split
  · exact h.readStatus
  · split
    · exact ⟨h.params, h.phase, h.script, h.latency⟩
    · exact ⟨h.params, h.phase, h.script, h.latency⟩

/-- Of all places only CMD starts a command. -/
theorem slaveWrite_sameTiming {w : Word} {place : SlavePlace} (hne : place ≠ .cmd) (ht : slaveWrite w s place = .next t) :
    SameTiming s t := by
  cases place with
  | cmd => exact absurd rfl hne
  | cram i =>
    rw [slaveWrite] at ht
    split at ht
    · cases ht
    · cases ht; exact ⟨rfl, rfl, rfl, rfl⟩
  | _ => cases ht; exact ⟨rfl, rfl, rfl, rfl⟩

theorem SameTiming.trans {u : State} (h : SameTiming s t) (h' : SameTiming t u) : SameTiming s u :=
  ⟨h.params.trans h'.params, h.phase.trans h'.phase, h.script.trans h'.script, h.latency.trans h'.latency⟩

theorem SameTiming.symm (h : SameTiming s t) : SameTiming t s :=
  ⟨h.params.symm, h.phase.symm, h.script.symm, h.latency.symm⟩

theorem SameTiming.slaveWrite (h : SameTiming s s') {w : Word} {place : SlavePlace}
    (ht : slaveWrite w s place = .next t) (ht' : slaveWrite w s' place = .next t') : SameTiming t t' := by
  by_cases hc : place = .cmd
  · subst hc
    cases ht
    cases ht'
    refine ⟨h.params, ?_, h.script, congrArg List.tail h.latency⟩
    rw [startCommand_phase, startCommand_phase, h.latency]
  · exact (slaveWrite_sameTiming hc ht).symm.trans (h.trans (slaveWrite_sameTiming hc ht'))

theorem SameTiming.hostWrite (h : SameTiming s s') {a : BitVec 18} {w : Word} (ht : hostWrite a w s = .next t)
    (ht' : hostWrite a w s' = .next t') : SameTiming t t' := by
  cases hopen : portOpen s (slavePlace s.params a.toNat) with
  | false => cases (hostWrite_early w hopen).symm.trans ht
  | true =>
    have hopen' : portOpen s' (slavePlace s'.params a.toNat) = true := by
      rw [← h.params, ← portOpen_congr h.phase, hopen]
    rw [hostWrite_open w hopen] at ht
    rw [hostWrite_open w hopen', ← h.params] at ht'
    exact h.slaveWrite ht ht'

theorem SameTiming.blockReset (h : SameTiming s s') : SameTiming (blockReset s) (blockReset s') :=
  ⟨h.params, rfl, h.script, h.latency⟩

theorem SameTiming.abandoned (h : SameTiming s s') : SameTiming (abandoned s) (abandoned s') :=
  ⟨h.params, rfl, h.script, h.latency⟩

theorem SameTiming.performOp (h : SameTiming s s') {op : HostOp} (ht : performOp op s = .next t)
    (ht' : performOp op s' = .next t') : SameTiming t t' := by
  cases op with
  | write a size w =>
    rw [Machine.performOp] at ht ht'
    split at ht
    · next ha => exact h.hostWrite ht ((if_pos ha).symm.trans ht')
    · cases ht
  | read a size =>
    rw [Machine.performOp] at ht ht'
    split at ht
    · next ha =>
      cases ht
      cases (if_pos ha).symm.trans ht'
      exact h.hostRead a
    · cases ht
  | wait =>
    cases ht
    cases ht'
    rw [← h.busy, ← h.script]
    split
    · exact h.readStatus.withScript _
    · exact h.readStatus
  | reset =>
    rw [Machine.performOp] at ht ht'
    rw [← h.busy] at ht'
    split at ht
    · next hb =>
      rw [eq_abandoned_of_resetInFlight ht, eq_abandoned_of_resetInFlight ((if_pos hb).symm.trans ht')]
      exact h.abandoned
    · next hb =>
      cases ht
      cases (if_neg hb).symm.trans ht'
      exact h.blockReset
  | memStore | memLoad =>
    rw [Machine.performOp] at ht ht'
    split at ht
    · cases ht
    · split at ht'
      · cases ht'
      · cases ht
        cases ht'
        exact ⟨h.params, h.phase, h.script, h.latency⟩
  | coherenceMissed => cases ht

/-- Two states that agree in what the timing depends on still agree after a step of each. -/
theorem SameTiming.step (h : SameTiming s s') (ht : step s = .next t) (ht' : step s' = .next t') : SameTiming t t' := by
  rcases step_cases ht with ⟨h0, hrun⟩ | ⟨h0, hs, rfl⟩ | ⟨h0, op, rest, u, hs, hop, rfl⟩
  · exact h.runCommand hrun ((step_running_zero (h.phase ▸ h0)).symm.trans ht')
  · cases (step_script_nil (h.phase ▸ h0) (h.script ▸ hs)).symm.trans ht'
    exact h.countDown
  · rcases step_cases ht' with ⟨h0', -⟩ | ⟨-, hs', -⟩ | ⟨-, op', rest', u', hs', hop', rfl⟩
    · exact absurd (h.phase.trans h0') h0
    · cases hs.symm.trans (h.script.trans hs')
    · cases hs.symm.trans (h.script.trans hs')
      have hu := (h.withScript rest).performOp hop hop'
      rw [← h.busy]
      split
      · exact hu.countDown
      · exact hu

end

/-! ### The statements -/

/-- Settles O13, by induction on the accesses left: each WAIT brings the completion nearer, the command completes because it
breaks no precondition, and the last WAIT reads BUSY = 0. -/
theorem waitEndsUnlessViolation : Obligations.WaitEndsUnlessViolation := by
  intro s n rest hp hs hsafe
  induction n generalizing s with
  | zero =>
    have hstep := step_running_zero hp
    have hrun : ∀ v, runCommand s ≠ .fault v := fun v hv => hsafe v ((run_one core s).trans (hstep.trans hv))
    obtain ⟨u, hu, hframe⟩ := runCommand_completes hrun
    have hphase : u.phase = .unseen := by rw [hframe]
    have hscript : u.script = .wait :: rest := by rw [hframe]; exact hs
    refine ⟨{ u with script := rest, rdata := statusWord u, phase := .idle }, ?_, rfl, rfl, rfl⟩
    exact (run_succ core 1 (hstep.trans hu)).trans ((run_one core u).trans (step_wait_unseen hphase hscript))
  | succ n ih =>
    have hstep := step_wait_running hp hs
    obtain ⟨t, hrun, ht⟩ := ih { s with rdata := statusWord s, phase := .running n } rfl hs fun v hv =>
      hsafe v ((run_succ core (n + 1) hstep).trans hv)
    exact ⟨t, (run_succ core (n + 2) hstep).trans hrun, ht⟩

/-- Settles O47: the two states have the same timing, and a step keeps that. -/
theorem completionIgnoresData : Obligations.CompletionIgnoresData := by
  intro s s' t t' hs' ht ht'
  have h : SameTiming s s' := by
    rw [hs']
    exact ⟨rfl, rfl, rfl, rfl⟩
  obtain ⟨-, hphase, hscript, hlatency⟩ := h.step ht ht'
  exact ⟨hphase, hscript, hlatency⟩

/-- Settles O55, clause by clause: a closed place refuses the write and answers the read with a draw, and STATUS is always
answered. -/
theorem busyRule : Obligations.BusyRule := by
  intro s a w rest ha
  refine ⟨fun n hp hs => ?_, fun hp hnamed hs => ?_, fun n hp he hs => ?_, fun n hp hs he => ?_, fun n hp hne hs => ?_,
    fun hp hne hnamed hs => ?_⟩
  · exact step_op_fault (by simp [hp]) hs
      (performOp_closed_write (s := { s with script := rest }) ha (portOpen_running hp _))
  · exact step_op_fault (by simp [hp]) hs
      (performOp_closed_write (s := { s with script := rest }) ha (portOpen_unseen_named hp ha hnamed))
  · have hread := readStatus_running (s := { s with script := rest }) hp
    rw [statusWord_running (s := { s with script := rest }) hp he] at hread
    exact step_op_running hp hs (performOp_read_status.trans (congrArg _ hread)) rfl
  · have hread := readStatus_unseen (s := { s with script := rest }) hp
    rw [statusWord_not_busy (s := { s with script := rest }) (busy_unseen _ hp), errCode_eq_of_mem he] at hread
    exact step_op_not_busy (busy_unseen s hp) hs (performOp_read_status.trans (congrArg _ hread))
  · exact ⟨_, step_op_running hp hs
      (performOp_closed_read (s := { s with script := rest }) ha hne (portOpen_running hp _)) rfl⟩
  · exact ⟨_, step_op_not_busy (busy_unseen s hp) hs
      (performOp_closed_read (s := { s with script := rest }) ha hne (portOpen_unseen_named hp ha hnamed))⟩

/-- Settles O58: the reset leaves `abandoned`, whose draws lie in the destination in flight. -/
theorem resetInFlightAbandonsCommand : Obligations.ResetInFlightAbandonsCommand := by
  intro s n rest hm hp hs hsafe
  obtain ⟨u, hu, -⟩ := runCommand_completes hsafe
  have hop : performOp .reset { s with script := rest } = .next (abandoned { s with script := rest }) :=
    (if_pos (busy_running _ _ hp)).trans (resetInFlight_eq_abandoned hu)
  refine ⟨abandoned { s with script := rest }, ?_, abandoned_atReset _, rfl, rfl, fun x hx => ?_⟩
  · rw [step_op_next (by simp [hp]) hs hop, countDown_not_busy (s := abandoned _) rfl, ite_self]
  · exact memByte_drawBytes_outside hm (outside_destInFlight (s := { s with script := rest }) hx)

end Sys2Proof.Machine
